-- ==== Sys2Proof/Word.lean ====
section
/-! DEFINITION. The word types of HUFFCORE: spec/00_scope.md rules R6, R7, R10, R11 and spec/20_memory.md rule R58. -/

namespace Sys2Proof

/-- A byte, and so a symbol of the 256-symbol alphabet (R6: `ALPHABET = 256`, `SYM_W = 8`). -/
abbrev Byte := BitVec 8

/-- A word of the host port, and the width `REG_W = CNT_W = 32` of registers and counters (R8). -/
abbrev Word := BitVec 32

/-- A word offset of the host port: `0 <= a < 2^26` (R58). -/
abbrev Offset := BitVec 26

/-- A bit string, first bit first (R10, R11). -/
abbrev BitString := List Bool

/-- An array indexed by symbol: FREQ and CT (R36, R40). -/
abbrev SymTab (α : Type) := Vector α 256

end Sys2Proof
end

