-- ==== Sys2Proof/Config.lean ====
section
/-! DEFINITION. What an implementation of HUFFCORE fixes (spec/00_scope.md rule R8, spec/92_eei_decisions.md D4, D6)
and the one free value of the model. -/

namespace Sys2Proof

/-- `SYM_ORDER`, the order in which FREQ lists the symbols present (R8, R95, R96). -/
inductive SymOrder where
  | firstOccurrence
  | ascending
  deriving DecidableEq, Repr

/-- The parameters of an instance of the block: the arguments of every claim (R8, R212). -/
structure Params where
  /-- `BUF_CAP`: the capacity in bytes of IN, PAY and OUT; BITS holds `8 * BUF_CAP` bits. -/
  bufCap : Nat
  /-- `SYM_ORDER`. -/
  symOrder : SymOrder
  deriving DecidableEq, Repr

/-- An open number: the spec gives `BUF_CAP` no value (D4: `OPEN`), so nothing constrains it (log entry 2). -/
opaque Config.bufCapChoice : Nat

/-- `BUF_CAP` of the instance that `State.reset` describes: any value of `64 <= BUF_CAP <= 2^24` (R8), and which one is
open (log entry 2). -/
def Config.bufCap : Nat := Config.bufCapChoice % (2 ^ 24 - 63) + 64

/-- The instance's parameters: this hardware takes `SYM_ORDER = first_occurrence` (R96). -/
def Config.params : Params := { bufCap := Config.bufCap, symOrder := .firstOccurrence }

/-- FREE VALUE (log entry 4): the frequency read through a handle that names no record of the arena.  The spec states
nothing about such a handle, and no reachable state holds one (R45 (e), (f)). -/
opaque Config.danglingFreq : Nat → Word

end Sys2Proof
end

