-- ==== Sys2Proof/Syntax.lean ====
section
/-! DEFINITION. The sixteen commands of HUFFCORE, one constructor per row of spec/opcode_table.json
(spec/30_encoding.md rule R72).  No command has an operand (R71). -/

namespace Sys2Proof

inductive Instr where
  /-- R155 -/
  | nop
  /-- R156 -/
  | rst
  /-- R157 -/
  | inclr
  /-- R95 -/
  | freq
  /-- R103 -/
  | tinit
  /-- R104 -/
  | tmerge
  /-- R108 -/
  | tbuild
  /-- R106 -/
  | assign
  /-- R120 -/
  | apply
  /-- R122 -/
  | decode
  /-- R130 -/
  | pack
  /-- R132 -/
  | unpack
  /-- R140 -/
  | ser
  /-- R142 -/
  | deser
  /-- R158 -/
  | compress
  /-- R159 -/
  | decompress
  deriving DecidableEq, Repr

end Sys2Proof
end

