-- ==== Sys2Proof/WellFormed.lean ====
section
/-! DEFINITION. Which instructions and which parameters are well formed. -/

namespace Sys2Proof

/-- A command has no operand (spec/30_encoding.md R71), so there is nothing to check: each of the sixteen is well formed. -/
def Instr.wellFormed (_ : Instr) : Bool := true

/-- `64 <= BUF_CAP <= 2^24` (spec/00_scope.md R8). -/
def Params.wellFormed (c : Params) : Bool := decide (64 ≤ c.bufCap) && decide (c.bufCap ≤ 2 ^ 24)

end Sys2Proof
end

