-- ==== Sys2Proof/Decode.lean ====
section
/-! DEFINITION. The command word: decoder and encoder (spec/30_encoding.md rules R70 to R75). -/

namespace Sys2Proof

/-- Why a word is no command (R73): reserved bits set, or an unassigned opcode. -/
inductive IllegalWord where
  /-- `w[31:8] != 0`. -/
  | reservedBits
  /-- `w[31:8] = 0` and `w[7:0]` is not one of the sixteen opcodes. -/
  | unassignedOpcode
  deriving DecidableEq, Repr

/-- The field `op`, bits 7:0 of a command word (R70). -/
def opField (w : Word) : Byte := w.extractLsb' 0 8

/-- The field `rsv`, bits 31:8 of a command word (R70). -/
def rsvField (w : Word) : BitVec 24 := w.extractLsb' 8 24

/-- The opcode map of R72. -/
def opcodeMap : List (Byte × Instr) :=
  [(0x00, .nop), (0x01, .rst), (0x02, .inclr), (0x10, .freq), (0x20, .tinit), (0x21, .tmerge), (0x22, .tbuild),
   (0x23, .assign), (0x30, .apply), (0x31, .decode), (0x40, .pack), (0x41, .unpack), (0x50, .ser), (0x51, .deser),
   (0x60, .compress), (0x61, .decompress)]

/-- The decoder, total on every 32-bit word (R73, R74). -/
def decode (w : Word) : Except IllegalWord Instr :=
  if rsvField w ≠ 0 then .error .reservedBits
  else match opcodeMap.find? (fun row => row.1 == opField w) with
    | some row => .ok row.2
    | none => .error .unassignedOpcode

/-- The opcode of a command (R72), which is also what it leaves in LASTOP (R74). -/
def opcode (i : Instr) : Byte :=
  match i with
  | .nop => 0x00
  | .rst => 0x01
  | .inclr => 0x02
  | .freq => 0x10
  | .tinit => 0x20
  | .tmerge => 0x21
  | .tbuild => 0x22
  | .assign => 0x23
  | .apply => 0x30
  | .decode => 0x31
  | .pack => 0x40
  | .unpack => 0x41
  | .ser => 0x50
  | .deser => 0x51
  | .compress => 0x60
  | .decompress => 0x61

/-- The word that encodes a command: `rsv = 0`, `op` the opcode (R70, R72). -/
def encode (i : Instr) : Word := (0 : BitVec 24) ++ opcode i

/-- The instruction read from the low `nbits` bits of `w`, numbered as spec/opcode_table.json numbers them (bit 0 is the
least significant bit of the word); a command is one 32-bit word (R75), so a number that needs more is none. -/
def decodeTableWord (nbits w : Nat) : Option Instr :=
  let bits := w % 2 ^ nbits
  if bits < 2 ^ 32 then
    match decode (BitVec.ofNat 32 bits) with
    | .ok i => some i
    | .error _ => none
  else none

end Sys2Proof
end

