-- ==== Sys2Proof/Machine/State.lean ====
section
/-! DEFINITION. The state of HUFFCORE as plain data (spec/10_state.md rules R15 to R47) and the state after reset. -/

namespace Sys2Proof.Machine

/-- A record of the node arena (R38).  A handle is the index of a record, a natural number (R7, R14); its nine bits are the
bound 0..510 that `TreeOk` states (R45), and absence (`NONE = 0x1FF`) is `Option.none` (log entry 9). -/
inductive Node where
  /-- `Leaf{sym, freq}` -/
  | leaf (sym : Byte) (freq : Word)
  /-- `Internal{left, right, freq}`; `right = none` is the spec's `right = NONE`. -/
  | internal (left : Nat) (right : Option Nat) (freq : Word)
  deriving DecidableEq, Repr

/-- The six architectural faults (spec/60_exceptions.md R175).  They are recorded in the FAULT register; none of them
stops the machine. -/
inductive Cause where
  /-- code 1, R176 -/
  | invalidInput
  /-- code 2, R177 -/
  | malformedContainer
  /-- code 3, R178 -/
  | lookupInconsistency
  /-- code 4, R179 -/
  | illegalCommand
  /-- code 5, R180 -/
  | capacity
  /-- code 6, R181 -/
  | sequence
  deriving DecidableEq, Repr

/-- One access of the host (spec/20_memory.md R58, R61 to R63) or the hardware reset event (spec/70_reset_and_hazards.md
R200). -/
inductive HostOp where
  /-- `MemWrite(a, 1, w)` -/
  | write (a : Offset) (w : Word)
  /-- `MemRead(a, 1)` -/
  | read (a : Offset)
  /-- hardware reset -/
  | reset
  deriving DecidableEq, Repr

/-- Reasons for the machine to stop with a fault: there is none.  Every host operation is one atomic total step (R74, R210;
spec/93_implementation_defined.md Part 1: no stuck behaviour); the faults of R175 are recorded in State and the machine
goes on.  Safe: nothing stops. -/
inductive Fault where
  deriving DecidableEq, Repr

/-- Reasons for an instruction to have no meaning. -/
inductive Refusal where
  /-- Raised by an arm of `exec` for a command that has no meaning yet; no arm raises it.  Safe: the machine stops. -/
  | notModelled (mnemonic : String)
  deriving DecidableEq, Repr

/-- The state tuple of R15, then the model's own three fields (log entries 1 and 2). -/
structure State where
  /-- IN (R35) -/
  inBuf : List Byte
  /-- FREQ (R36) -/
  freq : SymTab Word
  /-- ORD (R37) -/
  ord : List Byte
  /-- NODE (R38) -/
  node : List Node
  /-- PQ (R39) -/
  pq : List Nat
  /-- CT (R40); the empty bit string is "no entry" -/
  ct : SymTab BitString
  /-- CT_ORD (R41) -/
  ctOrd : List Byte
  /-- BITS (R42) -/
  bits : BitString
  /-- PAD (R27): `PAD[2:0]` -/
  pad : BitVec 3
  /-- PAY (R43) -/
  pay : List Byte
  /-- OUT (R44) -/
  out : List Byte
  /-- FAULT (R22, R175); `none` is code 0 -/
  fault : Option Cause
  /-- FINFO (R23) -/
  finfo : Word
  /-- STATUS.DONE (R21) -/
  done : Bool
  /-- STATUS.LASTOP (R21) -/
  lastop : Byte
  /-- the model's own: the instance's parameters, which no step changes (R47) -/
  cfg : Params
  /-- the model's own: the host's accesses still to be performed, oldest first (R65) -/
  pending : List HostOp
  /-- the model's own: the words that the host's reads returned, oldest first (R58) -/
  rdata : List Word
  deriving DecidableEq, Repr

/-- The state after hardware reset (R46, R200), of the instance `Config.params`, with no host access pending. -/
def State.reset : State where
  inBuf := []
  freq := Vector.replicate 256 0
  ord := []
  node := []
  pq := []
  ct := Vector.replicate 256 []
  ctOrd := []
  bits := []
  pad := 0
  pay := []
  out := []
  fault := none
  finfo := 0
  done := false
  lastop := 0
  cfg := Config.params
  pending := []
  rdata := []

end Sys2Proof.Machine
end

