-- ==== Sys2Proof/Machine/Operands.lean ====
section
/-! DEFINITION. The data encodings every command is built from: arrays indexed by symbol, decimal numerals, bits of a
byte, code strings, the serialised table and its grammar (spec/00_scope.md R12, spec/20_memory.md R51,
spec/30_encoding.md R80 to R89). -/

namespace Sys2Proof.Machine

/-! ### Arrays indexed by symbol (R36, R40) -/

/-- `x[s]` for an array indexed by symbol (R13). -/
def symGet {α : Type} (t : SymTab α) (s : Byte) : α := t[s.toNat]'s.isLt

/-- `x[s] <- v`. -/
def symSet {α : Type} (t : SymTab α) (s : Byte) (v : α) : SymTab α := t.set s.toNat v s.isLt

/-- The 256 symbols in ascending order (R6). -/
def allSyms : List Byte := (List.range 256).map (BitVec.ofNat 8)

/-! ### ASCII (R11) -/

/-- `{` -/
def chOpen : Byte := 0x7B
/-- `}` (HP: ASCII 125) -/
def chClose : Byte := 0x7D
/-- the double quote -/
def chQuote : Byte := 0x22
/-- `:` -/
def chColon : Byte := 0x3A
/-- `,` -/
def chComma : Byte := 0x2C

/-- Is the byte an ASCII digit, 0x30..0x39? -/
def isDigit (b : Byte) : Bool := 0x30 ≤ b.toNat && b.toNat ≤ 0x39

/-- The ASCII digit of a number below ten. -/
def digitByte (d : Nat) : Byte := BitVec.ofNat 8 (0x30 + d)

/-- The value of an ASCII digit. -/
def digitVal (b : Byte) : Nat := b.toNat - 0x30

/-! ### Decimal numerals (R12) -/

/-- The digits of `n` put before `acc`, most significant first; `fuel` bounds the number of digits. -/
def decAux : Nat → Nat → List Byte → List Byte
  | 0, _, acc => acc
  | fuel + 1, n, acc =>
    if n < 10 then digitByte n :: acc
    else decAux fuel (n / 10) (digitByte (n % 10) :: acc)

/-- `dec(n)`: ASCII decimal, most significant digit first, no leading zero, `dec(0) = "0"`. -/
def dec (n : Nat) : List Byte := decAux (n + 1) n []

/-- `undec(d)`: the natural number a digit sequence denotes, of unbounded size, leading zeros allowed. -/
def undec (d : List Byte) : Nat := d.foldl (fun n b => 10 * n + digitVal b) 0

/-! ### Bits of a byte (R12, R51) -/

/-- The number a bit string denotes, first bit most significant. -/
def bitsVal (b : BitString) : Nat := b.foldl (fun n x => 2 * n + x.toNat) 0

/-- `val8(b)`, for a bit string of length 8: `b[0]` is the most significant bit. -/
def val8 (b : BitString) : Byte := BitVec.ofNat 8 (bitsVal b)

/-- `bits8(v)`: the eight bits of a byte, most significant first. -/
def bits8 (v : Byte) : BitString :=
  [v.getMsbD 0, v.getMsbD 1, v.getMsbD 2, v.getMsbD 3, v.getMsbD 4, v.getMsbD 5, v.getMsbD 6, v.getMsbD 7]

/-- A bit string cut into 8-bit chunks, one byte each (R82, R130); a rest shorter than eight bits is no chunk. -/
def chunks8 : BitString → List Byte
  | a :: b :: c :: d :: e :: f :: g :: h :: rest => val8 [a, b, c, d, e, f, g, h] :: chunks8 rest
  | _ => []

/-! ### Codes (R12, R85) -/

/-- `isprefix(a, b)`. -/
def isprefix (a b : BitString) : Bool := a.isPrefixOf b

/-- One ASCII character of a code string. -/
def bitByte (b : Bool) : Byte := if b then 0x31 else 0x30

/-- `codestr(c)`: one character per bit, first bit first (R85). -/
def codestr (c : BitString) : List Byte := c.map bitByte

/-- The bits of a string of the characters `0` and `1` (R146). -/
def codeOfStr (b : List Byte) : BitString := b.map (fun x => x == 0x31)

/-! ### The serialised table, as written (R83) -/

/-- `E(s)`: one entry, key and code string in quotes. -/
def tableEntry (s : Byte) (c : BitString) : List Byte :=
  [chQuote] ++ dec s.toNat ++ [chQuote, chColon, chQuote] ++ codestr c ++ [chQuote]

/-- `join(",", l)` (R140). -/
def joinComma : List (List Byte) → List Byte
  | [] => []
  | [e] => e
  | e :: es => e ++ [chComma] ++ joinComma es

/-- `T`: the serialised table, entries in the order of `ord` (R83, R140), with no limit of its own on the length: R7's 35090
is a fact about trees here, not a check (DESIGN CHOICE, log entry 19). -/
def tableText (ct : SymTab BitString) (ord : List Byte) : List Byte :=
  [chOpen] ++ joinComma (ord.map (fun s => tableEntry s (symGet ct s))) ++ [chClose]

/-! ### The serialised table, as read (R87, R145) -/

/-- An entry of a parsed table: its digits and its bit characters (R145). -/
abbrev RawEntry := List Byte × List Byte

/-- Where a reader of the grammar of R87 stands; each state carries the entries read so far, oldest first. -/
inductive ParseState where
  /-- before `{` -/
  | start
  /-- after `{` -/
  | opened
  /-- inside a key: its digits so far -/
  | key (es : List RawEntry) (digits : List Byte)
  /-- after a key's closing quote -/
  | colon (es : List RawEntry) (digits : List Byte)
  /-- after `:` -/
  | quote (es : List RawEntry) (digits : List Byte)
  /-- inside a code string: its characters so far -/
  | code (es : List RawEntry) (digits : List Byte) (bits : List Byte)
  /-- after an entry -/
  | entryEnd (es : List RawEntry)
  /-- after `,` -/
  | comma (es : List RawEntry)
  /-- after `}` -/
  | closed (es : List RawEntry)
  /-- no sentence of the grammar begins with what was read -/
  | bad
  deriving DecidableEq, Repr

/-- One byte of the table read. -/
def parseByte (st : ParseState) (b : Byte) : ParseState :=
  match st with
  | .start => if b = chOpen then .opened else .bad
  | .opened => if b = chClose then .closed [] else if b = chQuote then .key [] [] else .bad
  | .key es ds =>
    if isDigit b then .key es (ds ++ [b])
    else if b = chQuote ∧ ds ≠ [] then .colon es ds else .bad
  | .colon es ds => if b = chColon then .quote es ds else .bad
  | .quote es ds => if b = chQuote then .code es ds [] else .bad
  | .code es ds bs =>
    if b = 0x30 ∨ b = 0x31 then .code es ds (bs ++ [b])
    else if b = chQuote then .entryEnd (es ++ [(ds, bs)]) else .bad
  | .entryEnd es => if b = chComma then .comma es else if b = chClose then .closed es else .bad
  | .comma es => if b = chQuote then .key es [] else .bad
  | .closed _ => .bad
  | .bad => .bad

/-- The entries of a byte sequence that is, whole, a sentence of the grammar of R87. -/
def parseTable (t : List Byte) : Option (List RawEntry) :=
  match t.foldl parseByte .start with
  | .closed es => some es
  | _ => none

end Sys2Proof.Machine
end

