-- ==== Sys2Proof/Machine/Ops.lean ====
section
/-! DEFINITION. The named operations over the state: writing each element, raising a fault (spec/60_exceptions.md R175,
R183), completing a command (spec/30_encoding.md R74), reset (spec/10_state.md R46), and reading and ordering the node
arena (spec/41_tree.md R101 to R105). -/

namespace Sys2Proof.Machine

/-! ### Writing the elements of the state -/

/-- `IN <- v`. -/
def State.setIn (s : State) (v : List Byte) : State := { s with inBuf := v }

/-- `FREQ <- f ; ORD <- o`. -/
def State.setFreq (s : State) (f : SymTab Word) (o : List Byte) : State := { s with freq := f, ord := o }

/-- `NODE <- n ; PQ <- q`. -/
def State.setTree (s : State) (n : List Node) (q : List Nat) : State := { s with node := n, pq := q }

/-- `CT <- c ; CT_ORD <- o`. -/
def State.setTable (s : State) (c : SymTab BitString) (o : List Byte) : State := { s with ct := c, ctOrd := o }

/-- `BITS <- b`. -/
def State.setBits (s : State) (b : BitString) : State := { s with bits := b }

/-- `PAD <- p ; PAY <- v`; the two are always written together (R43). -/
def State.setPay (s : State) (p : BitVec 3) (v : List Byte) : State := { s with pad := p, pay := v }

/-- `OUT <- v`. -/
def State.setOut (s : State) (v : List Byte) : State := { s with out := v }

/-! ### Faults (R175, R183) -/

/-- A fault that is raised: its cause and the word for FINFO. -/
structure Raise where
  cause : Cause
  info : Word
  deriving DecidableEq, Repr

/-- `FAULT[7:0]` of a cause (R175). -/
def causeCode (c : Cause) : Byte :=
  match c with
  | .invalidInput => 1
  | .malformedContainer => 2
  | .lookupInconsistency => 3
  | .illegalCommand => 4
  | .capacity => 5
  | .sequence => 6

/-- `FAULT[7:0]`: 0 when no fault is recorded (R22, R175). -/
def faultCode (f : Option Cause) : Byte :=
  match f with
  | none => 0
  | some c => causeCode c

/-- `raise X(info)` applied to the state before the access: FAULT and FINFO set, DONE cleared, OUT emptied, nothing else
changed (R183). -/
def State.raise (s : State) (r : Raise) : State :=
  { s with fault := some r.cause, finfo := r.info, done := false, out := [] }

/-- FINFO of an index or a number (R175). -/
def infoOfNat (n : Nat) : Word := BitVec.ofNat 32 n

/-- `Capacity(k)` (R180). -/
def raiseCapacity (k : Nat) : Raise := { cause := .capacity, info := infoOfNat k }

/-- `LookupInconsistency(i)` (R178). -/
def raiseLookup (i : Nat) : Raise := { cause := .lookupInconsistency, info := infoOfNat i }

/-- `MalformedContainer(k)` (R177). -/
def raiseMalformed (k : Nat) : Raise := { cause := .malformedContainer, info := infoOfNat k }

/-! ### Reset (R46, R156, R200) -/

/-- Every element of the state tuple at its reset value; the parameters and what the host has still to do or has already
read are not part of the tuple. -/
def State.resetBlock (s : State) : State :=
  { State.reset with cfg := s.cfg, pending := s.pending, rdata := s.rdata }

/-! ### Running a command (R74, R160, R183) -/

/-- The state change of a command, or the fault it raises. -/
abbrev Stage := State → Except Raise State

/-- One stage after another, in the state the first left (R158, R159). -/
def andThen (f g : Stage) : Stage := fun s =>
  match f s with
  | .ok t => g t
  | .error r => .error r

/-- A command completes: `DONE <- 1`, `LASTOP <- op` (R74 step 3). -/
def State.complete (s : State) (op : Byte) : State := { s with done := true, lastop := op }

/-- A command other than RST: ignored while a fault is recorded (R74 step 1); completed (step 3); or faulted, with every
change it made discarded (R183). -/
def State.runCommand (s : State) (op : Byte) (body : Stage) : State :=
  match s.fault with
  | some _ => s
  | none =>
    match body s with
    | .ok t => t.complete op
    | .error r => s.raise r

/-! ### The node arena and the queue (R38, R39, R105) -/

/-- The frequency of a record. -/
def nodeFreq (n : Node) : Word :=
  match n with
  | .leaf _ f => f
  | .internal _ _ f => f

/-- `NODE[h].freq`; through a handle that names no record, a free value (log entry 4). -/
def freqAt (arena : List Node) (h : Nat) : Word :=
  match arena[h]? with
  | some n => nodeFreq n
  | none => Config.danglingFreq h

/-- `NODE[h] is Internal`. -/
def isInternalAt (arena : List Node) (h : Nat) : Bool :=
  match arena[h]? with
  | some (.internal _ _ _) => true
  | _ => false

/-- The symbol of a leaf. -/
def leafSym (n : Node) : Option Byte :=
  match n with
  | .leaf s _ => some s
  | .internal _ _ _ => none

/-- `(NODE[g].freq, g) < (NODE[h].freq, h)`, lexicographically (R39). -/
def queueBefore (arena : List Node) (g h : Nat) : Bool :=
  (freqAt arena g).toNat < (freqAt arena h).toNat ||
    ((freqAt arena g).toNat == (freqAt arena h).toNat && g < h)

/-- `insert(Q, h)`: `h` after every entry that comes before it and before every other entry (R105). -/
def queueInsert (arena : List Node) : List Nat → Nat → List Nat
  | [], h => [h]
  | g :: q, h => if queueBefore arena g h then g :: queueInsert arena q h else h :: g :: q

/-- Handles sorted ascending by `(NODE[h].freq, h)` (R103). -/
def queueSort (arena : List Node) (hs : List Nat) : List Nat :=
  hs.foldl (queueInsert arena) []

end Sys2Proof.Machine
end

