-- ==== Sys2Proof/Machine/Flags.lean ====
section
/-! DEFINITION. The status bits and the derived registers ROOT and STATUS (spec/10_state.md R18, R21, R33;
spec/41_tree.md R102). -/

namespace Sys2Proof.Machine

/-- TDONE, tree complete: `QLEN = 0 or (QLEN = 1 and NODE[PQ[0]] is Internal)` (R102). -/
def treeDone (arena : List Node) (q : List Nat) : Bool :=
  match q with
  | [] => true
  | [h] => isInternalAt arena h
  | _ => false

/-- ROOT: `PQ[0]` when `QLEN = 1` and that node is internal, else NONE (R33, R102). -/
def treeRoot (arena : List Node) (q : List Nat) : Option Nat :=
  match q with
  | [h] => if isInternalAt arena h then some h else none
  | _ => none

/-- STATUS.TDONE. -/
def State.tdone (s : State) : Bool := treeDone s.node s.pq

/-- STATUS.ERR: `FAULT != 0` (R21). -/
def State.err (s : State) : Bool := s.fault.isSome

/-- A bit of a word. -/
def bitAt (b : Bool) (k : Nat) : Word := if b then (1 : Word) <<< k else 0

/-- STATUS: BUSY (bit 0, always 0 here, R18), DONE (1), ERR (2), TDONE (3), LASTOP (15:8), the rest reserved (R21). -/
def State.statusWord (s : State) : Word :=
  bitAt s.done 1 ||| bitAt s.err 2 ||| bitAt s.tdone 3 ||| (s.lastop.setWidth 32 <<< 8)

/-- A handle as the host reads it: bits 8:0, `NONE = 0x1FF` (R7, R33, R60). -/
def handleWord (h : Option Nat) : Word :=
  match h with
  | some k => (BitVec.ofNat 9 k).setWidth 32
  | none => 0x1FF

end Sys2Proof.Machine
end

