-- ==== Sys2Proof/Machine/BitPack.lean ====
section
/-! DEFINITION. The bit packer and unpacker, commands PACK and UNPACK (spec/43_bitpack.md R130 to R134). -/

namespace Sys2Proof.Machine

/-- `p = (8 - (m mod 8)) mod 8` (R68, R130). -/
def padCount (m : Nat) : Nat := (8 - m % 8) % 8

/-- `BITS ++ 0^p`. -/
def padded (bits : BitString) : BitString := bits ++ List.replicate (padCount bits.length) false

/-- `BitPacker.pack`: PAD and PAY of a bit string (R130). -/
def packBits (bits : BitString) : BitVec 3 × List Byte :=
  (BitVec.ofNat 3 (padCount bits.length), chunks8 (padded bits))

/-- `BitUnpacker.unpack`: the bits of the payload less the last PAD of them, whatever their values (R132). -/
def unpackBits (pad : BitVec 3) (pay : List Byte) : BitString :=
  (pay.flatMap bits8).take (8 * pay.length - pad.toNat)

/-- The state change of PACK. -/
def packStage : Stage := fun s =>
  let r := packBits s.bits
  .ok (s.setPay r.1 r.2)

/-- The state change of UNPACK. -/
def unpackStage : Stage := fun s => .ok (s.setBits (unpackBits s.pad s.pay))

/-- PACK (R130). -/
def execPack (s : State) : Host.Outcome State Fault Refusal := .next (s.runCommand 0x40 packStage)

/-- UNPACK (R132). -/
def execUnpack (s : State) : Host.Outcome State Fault Refusal := .next (s.runCommand 0x41 unpackStage)

end Sys2Proof.Machine
end

