-- ==== Sys2Proof/Machine/CodeTable.lean ====
section
/-! DEFINITION. The code table encoder and decoder, commands APPLY and DECODE (spec/42_codetable.md R120 to R125). -/

namespace Sys2Proof.Machine

/-- The loop of APPLY from input index `i` on, with the bit string `b` built so far; `cap` is BUF_CAP (R120). -/
def applyScan (cap : Nat) (ct : SymTab BitString) : Nat → List Byte → BitString → Except Raise BitString
  | _, [], b => .ok b
  | i, s :: rest, b =>
    if (symGet ct s).length = 0 then .error (raiseLookup i)
    else if b.length + (symGet ct s).length > 8 * cap then .error (raiseCapacity 1)
    else applyScan cap ct (i + 1) rest (b ++ symGet ct s)

/-- `CodeTable.apply` (R120). -/
def applyCodes (cap : Nat) (ct : SymTab BitString) (data : List Byte) : Except Raise BitString :=
  applyScan cap ct 0 data []

/-- The reverse map: `rev(c) = s` iff `|CT[s]| > 0` and `CT[s] = c` (R123). -/
def revLookup (ct : SymTab BitString) (c : BitString) : Option Byte :=
  allSyms.find? (fun s => symGet ct s ≠ [] && symGet ct s == c)

/-- The loop of DECODE: the bits left, their index `k`, the output so far, the accumulated bits and where they start
(R122). -/
def decodeScan (cap : Nat) (ct : SymTab BitString) :
    BitString → Nat → List Byte → BitString → Nat → Except Raise (List Byte)
  | [], _, o, acc, start => if acc ≠ [] then .error (raiseLookup start) else .ok o
  | b :: rest, k, o, acc, start =>
    match revLookup ct (acc ++ [b]) with
    | some s =>
      if o.length = cap then .error (raiseCapacity 2)
      else decodeScan cap ct rest (k + 1) (o ++ [s]) [] (k + 1)
    | none => decodeScan cap ct rest (k + 1) o (acc ++ [b]) start

/-- The reverse-table lookup of R122. -/
def decodeBits (cap : Nat) (ct : SymTab BitString) (bits : BitString) : Except Raise (List Byte) :=
  decodeScan cap ct bits 0 [] [] 0

/-- The state change of APPLY. -/
def applyStage : Stage := fun s =>
  match applyCodes s.cfg.bufCap s.ct s.inBuf with
  | .ok b => .ok (s.setBits b)
  | .error r => .error r

/-- The state change of DECODE. -/
def decodeStage : Stage := fun s =>
  match decodeBits s.cfg.bufCap s.ct s.bits with
  | .ok o => .ok (s.setOut o)
  | .error r => .error r

/-- APPLY (R120). -/
def execApply (s : State) : Host.Outcome State Fault Refusal := .next (s.runCommand 0x30 applyStage)

/-- DECODE (R122). -/
def execDecode (s : State) : Host.Outcome State Fault Refusal := .next (s.runCommand 0x31 decodeStage)

end Sys2Proof.Machine
end

