-- ==== Sys2Proof/Machine/Container.lean ====
section
/-! DEFINITION. The container serialiser and deserialiser, commands SER and DESER (spec/44_container.md R140 to R150). -/

namespace Sys2Proof.Machine

/-! ### SER (R140) -/

/-- `C = [PAD] ++ PAY ++ T ++ dec(|T|)` (R80, R140). -/
def containerOf (pad : BitVec 3) (pay : List Byte) (ct : SymTab BitString) (ord : List Byte) : List Byte :=
  [pad.setWidth 8] ++ pay ++ tableText ct ord ++ dec (tableText ct ord).length

/-- The state change of SER, or `Capacity(2)` (R140).  DESIGN CHOICE (log entry 19): the only limit is BUF_CAP.  R7 and R141
put the longest table at 35090 bytes, which holds for the codes of a tree; a table that DESER loaded may have 256 codes of
255 bits (R146), and SER writes its 67475 bytes. -/
def serStage : Stage := fun s =>
  let c := containerOf s.pad s.pay s.ct s.ctOrd
  if c.length > s.cfg.bufCap then .error (raiseCapacity 2) else .ok (s.setOut c)

/-! ### DESER (R142 to R147) -/

/-- The largest index with `C[p] = 0x7D` (R143): `i` is the index of the head, `best` the last one found so far. -/
def lastBrace : List Byte → Nat → Option Nat → Option Nat
  | [], _, best => best
  | b :: rest, i, best => lastBrace rest (i + 1) (if b = chClose then some i else best)

/-- `C[i .. j]`, both ends inclusive, empty when `j < i` (R11). -/
def slice (c : List Byte) (i j : Nat) : List Byte := (c.take (j + 1)).drop i

/-- Step 1, the length field (R143): the pair `(p, L)`. -/
def lengthField (c : List Byte) : Except Raise (Nat × Nat) :=
  match lastBrace c 0 none with
  | none => .error (raiseMalformed 1)
  | some p =>
    let d := c.drop (p + 1)
    if d = [] then .error (raiseMalformed 2)
    else if d.all isDigit then .ok (p, undec d)
    else .error (raiseMalformed 3)

/-- Step 2, range (R144): the index `t` at which the table begins. -/
def tableStart (p len : Nat) : Except Raise Nat :=
  if len < 2 ∨ len > p then .error (raiseMalformed 4) else .ok (p + 1 - len)

/-- Step 3, syntax (R145). -/
def tableEntries (t : List Byte) : Except Raise (List RawEntry) :=
  match parseTable t with
  | some es => .ok es
  | none => .error (raiseMalformed 5)

/-- Step 4, the checks on each entry in order of appearance: key range, duplicate key, empty code, code length (R146);
`done` holds the entries accepted so far, oldest first. -/
def entryValues : List RawEntry → List (Byte × BitString) → Except Raise (List (Byte × BitString))
  | [], done => .ok done
  | e :: rest, done =>
    let k := undec e.1
    let c := codeOfStr e.2
    if k > 255 then .error (raiseMalformed 6)
    else if done.any (fun d => d.1.toNat == k) then .error (raiseMalformed 6)
    else if c.length = 0 then .error (raiseMalformed 6)
    else if c.length > 255 then .error (raiseMalformed 6)
    else entryValues rest (done ++ [(BitVec.ofNat 8 k, c)])

/-- No code of a list is a prefix of another (R146). -/
def codesPrefixFree : List BitString → Bool
  | [] => true
  | c :: rest => rest.all (fun d => !isprefix c d && !isprefix d c) && codesPrefixFree rest

/-- Step 4: the accepted entries as CT and CT_ORD, in order of appearance (R146). -/
def tableValues (es : List RawEntry) : Except Raise (SymTab BitString × List Byte) :=
  match entryValues es [] with
  | .error r => .error r
  | .ok vs =>
    if codesPrefixFree (vs.map (·.2)) then
      .ok (vs.foldl (fun t v => symSet t v.1 v.2) (Vector.replicate 256 []), vs.map (·.1))
    else .error (raiseMalformed 6)

/-- Step 5, padding (R147): the padding count as the three bits of PAD. -/
def padCheck (pad : Byte) (payload : List Byte) : Except Raise (BitVec 3) :=
  if pad.toNat > 7 then .error (raiseMalformed 7)
  else if pad.toNat > 0 ∧ payload = [] then .error (raiseMalformed 7)
  else .ok (pad.setWidth 3)

/-- What DESER commits (R142 step 6). -/
structure Parts where
  pad : BitVec 3
  pay : List Byte
  ct : SymTab BitString
  ctOrd : List Byte
  deriving DecidableEq, Repr

/-- The container taken apart, the checks in the order of R142. -/
def deserialise (c : List Byte) : Except Raise Parts :=
  match lengthField c with
  | .error r => .error r
  | .ok (p, len) =>
    match tableStart p len with
    | .error r => .error r
    | .ok t =>
      match tableEntries (slice c t p) with
      | .error r => .error r
      | .ok es =>
        match tableValues es with
        | .error r => .error r
        | .ok (ct, ord) =>
          let payload := slice c 1 (t - 1)
          match padCheck (c.headD 0) payload with
          | .error r => .error r
          | .ok pad => .ok { pad := pad, pay := payload, ct := ct, ctOrd := ord }

/-- The state change of DESER. -/
def deserStage : Stage := fun s =>
  match deserialise s.inBuf with
  | .ok d => .ok ((s.setPay d.pad d.pay).setTable d.ct d.ctOrd)
  | .error r => .error r

/-! ### The commands -/

/-- SER (R140).  From reset it writes `00 7B 7D 32`, as R140 and V20 state; R201's 'every other command completes with
empty results' does not hold of it (DEDUCED, log entry 18). -/
def execSer (s : State) : Host.Outcome State Fault Refusal := .next (s.runCommand 0x50 serStage)

/-- DESER (R142).  From reset, where IN is empty, it raises MalformedContainer(1), as R143, R148, R177 and V22 a state; R201's
'every other command completes with empty results' does not hold of it (DEDUCED, log entry 18). -/
def execDeser (s : State) : Host.Outcome State Fault Refusal := .next (s.runCommand 0x51 deserStage)

end Sys2Proof.Machine
end

