-- ==== Sys2Proof/Machine/Frequency.lean ====
section
/-! DEFINITION. The frequency counter, command FREQ (spec/40_freq.md R95 to R97). -/

namespace Sys2Proof.Machine

/-- The counters F and the first-occurrence list O while the scan runs over the rest of the input (R95). -/
def freqScan : List Byte → SymTab Word → List Byte → SymTab Word × List Byte
  | [], f, o => (f, o)
  | s :: rest, f, o =>
    freqScan rest (symSet f s (symGet f s + 1)) (if symGet f s = 0 then o ++ [s] else o)

/-- `FrequencyTable.build`: FREQ and ORD of an input (R95), for either value of `SYM_ORDER` (R96). -/
def freqBuild (order : SymOrder) (data : List Byte) : SymTab Word × List Byte :=
  let r := freqScan data (Vector.replicate 256 0) []
  match order with
  | .firstOccurrence => r
  | .ascending => (r.1, allSyms.filter (fun s => symGet r.1 s != 0))

/-- The state change of FREQ. -/
def freqStage : Stage := fun s =>
  let r := freqBuild s.cfg.symOrder s.inBuf
  .ok (s.setFreq r.1 r.2)

/-- FREQ (R95). -/
def execFreq (s : State) : Host.Outcome State Fault Refusal := .next (s.runCommand 0x10 freqStage)

end Sys2Proof.Machine
end

