-- ==== Sys2Proof/Machine/Tree.lean ====
section
/-! DEFINITION. The Huffman tree builder, commands TINIT, TMERGE, TBUILD, ASSIGN (spec/41_tree.md R100 to R113). -/

namespace Sys2Proof.Machine

/-! ### TINIT (R103) -/

/-- The leaves, one per entry of ORD: handle `i` is the leaf of `ORD[i]`. -/
def treeLeaves (freq : SymTab Word) (ord : List Byte) : List Node :=
  ord.map (fun s => Node.leaf s (symGet freq s))

/-- The initial queue: the handles `0 .. n-1` sorted by `(freq, handle)`. -/
def initialQueue (arena : List Node) : List Nat := queueSort arena (List.range arena.length)

/-- The state change of TINIT. -/
def tinitStage : Stage := fun s =>
  let leaves := treeLeaves s.freq s.ord
  .ok (s.setTree leaves (initialQueue leaves))

/-! ### TMERGE (R104) -/

/-- One step of the greedy merger: the four cases of R104 in their order.  A single queue entry that is not a leaf
changes nothing. -/
def mergeOnce (arena : List Node) (q : List Nat) : List Node × List Nat :=
  match q with
  | [] => (arena, q)
  | [a] =>
    match arena[a]? with
    | some (.leaf _ f) => (arena ++ [.internal a none f], [arena.length])
    | _ => (arena, q)
  | a :: b :: rest =>
    let grown := arena ++ [.internal a (some b) (freqAt arena a + freqAt arena b)]
    (grown, queueInsert grown rest arena.length)

/-- The state change of TMERGE. -/
def tmergeStage : Stage := fun s =>
  let r := mergeOnce s.node s.pq
  .ok (s.setTree r.1 r.2)

/-! ### ASSIGN (R106, R107) -/

/-- `codes(h, p)` of R107: the symbols of the leaves under `h` in left-to-right order, each with its path.  Children have
smaller handles (R45 (f)), so `fuel = NNODE` reaches every leaf. -/
def codesBelow : Nat → List Node → Nat → BitString → List (Byte × BitString)
  | 0, _, _, _ => []
  | fuel + 1, arena, h, p =>
    match arena[h]? with
    | some (.leaf s _) => [(s, p)]
    | some (.internal l r _) =>
      codesBelow fuel arena l (p ++ [false]) ++
        (match r with
         | some r => codesBelow fuel arena r (p ++ [true])
         | none => [])
    | none => []

/-- The path recorded for a symbol; a symbol with no leaf under the root has none. -/
def codeIn (codes : List (Byte × BitString)) (s : Byte) : BitString :=
  match codes.find? (fun e => e.1 == s) with
  | some e => e.2
  | none => []

/-- `C[s] <- path(ROOT, s)` for each symbol of a list, in order. -/
def assignCodes (codes : List (Byte × BitString)) (syms : List Byte) : SymTab BitString :=
  syms.foldl (fun c s => symSet c s (codeIn codes s)) (Vector.replicate 256 [])

/-- CT and CT_ORD from a complete tree: leaves by ascending handle (R106). -/
def assignTable (arena : List Node) (q : List Nat) : SymTab BitString × List Byte :=
  match treeRoot arena q with
  | none => (Vector.replicate 256 [], [])
  | some root =>
    let syms := arena.filterMap leafSym
    (assignCodes (codesBelow arena.length arena root []) syms, syms)

/-- The state change of ASSIGN, or `Sequence(0x23)` when the tree is unfinished (R106, R181). -/
def assignStage : Stage := fun s =>
  if treeDone s.node s.pq then
    let r := assignTable s.node s.pq
    .ok (s.setTable r.1 r.2)
  else .error { cause := .sequence, info := 0x23 }

/-! ### TBUILD (R108) -/

/-- `while not TDONE: TMERGE`, at most `fuel` times. -/
def mergeLoop : Nat → List Node → List Nat → List Node × List Nat
  | 0, arena, q => (arena, q)
  | fuel + 1, arena, q =>
    if treeDone arena q then (arena, q)
    else
      let r := mergeOnce arena q
      mergeLoop fuel r.1 r.2

/-- The merging loop as a state change.  From the queue of TINIT with `n = NSYM` entries the body runs 0, 1 or `n - 1`
times (R108), so `n` is bound enough. -/
def mergeLoopStage : Stage := fun s =>
  let r := mergeLoop s.ord.length s.node s.pq
  .ok (s.setTree r.1 r.2)

/-- The state change of TBUILD: `TINIT ; while not TDONE: TMERGE ; ASSIGN`. -/
def tbuildStage : Stage := andThen tinitStage (andThen mergeLoopStage assignStage)

/-! ### The commands -/

/-- TINIT (R103). -/
def execTinit (s : State) : Host.Outcome State Fault Refusal := .next (s.runCommand 0x20 tinitStage)

/-- TMERGE (R104). -/
def execTmerge (s : State) : Host.Outcome State Fault Refusal := .next (s.runCommand 0x21 tmergeStage)

/-- TBUILD (R108). -/
def execTbuild (s : State) : Host.Outcome State Fault Refusal := .next (s.runCommand 0x22 tbuildStage)

/-- ASSIGN (R106). -/
def execAssign (s : State) : Host.Outcome State Fault Refusal := .next (s.runCommand 0x23 assignStage)

end Sys2Proof.Machine
end

