-- ==== Sys2Proof/Machine/Facade.lean ====
section
/-! DEFINITION. The composite commands COMPRESS and DECOMPRESS (spec/45_facade.md R158 to R160). -/

namespace Sys2Proof.Machine

/-- `FREQ ; TBUILD ; APPLY ; PACK ; SER` (R158). -/
def compressStage : Stage :=
  andThen freqStage (andThen tbuildStage (andThen applyStage (andThen packStage serStage)))

/-- `DESER ; UNPACK ; DECODE` (R159). -/
def decompressStage : Stage := andThen deserStage (andThen unpackStage decodeStage)

/-- COMPRESS (R158): one command, one atomic step (R160). -/
def execCompress (s : State) : Host.Outcome State Fault Refusal := .next (s.runCommand 0x60 compressStage)

/-- DECOMPRESS (R159): one command, one atomic step (R160). -/
def execDecompress (s : State) : Host.Outcome State Fault Refusal := .next (s.runCommand 0x61 decompressStage)

end Sys2Proof.Machine
end

