-- ==== Sys2Proof/Machine/Housekeeping.lean ====
section
/-! DEFINITION. The housekeeping commands NOP, RST, INCLR (spec/45_facade.md R155 to R157). -/

namespace Sys2Proof.Machine

/-- NOP changes nothing but the completion flags (R155). -/
def nopStage : Stage := fun s => .ok s

/-- `IN <- []` (R157). -/
def inclrStage : Stage := fun s => .ok (s.setIn [])

/-- NOP (R155). -/
def execNop (s : State) : Host.Outcome State Fault Refusal := .next (s.runCommand 0x00 nopStage)

/-- RST (R156): the reset state, also while a fault is recorded (R74 step 1, R184); DONE and LASTOP become 0. -/
def execRst (s : State) : Host.Outcome State Fault Refusal := .next s.resetBlock

/-- INCLR (R157). -/
def execInclr (s : State) : Host.Outcome State Fault Refusal := .next (s.runCommand 0x02 inclrStage)

end Sys2Proof.Machine
end

