-- ==== Sys2Proof/Machine/Dispatch.lean ====
section
/-! DEFINITION. `exec`: one arm per command. -/

namespace Sys2Proof.Machine

def exec (i : Instr) (s : State) : Host.Outcome State Fault Refusal :=
  match i with
  | .nop => Sys2Proof.Machine.execNop s
  | .rst => Sys2Proof.Machine.execRst s
  | .inclr => Sys2Proof.Machine.execInclr s
  | .freq => Sys2Proof.Machine.execFreq s
  | .tinit => Sys2Proof.Machine.execTinit s
  | .tmerge => Sys2Proof.Machine.execTmerge s
  | .tbuild => Sys2Proof.Machine.execTbuild s
  | .assign => Sys2Proof.Machine.execAssign s
  | .apply => Sys2Proof.Machine.execApply s
  | .decode => Sys2Proof.Machine.execDecode s
  | .pack => Sys2Proof.Machine.execPack s
  | .unpack => Sys2Proof.Machine.execUnpack s
  | .ser => Sys2Proof.Machine.execSer s
  | .deser => Sys2Proof.Machine.execDeser s
  | .compress => Sys2Proof.Machine.execCompress s
  | .decompress => Sys2Proof.Machine.execDecompress s

end Sys2Proof.Machine
end

