-- ==== Sys2Proof/Machine/ReadPort.lean ====
section
/-! DEFINITION. What the host reads: the register map and the windows of the host port (spec/10_state.md R19 to R34,
spec/20_memory.md R55, R56, R58 to R60, R63). -/

namespace Sys2Proof.Machine

/-- A count as a register reads it. -/
def countWord (n : Nat) : Word := BitVec.ofNat 32 n

/-- A byte or symbol in bits 7:0. -/
def byteWord (b : Byte) : Word := b.setWidth 32

/-- Entry `i` of a byte sequence in bits 7:0, 0 beyond its end (R59). -/
def seqWord (l : List Byte) (i : Nat) : Word :=
  match l[i]? with
  | some b => byteWord b
  | none => 0

/-- The register at offset 0x00 to 0x0F (R19): CMD and IN_DATA read 0 (R20, R24), 0x0F is reserved. -/
def State.register (s : State) (a : Nat) : Word :=
  match a with
  | 0x01 => s.statusWord
  | 0x02 => byteWord (faultCode s.fault)
  | 0x03 => s.finfo
  | 0x05 => countWord s.inBuf.length
  | 0x06 => countWord s.out.length
  | 0x07 => s.pad.setWidth 32
  | 0x08 => countWord s.pay.length
  | 0x09 => countWord s.bits.length
  | 0x0A => countWord s.ord.length
  | 0x0B => countWord s.node.length
  | 0x0C => countWord s.pq.length
  | 0x0D => handleWord (treeRoot s.node s.pq)
  | 0x0E => countWord s.ctOrd.length
  | _ => 0

/-- The CTBITS word: bit `31 - k` is code bit `32 w + k`, 0 beyond the code's end (R59, D28). -/
def codeWord (c : BitString) (w : Nat) : Word :=
  BitVec.ofNat 32 (bitsVal ((List.range 32).map (fun k => c.getD (32 * w + k) false)))

/-- The kind word of a node record (R60). -/
def kindWord (n : Node) : Word :=
  match n with
  | .leaf s _ => 0x80000001 ||| (byteWord s <<< 8)
  | .internal _ _ _ => 0x80000000

/-- Words `f = 0..3` of the record with handle `h` (R60). -/
def nodeWord (arena : List Node) (h f : Nat) : Word :=
  match arena[h]? with
  | none => 0
  | some n =>
    match f with
    | 0 => kindWord n
    | 1 => nodeFreq n
    | 2 =>
      match n with
      | .leaf _ _ => handleWord none
      | .internal l _ _ => handleWord (some l)
    | _ =>
      match n with
      | .leaf _ _ => handleWord none
      | .internal _ r _ => handleWord r

/-- The symbol an index below 256 names. -/
def symOfNat (i : Nat) : Byte := BitVec.ofNat 8 i

/-- `MemRead(a, 1)`: registers, windows, and 0 at every reserved offset (R58, R59).  CT lengths are at most 255, so they
fit bits 7:0. -/
def State.readPort (s : State) (addr : Offset) : Word :=
  let a := addr.toNat
  if a < 0x10 then s.register a
  else if a < 0x100 then 0
  else if a < 0x200 then symGet s.freq (symOfNat (a - 0x100))
  else if a < 0x300 then seqWord s.ord (a - 0x200)
  else if a < 0x400 then byteWord (BitVec.ofNat 8 (symGet s.ct (symOfNat (a - 0x300))).length)
  else if a < 0x500 then seqWord s.ctOrd (a - 0x400)
  else if a < 0x800 then 0
  else if a < 0x1000 then codeWord (symGet s.ct (symOfNat ((a - 0x800) / 8))) ((a - 0x800) % 8)
  else if a < 0x17FC then nodeWord s.node ((a - 0x1000) / 4) ((a - 0x1000) % 4)
  else if a < 0x1800 then 0
  else if a < 0x1900 then
    match s.pq[a - 0x1800]? with
    | some h => handleWord (some h)
    | none => 0
  else if a < 0x1000000 then 0
  else if a < 0x2000000 then seqWord s.out (a - 0x1000000)
  else if a < 0x3000000 then seqWord s.pay (a - 0x2000000)
  else 0

end Sys2Proof.Machine
end

