-- ==== Sys2Proof/Machine/HostPort.lean ====
section
/-! DEFINITION. The host operations: H_CMD, H_PUSH, H_READ, H_READ_OUT, writes that are ignored, and hardware reset
(spec/20_memory.md R56, R58, R61 to R64; spec/30_encoding.md R74; spec/70_reset_and_hazards.md R200). -/

namespace Sys2Proof.Machine

/-- `MemWrite(0x00, 1, w)` (R62, R74).  Step 1 of R74 for a word that is a command is in `State.runCommand`; RST runs
whether or not a fault is recorded. -/
def State.writeCmd (s : State) (w : Word) : Host.Outcome State Fault Refusal :=
  match decode w with
  | .ok i => exec i s
  | .error _ =>
    match s.fault with
    | some _ => .next s
    | none => .next (s.raise { cause := .illegalCommand, info := w })

/-- `MemWrite(0x04, 1, w)`, H_PUSH: the checks in the order of R61. -/
def State.writeInData (s : State) (w : Word) : State :=
  match s.fault with
  | some _ => s
  | none =>
    if w.extractLsb' 8 24 ≠ 0 then s.raise { cause := .invalidInput, info := w }
    else if s.inBuf.length = s.cfg.bufCap then s.raise (raiseCapacity 0)
    else s.setIn (s.inBuf ++ [w.extractLsb' 0 8])

/-- `MemWrite(a, 1, w)`: CMD, IN_DATA, and every other offset ignored (R56, R58). -/
def State.writePort (s : State) (a : Offset) (w : Word) : Host.Outcome State Fault Refusal :=
  if a = 0x00 then s.writeCmd w
  else if a = 0x04 then .next (s.writeInData w)
  else .next s

/-- A host read: the word goes to the host, nothing else changes (R56). -/
def State.hostRead (s : State) (a : Offset) : State := { s with rdata := s.rdata ++ [s.readPort a] }

/-- One host operation. -/
def hostStep (op : HostOp) (s : State) : Host.Outcome State Fault Refusal :=
  match op with
  | .write a w => s.writePort a w
  | .read a => .next (s.hostRead a)
  | .reset => .next s.resetBlock

/-- `<MNEMONIC>` of the script notation: the write of its word to CMD (R76). -/
def scriptCmd (i : Instr) : HostOp := .write 0x00 (encode i)

/-- `PUSHW <word>`. -/
def scriptPushW (w : Word) : HostOp := .write 0x04 w

/-- `PUSH <byte>`. -/
def scriptPush (b : Byte) : HostOp := scriptPushW (b.setWidth 32)

/-- `CMDW <word>`. -/
def scriptCmdW (w : Word) : HostOp := .write 0x00 w

/-- `READ <REGISTER>`, by the register's offset; an `EXPECT` of a script expands to reads of this kind. -/
def scriptRead (a : Offset) : HostOp := .read a

/-- `LOAD <bytes>`: INCLR, then one PUSH per byte in order. -/
def scriptLoad (bs : List Byte) : List HostOp := scriptCmd .inclr :: bs.map scriptPush

/-- `READOUT` in a state: read OUT_LEN, then `OUT[0 .. OUT_LEN-1]` through the OUT window (R63, R76). -/
def State.scriptReadOut (s : State) : List HostOp :=
  .read 0x06 :: (List.range s.out.length).map (fun i => HostOp.read (BitVec.ofNat 26 (0x1000000 + i)))

end Sys2Proof.Machine
end

