-- ==== Sys2Proof/Machine/Step.lean ====
section
/-! DEFINITION. One step: the oldest pending host operation is performed (spec/20_memory.md R65); with none pending the
block does nothing on its own (spec/70_reset_and_hazards.md R210). -/

namespace Sys2Proof.Machine

/-- The next state. -/
def step (s : State) : Host.Outcome State Fault Refusal :=
  match s.pending with
  | [] => .next s
  | op :: rest => hostStep op { s with pending := rest }

/-- The state in which the next step runs the command whose word has the low `nbits` bits of `w`: the host's next access
is the write of that word to CMD (log entry 1). -/
def State.withFetchWord (s : State) (nbits w : Nat) : State :=
  { s with pending := .write 0x00 (BitVec.ofNat 32 (w % 2 ^ nbits)) :: s.pending }

end Sys2Proof.Machine
end

