-- ==== Sys2Proof/Safety.lean ====
section
/-! DEFINITION. What claims about HUFFCORE are stated in: the invariants of spec/10_state.md R45, keys and paths of the
tree (spec/41_tree.md R101, R107), the grammar of the table (spec/30_encoding.md R87), sequences of commands, and when a
run has gone wrong (spec/70_reset_and_hazards.md R210). -/

namespace Sys2Proof.Machine

/-! ### The tree (R101, R107) -/

/-- The children of a record. -/
def childrenOf (n : Node) : List Nat :=
  match n with
  | .leaf _ _ => []
  | .internal l r _ => l :: r.toList

/-- All children of all records. -/
def childList (arena : List Node) : List Nat := arena.flatMap childrenOf

/-- `NODE[h] is Leaf`. -/
def isLeafAt (arena : List Node) (h : Nat) : Bool :=
  match arena[h]? with
  | some (.leaf _ _) => true
  | _ => false

/-- The number of leaves of the arena. -/
def leafCount (arena : List Node) : Nat := (arena.filterMap leafSym).length

/-- The handles of the leaves under a node, in left-to-right order. -/
def leavesBelow : Nat → List Node → Nat → List Nat
  | 0, _, _ => []
  | fuel + 1, arena, h =>
    match arena[h]? with
    | none => []
    | some (.leaf _ _) => [h]
    | some (.internal l r _) =>
      leavesBelow fuel arena l ++
        (match r with
         | some c => leavesBelow fuel arena c
         | none => [])

/-- `key(h)` (R101). -/
def keyOf (arena : List Node) (h : Nat) : List Byte :=
  (leavesBelow arena.length arena h).filterMap (fun g => arena[g]?.bind leafSym)

/-- The sum of the frequencies of the leaves under a node, as a number (R45 (h)). -/
def leafTotal (arena : List Node) (h : Nat) : Nat :=
  ((leavesBelow arena.length arena h).map (fun g => (freqAt arena g).toNat)).sum

/-- `path(v, s)` of R107, by membership of `s` in the keys of the children; `fuel = NNODE` is enough. -/
def pathTo : Nat → List Node → Nat → Byte → BitString
  | 0, _, _, _ => []
  | fuel + 1, arena, v, s =>
    match arena[v]? with
    | some (.internal l r _) =>
      if s ∈ keyOf arena l then false :: pathTo fuel arena l s
      else
        match r with
        | some c => if s ∈ keyOf arena c then true :: pathTo fuel arena c s else []
        | none => []
    | _ => []

/-! ### The invariants of R45 -/

/-- R45 (a), and that the counts of ORD's symbols sum to at most BUF_CAP (R36). -/
abbrev FreqOk (s : State) : Prop :=
  s.ord.Nodup ∧ (∀ b : Byte, b ∈ s.ord ↔ symGet s.freq b ≠ 0) ∧
    (s.ord.map (fun b => (symGet s.freq b).toNat)).sum ≤ s.cfg.bufCap

/-- R45 (f) and (h) for the record with handle `h`: children have smaller handles, an absent right child only in the
one-symbol tree, and the frequency of an internal node is the sum over its leaves. -/
def nodeOkAt (arena : List Node) (h : Nat) : Bool :=
  match arena[h]? with
  | some (.internal l r f) =>
    decide (l < h) &&
      (match r with
       | some c => decide (c < h)
       | none => arena.length == 2 && h == 1 && isLeafAt arena 0) &&
      f.toNat == leafTotal arena h
  | _ => true

/-- R45 (e) to (i), the bounds of R38 and R39, and that the frequencies in the queue sum to at most `cap` (R38). -/
abbrev TreeOk (cap : Nat) (arena : List Node) (q : List Nat) : Prop :=
  q.Pairwise (fun g h => queueBefore arena g h = true) ∧
  q.Nodup ∧
  (∀ h ∈ q, h < arena.length ∧ h ∉ childList arena) ∧
  (∀ h < arena.length, h ∉ childList arena → h ∈ q) ∧
  (childList arena).Nodup ∧
  (∀ h < arena.length, nodeOkAt arena h = true) ∧
  (∀ h < arena.length, isLeafAt arena h = decide (h < leafCount arena)) ∧
  (arena.filterMap leafSym).Nodup ∧
  (q = [] ↔ arena = []) ∧
  arena.length ≤ 511 ∧ q.length ≤ 256 ∧
  (q.map (fun h => (freqAt arena h).toNat)).sum ≤ cap

/-- R45 (b) and (c). -/
abbrev TableOk (ct : SymTab BitString) (ord : List Byte) : Prop :=
  ord.Nodup ∧ (∀ b : Byte, b ∈ ord ↔ symGet ct b ≠ []) ∧ (∀ b : Byte, (symGet ct b).length ≤ 255) ∧
    (∀ b ∈ ord, ∀ c ∈ ord, b ≠ c → isprefix (symGet ct b) (symGet ct c) = false)

/-- R45 (c) said of CT alone: no code is a prefix of another symbol's code. -/
abbrev PrefixFree (ct : SymTab BitString) : Prop :=
  ∀ b c : Byte, symGet ct b ≠ [] → symGet ct c ≠ [] → b ≠ c → isprefix (symGet ct b) (symGet ct c) = false

/-- R45 (d); `PAD <= 7` is the width of the field. -/
abbrev PayOk (pad : BitVec 3) (pay : List Byte) : Prop := pad ≠ 0 → pay ≠ []

/-- R45 (j): every buffer within its capacity.  The buffers are sequences, which are their own canonical form. -/
def Memory.wf (s : State) : Bool :=
  decide (s.inBuf.length ≤ s.cfg.bufCap) && decide (s.pay.length ≤ s.cfg.bufCap) &&
    decide (s.out.length ≤ s.cfg.bufCap) && decide (s.bits.length ≤ 8 * s.cfg.bufCap)

/-- What R21, R23, R63 and R183 say of the fault registers and of LASTOP together: FINFO is 0 while no fault is recorded;
after a fault DONE is 0 and OUT is empty; LASTOP is 0 or the opcode of a command other than RST. -/
abbrev StatusOk (s : State) : Prop :=
  (s.fault = none → s.finfo = 0) ∧ (s.fault ≠ none → s.done = false ∧ s.out = []) ∧
    s.lastop ∈ ([.nop, .inclr, .freq, .tinit, .tmerge, .tbuild, .assign, .apply, .decode, .pack, .unpack, .ser, .deser,
      .compress, .decompress] : List Instr).map opcode

/-- The invariant of the machine (R45). -/
abbrev Inv (s : State) : Prop :=
  s.cfg.wellFormed = true ∧ FreqOk s ∧ TreeOk s.cfg.bufCap s.node s.pq ∧ TableOk s.ct s.ctOrd ∧ PayOk s.pad s.pay ∧
    Memory.wf s = true ∧ StatusOk s

/-- Every element of the state tuple has its reset value, and the registers read theirs (R19, R46). -/
abbrev AtReset (s : State) : Prop :=
  s.inBuf = [] ∧ (∀ b, symGet s.freq b = 0) ∧ s.ord = [] ∧ s.node = [] ∧ s.pq = [] ∧ (∀ b, symGet s.ct b = []) ∧
  s.ctOrd = [] ∧ s.bits = [] ∧ s.pad = 0 ∧ s.pay = [] ∧ s.out = [] ∧ s.fault = none ∧ s.finfo = 0 ∧ s.done = false ∧
  s.lastop = 0 ∧ s.readPort 0x01 = 0x00000008 ∧ s.readPort 0x0D = 0x000001FF ∧
  (∀ a ∈ ([0x02, 0x03, 0x05, 0x06, 0x07, 0x08, 0x09, 0x0A, 0x0B, 0x0C, 0x0E] : List Offset), s.readPort a = 0)

/-- A run has gone wrong when `FAULT != 0` at its end (R210). -/
def State.goneWrong (s : State) : Bool := s.fault.isSome

/-! ### Notions the statements use -/

/-- The symbols of an input in the order of their first occurrence (R37). -/
def firstOccurrences : List Byte → List Byte
  | [] => []
  | b :: rest => b :: (firstOccurrences rest).filter (fun c => c != b)

/-- An entry of a table as text: its digits and its bit characters between quotes (R87). -/
def rawEntryText (e : RawEntry) : List Byte :=
  [chQuote] ++ e.1 ++ [chQuote, chColon, chQuote] ++ e.2 ++ [chQuote]

/-- `digits` and `bits` of R87. -/
abbrev RawEntryOk (e : RawEntry) : Prop :=
  e.1 ≠ [] ∧ (∀ b ∈ e.1, isDigit b = true) ∧ (∀ b ∈ e.2, b = 0x30 ∨ b = 0x31)

/-- `t` is the sentence of the grammar of R87 whose entries are `es`. -/
abbrev TableSentence (t : List Byte) (es : List RawEntry) : Prop :=
  (∀ e ∈ es, RawEntryOk e) ∧ t = [chOpen] ++ joinComma (es.map rawEntryText) ++ [chClose]

/-- The value checks of R146 on a list of entries, all passed. -/
abbrev ValuesOk (es : List RawEntry) : Prop :=
  (∀ e ∈ es, undec e.1 ≤ 255 ∧ e.2 ≠ [] ∧ e.2.length ≤ 255) ∧
  (es.map (fun e => undec e.1)).Nodup ∧
  es.Pairwise (fun d e => isprefix (codeOfStr d.2) (codeOfStr e.2) = false ∧
    isprefix (codeOfStr e.2) (codeOfStr d.2) = false)

/-- A sequence of bytes as bits of codes: the concatenation of their codes. -/
def codesOf (ct : SymTab BitString) (data : List Byte) : BitString := data.flatMap (symGet ct)

/-- Commands executed one after another; `none` if one of them does not answer a next state. -/
def execSeq : List Instr → State → Option State
  | [], s => some s
  | i :: rest, s =>
    match exec i s with
    | .next t => execSeq rest t
    | .fault _ => none
    | .refused _ => none

end Sys2Proof.Machine
end

