-- ==== Sys2Proof/Certificates/Slice0/Obligations.lean ====
section
/-! DEFINITION. The statements for the provers, from the numbered rules of spec/.  Each docstring names the rule.
Wherever a statement gives a whole next state, its fields `pending` and `rdata` are the model's form of the host's side,
not elements of R15: an access leaves `pending` when it is performed (log entry 1), and commands and reset leave both
alone (log entries 1 and 7).  `cfg` is the configuration, fixed for an instance (R47). -/

open Sys2Proof Sys2Proof.Machine

/-! ### Decoding and the step -/

/-- R72: each of the sixteen words of the opcode map decodes to its command. -/
def Obligations.DecodeReadsTheOpcodeMap : Prop :=
  decode 0x00000000 = .ok .nop ∧ decode 0x00000001 = .ok .rst ∧ decode 0x00000002 = .ok .inclr ∧
  decode 0x00000010 = .ok .freq ∧ decode 0x00000020 = .ok .tinit ∧ decode 0x00000021 = .ok .tmerge ∧
  decode 0x00000022 = .ok .tbuild ∧ decode 0x00000023 = .ok .assign ∧ decode 0x00000030 = .ok .apply ∧
  decode 0x00000031 = .ok .decode ∧ decode 0x00000040 = .ok .pack ∧ decode 0x00000041 = .ok .unpack ∧
  decode 0x00000050 = .ok .ser ∧ decode 0x00000051 = .ok .deser ∧ decode 0x00000060 = .ok .compress ∧
  decode 0x00000061 = .ok .decompress

/-- R70, R72, R73: a word is a command exactly when it is that command's encoding. -/
def Obligations.DecodeAcceptsExactlyTheEncodings : Prop :=
  ∀ (w : Word) (i : Instr), decode w = .ok i ↔ w = encode i

/-- R62, R74: when the next host access writes a command's word to CMD, the step is `exec` of that command, in the state
from which that access has been taken.  Nothing else happens around it: there is no program counter (R17).  That the
accesses stand in `pending` is the model's form of the host (log entry 1). -/
def Obligations.StepRunsTheDecodedCommand : Prop :=
  ∀ (s : State) (w : Word) (rest : List HostOp) (i : Instr),
    s.pending = .write 0x00 w :: rest → decode w = .ok i → step s = exec i { s with pending := rest }

/-- R74, R210: every host operation is one total step; with no access pending the block does nothing on its own
(log entry 8). -/
def Obligations.StepAlwaysAnswersANextState : Prop :=
  ∀ s : State, (∃ t, step s = .next t) ∧ (s.pending = [] → step s = .next s)

/-- R179, R73: a word that encodes no command, written to CMD while no fault is recorded, raises IllegalCommand with
FINFO the word, and executes nothing. -/
def Obligations.IllegalWordRaisesIllegalCommand : Prop :=
  ∀ (s : State) (w : Word) (rest : List HostOp),
    s.pending = .write 0x00 w :: rest → s.fault = none → (∀ i, w ≠ encode i) →
      step s = .next { s with pending := rest, fault := some .illegalCommand, finfo := w, done := false, out := [] }

/-- R184: while a fault is recorded every IN_DATA write and every CMD write other than RST is ignored, illegal words
included, reads work as always, and RST and hardware reset put the block in the reset state.  That reset leaves the lists
`pending` and `rdata` alone, and that a read appends its word to `rdata`, is the model's choice and no rule of the spec
(log entries 1 and 7). -/
def Obligations.FaultedBlockIgnoresAllButReset : Prop :=
  ∀ (s : State) (rest : List HostOp), s.fault ≠ none →
    (∀ i : Instr, i ≠ .rst → exec i s = .next s) ∧
    (∀ w : Word, w ≠ 0x00000001 → s.pending = .write 0x00 w :: rest → step s = .next { s with pending := rest }) ∧
    (∀ w : Word, s.pending = .write 0x04 w :: rest → step s = .next { s with pending := rest }) ∧
    (∀ a : Offset, s.pending = .read a :: rest →
      step s = .next { s with pending := rest, rdata := s.rdata ++ [s.readPort a] }) ∧
    (s.pending = .write 0x00 0x00000001 :: rest ∨ s.pending = .reset :: rest →
      step s = .next { State.reset with cfg := s.cfg, pending := rest, rdata := s.rdata })

/-- R62, R74: with a command's word placed as the next host access, the step is `exec` of the command in the unchanged
state.  The placing is the model's own (log entry 1). -/
def Obligations.PlacedWordRunsItsCommand : Prop :=
  ∀ (s : State) (i : Instr), step (s.withFetchWord 32 (encode i).toNat) = exec i s

/-! ### Reset -/

/-- R46, R200: the reset state, and the state after hardware reset or RST from any state, has every element of the state
tuple at its reset value, and the registers read theirs.  That hardware reset takes its event from `pending` and leaves
the later accesses there is the model's choice and no rule of the spec (log entries 1 and 7). -/
def Obligations.ResetLeavesEverythingEmpty : Prop :=
  AtReset State.reset ∧
  ∀ s : State, (∃ t, exec .rst s = .next t ∧ AtReset t) ∧
    (∀ rest, s.pending = .reset :: rest → ∃ t, step s = .next t ∧ AtReset t ∧ t.pending = rest)

/-- R156: RST gives every element its reset value whatever the state, whether or not a fault is recorded, with DONE and
LASTOP 0, and hardware reset is the same change.  That the model's own fields `pending` and `rdata` stay is the
model's choice and no rule of the spec (log entries 1 and 7); the configuration stays by R47. -/
def Obligations.RstIsHardwareReset : Prop :=
  ∀ s : State,
    exec .rst s = .next { State.reset with cfg := s.cfg, pending := s.pending, rdata := s.rdata } ∧
    (∀ rest, s.pending = .reset :: rest → step s = exec .rst { s with pending := rest })

/-- R201, R140, R142, R148: the reset state is a legal start state for every command: COMPRESS and SER give the container
of the empty input, DECOMPRESS and DESER raise MalformedContainer(1), RST leaves the reset state, and every other command
completes with empty results.  R201, a derived rule, counts SER and DESER among the other commands; their own rules win:
R140 has SER write `00 7B 7D 32`, and R142 with R148 has DESER refuse an empty IN (log entry 18).  That the commands leave
`pending` and `rdata` alone is the model's choice (log entries 1 and 7). -/
def Obligations.EveryCommandIsDefinedAtReset : Prop :=
  ∀ p : Params, p.wellFormed = true →
    let s : State := { State.reset with cfg := p }
    exec .compress s = .next { s with out := [0x00, 0x7B, 0x7D, 0x32], done := true, lastop := 0x60 } ∧
    exec .decompress s = .next { s with fault := some .malformedContainer, finfo := 1 } ∧
    exec .deser s = .next { s with fault := some .malformedContainer, finfo := 1 } ∧
    exec .ser s = .next { s with out := [0x00, 0x7B, 0x7D, 0x32], done := true, lastop := 0x50 } ∧
    exec .rst s = .next s ∧
    (∀ i ∈ ([.nop, .inclr, .freq, .tinit, .tmerge, .tbuild, .assign, .apply, .decode, .pack, .unpack] : List Instr),
      exec i s = .next { s with done := true, lastop := opcode i })

/-! ### Faults and completion -/

/-- R183: a command or host write that faults changes only FAULT, FINFO, DONE and OUT; everything it did before is
discarded (R160 for the composites), and LASTOP is kept. -/
def Obligations.FaultDiscardsEveryChange : Prop :=
  (∀ (i : Instr) (s t : State), s.fault = none → exec i s = .next t → t.fault ≠ none →
    t = { s with fault := t.fault, finfo := t.finfo, done := false, out := [] }) ∧
  (∀ s t : State, s.fault = none → step s = .next t → t.fault ≠ none →
    t = { s with fault := t.fault, finfo := t.finfo, done := false, out := [], pending := s.pending.tail })

/-- R74 step 3: a command other than RST that completes sets DONE and puts its opcode into LASTOP, and leaves FAULT and
FINFO alone. -/
def Obligations.CompletionSetsDoneAndLastop : Prop :=
  ∀ (i : Instr) (s t : State), i ≠ .rst → s.fault = none → exec i s = .next t → t.fault = none →
    t.done = true ∧ t.lastop = opcode i ∧ t.finfo = s.finfo

/-- R168 (faults column), R175 to R181, R121: in a state with the invariant, ASSIGN raises only Sequence (0x23), APPLY only
LookupInconsistency and Capacity(1), DECODE only LookupInconsistency and Capacity(2), SER only Capacity(2), DESER only
MalformedContainer(1 to 7), COMPRESS only Capacity(1) and Capacity(2), DECOMPRESS only the faults of DESER and DECODE, and
every other command none. -/
def Obligations.EachCommandRaisesOnlyItsFaults : Prop :=
  ∀ (i : Instr) (s t : State) (c : Cause), Inv s → s.fault = none → exec i s = .next t → t.fault = some c →
    (i = .assign ∧ c = .sequence ∧ t.finfo = 0x23) ∨
    (i = .apply ∧ (c = .lookupInconsistency ∨ c = .capacity ∧ t.finfo = 1)) ∨
    (i = .decode ∧ (c = .lookupInconsistency ∨ c = .capacity ∧ t.finfo = 2)) ∨
    (i = .ser ∧ c = .capacity ∧ t.finfo = 2) ∨
    (i = .deser ∧ c = .malformedContainer ∧ 1 ≤ t.finfo.toNat ∧ t.finfo.toNat ≤ 7) ∨
    (i = .compress ∧ c = .capacity ∧ (t.finfo = 1 ∨ t.finfo = 2)) ∨
    (i = .decompress ∧ (c = .malformedContainer ∧ 1 ≤ t.finfo.toNat ∧ t.finfo.toNat ≤ 7 ∨
      c = .lookupInconsistency ∨ c = .capacity ∧ t.finfo = 2))

/-- R168: which elements each command leaves untouched, in every case in which it answers a next state.  OUT is also
emptied by a fault (R183).  The parameters `cfg` stay by R47.  That `pending` and `rdata` stay, at RST too, is the model's
choice and no rule of the spec (log entries 1 and 7). -/
def Obligations.CommandsLeaveOtherElementsUntouched : Prop :=
  ∀ (i : Instr) (s t : State), exec i s = .next t →
    (i ∉ ([.rst, .inclr] : List Instr) → t.inBuf = s.inBuf) ∧
    (i ∉ ([.rst, .freq, .compress] : List Instr) → t.freq = s.freq ∧ t.ord = s.ord) ∧
    (i ∉ ([.rst, .tinit, .tmerge, .tbuild, .compress] : List Instr) → t.node = s.node ∧ t.pq = s.pq) ∧
    (i ∉ ([.rst, .tbuild, .assign, .deser, .compress, .decompress] : List Instr) → t.ct = s.ct ∧ t.ctOrd = s.ctOrd) ∧
    (i ∉ ([.rst, .apply, .unpack, .compress, .decompress] : List Instr) → t.bits = s.bits) ∧
    (i ∉ ([.rst, .pack, .deser, .compress, .decompress] : List Instr) → t.pad = s.pad ∧ t.pay = s.pay) ∧
    (i ∉ ([.rst, .decode, .ser, .compress, .decompress] : List Instr) → t.fault = s.fault → t.out = s.out) ∧
    (i ≠ .rst → t.fault = s.fault → t.finfo = s.finfo) ∧
    t.cfg = s.cfg ∧ t.pending = s.pending ∧ t.rdata = s.rdata

/-- R168 seen through the host port: a command that completes and writes no element with a window leaves every word of
the windows, so every byte of OUT and PAY, reading as before. -/
def Obligations.UntouchedWindowsReadAsBefore : Prop :=
  ∀ (i : Instr) (s t : State), i ∈ ([.nop, .inclr, .apply, .unpack] : List Instr) → exec i s = .next t →
    t.fault = s.fault → ∀ a : Offset, 0x10 ≤ a.toNat → t.readPort a = s.readPort a

/-! ### The invariant -/

/-- R45 holds at reset, whatever the open value of BUF_CAP (log entry 2). -/
def Obligations.InvariantHoldsAtReset : Prop := Inv State.reset

/-- R45: every step keeps the invariant, from every state that has it.  The invariant is R45 (a) to (j) with the bounds of
R36, R38 and R39 and what R21, R23 and R183 say of the status registers. -/
def Obligations.StepKeepsTheInvariant : Prop :=
  ∀ s t : State, Inv s → step s = .next t → Inv t

/-- R45: every state reached from reset by host operations, of any number and kind and for any parameters, has the
invariant. -/
def Obligations.EveryReachableStateHasTheInvariant : Prop :=
  ∀ (p : Params) (ops : List HostOp) (n : Nat) (t : State), p.wellFormed = true →
    Sys2Proof.core.run n { State.reset with cfg := p, pending := ops } = .next t → Inv t

/-! ### Host operations -/

/-- R61: an IN_DATA write is ignored while a fault is recorded; else raises InvalidInput with FINFO the word when it is not a
byte; else raises Capacity(0) when IN is full; else appends the byte to IN and changes nothing else. -/
def Obligations.InDataWriteAppendsOrFaults : Prop :=
  ∀ (s : State) (w : Word) (rest : List HostOp), s.pending = .write 0x04 w :: rest →
    (s.fault ≠ none → step s = .next { s with pending := rest }) ∧
    (s.fault = none → 256 ≤ w.toNat →
      step s = .next { s with pending := rest, fault := some .invalidInput, finfo := w, done := false, out := [] }) ∧
    (s.fault = none → w.toNat < 256 → s.inBuf.length = s.cfg.bufCap →
      step s = .next { s with pending := rest, fault := some .capacity, finfo := 0, done := false, out := [] }) ∧
    (s.fault = none → w.toNat < 256 → s.inBuf.length ≠ s.cfg.bufCap →
      step s = .next { s with pending := rest, inBuf := s.inBuf ++ [BitVec.ofNat 8 w.toNat] })

/-- R56: a read changes nothing but hands the host the word, so that reading again gives the same word; a write to any offset
but CMD and IN_DATA is ignored.  That the word is appended to `rdata` is the model's choice (log entry 1). -/
def Obligations.ReadsAndOtherWritesHaveNoEffect : Prop :=
  ∀ (s : State) (a : Offset) (rest : List HostOp),
    (s.pending = .read a :: rest →
      step s = .next { s with pending := rest, rdata := s.rdata ++ [s.readPort a] }) ∧
    (∀ (b : Offset) (r : List Word), State.readPort { s with pending := rest, rdata := r } b = s.readPort b) ∧
    (∀ w : Word, s.pending = .write a w :: rest → a ≠ 0x00 → a ≠ 0x04 → step s = .next { s with pending := rest })

/-- R61, R76: the script operation LOAD, run from a state with no fault, leaves exactly its bytes in IN, and changes
nothing else but the completion flags of its INCLR. -/
def Obligations.LoadPutsItsBytesIntoIn : Prop :=
  ∀ (s : State) (bs : List Byte) (rest : List HostOp), s.fault = none → bs.length ≤ s.cfg.bufCap →
    s.pending = scriptLoad bs ++ rest →
      Sys2Proof.core.run (bs.length + 1) s =
        .next { s with inBuf := bs, done := true, lastop := 0x02, pending := rest }

/-- R21, R18, R102: STATUS bit 0 (BUSY) is 0, bit 1 is DONE, bit 2 is set when a fault is recorded, bit 3 is set when the
queue is empty or its only entry is an internal node, bits 15:8 are LASTOP and the reserved bits are 0. -/
def Obligations.StatusBitsReadAsSpecified : Prop :=
  ∀ s : State,
    (s.readPort 0x01).getLsbD 0 = false ∧
    (s.readPort 0x01).getLsbD 1 = s.done ∧
    (s.readPort 0x01).getLsbD 2 = decide (s.fault ≠ none) ∧
    ((s.readPort 0x01).getLsbD 3 = true ↔ s.pq = [] ∨ ∃ h, s.pq = [h] ∧ isInternalAt s.node h = true) ∧
    (s.readPort 0x01).extractLsb' 4 4 = 0 ∧
    (s.readPort 0x01).extractLsb' 8 8 = s.lastop ∧
    (s.readPort 0x01).extractLsb' 16 16 = 0

/-- R19, R22, R23, R25 to R34: CMD, IN_DATA and offset 0x0F read 0, FAULT the code of R175, FINFO its word, the length
registers the lengths of IN, OUT, PAY, BITS, ORD, NODE, PQ and CT_ORD, PAD the padding count, and ROOT the only queue
entry when it is an internal node and 0x1FF otherwise. -/
def Obligations.RegistersReadTheirElements : Prop :=
  ∀ s : State, Inv s →
    s.readPort 0x00 = 0 ∧ s.readPort 0x04 = 0 ∧ s.readPort 0x0F = 0 ∧
    (s.readPort 0x02).toNat = (match s.fault with
      | none => 0
      | some .invalidInput => 1
      | some .malformedContainer => 2
      | some .lookupInconsistency => 3
      | some .illegalCommand => 4
      | some .capacity => 5
      | some .sequence => 6) ∧
    s.readPort 0x03 = s.finfo ∧ (s.readPort 0x05).toNat = s.inBuf.length ∧ (s.readPort 0x06).toNat = s.out.length ∧
    (s.readPort 0x07).toNat = s.pad.toNat ∧ (s.readPort 0x08).toNat = s.pay.length ∧
    (s.readPort 0x09).toNat = s.bits.length ∧ (s.readPort 0x0A).toNat = s.ord.length ∧
    (s.readPort 0x0B).toNat = s.node.length ∧ (s.readPort 0x0C).toNat = s.pq.length ∧
    (∀ h, s.pq = [h] → isInternalAt s.node h = true → (s.readPort 0x0D).toNat = h) ∧
    ((∀ h, s.pq = [h] → isInternalAt s.node h = false) → s.readPort 0x0D = 0x1FF) ∧
    (s.readPort 0x0E).toNat = s.ctOrd.length

/-- R59, R58: each word of the FREQ, ORD, CTLEN, CT_ORD, CTBITS, PQ, OUT and PAY windows reads the element the table gives,
0 beyond its count, and every reserved offset reads 0. -/
def Obligations.WindowsReadTheirElements : Prop :=
  ∀ s : State, Inv s →
    (∀ b : Byte, s.readPort (0x100 + b.setWidth 26) = symGet s.freq b) ∧
    (∀ i < 256, (s.readPort (BitVec.ofNat 26 (0x200 + i))).toNat = (s.ord[i]?.map BitVec.toNat).getD 0) ∧
    (∀ b : Byte, (s.readPort (0x300 + b.setWidth 26)).toNat = (symGet s.ct b).length) ∧
    (∀ i < 256, (s.readPort (BitVec.ofNat 26 (0x400 + i))).toNat = (s.ctOrd[i]?.map BitVec.toNat).getD 0) ∧
    (∀ b : Byte, ∀ w < 8, ∀ k < 32,
      (s.readPort (BitVec.ofNat 26 (0x800 + 8 * b.toNat + w))).getLsbD (31 - k) =
        (symGet s.ct b).getD (32 * w + k) false) ∧
    (∀ i < 256, (s.readPort (BitVec.ofNat 26 (0x1800 + i))).toNat = s.pq.getD i 0) ∧
    (∀ i < 2 ^ 24, (s.readPort (BitVec.ofNat 26 (0x1000000 + i))).toNat = (s.out[i]?.map BitVec.toNat).getD 0) ∧
    (∀ j < 2 ^ 24, (s.readPort (BitVec.ofNat 26 (0x2000000 + j))).toNat = (s.pay[j]?.map BitVec.toNat).getD 0) ∧
    (∀ a : Offset, (0x10 ≤ a.toNat ∧ a.toNat ≤ 0xFF ∨ 0x500 ≤ a.toNat ∧ a.toNat ≤ 0x7FF ∨
      0x17FC ≤ a.toNat ∧ a.toNat ≤ 0x17FF ∨ 0x1900 ≤ a.toNat ∧ a.toNat ≤ 0xFFFFFF ∨ 0x3000000 ≤ a.toNat) →
      s.readPort a = 0)

/-- R60: the kind, freq, left and right words of a leaf and of an internal node, and 0 in all four for a handle that names no
record. -/
def Obligations.NodeWindowReadsTheRecord : Prop :=
  ∀ s : State, Inv s → ∀ h < 511,
    let word (f : Nat) : Word := s.readPort (BitVec.ofNat 26 (0x1000 + 4 * h + f))
    (s.node.length ≤ h → word 0 = 0 ∧ word 1 = 0 ∧ word 2 = 0 ∧ word 3 = 0) ∧
    (∀ b f, s.node[h]? = some (.leaf b f) →
      (word 0).toNat = 2 ^ 31 + 256 * b.toNat + 1 ∧ word 1 = f ∧ word 2 = 0x1FF ∧ word 3 = 0x1FF) ∧
    (∀ l r f, s.node[h]? = some (.internal l r f) →
      (word 0).toNat = 2 ^ 31 ∧ word 1 = f ∧ (word 2).toNat = l ∧ (word 3).toNat = r.getD 0x1FF)

/-! ### Housekeeping -/

/-- R155: NOP sets the completion flags and changes nothing else; while a fault is recorded it is ignored. -/
def Obligations.NopOnlyCompletes : Prop :=
  ∀ s : State, (s.fault = none → exec .nop s = .next { s with done := true, lastop := 0x00 }) ∧
    (s.fault ≠ none → exec .nop s = .next s)

/-- R157: INCLR empties IN and changes nothing else but the completion flags. -/
def Obligations.InclrEmptiesIn : Prop :=
  ∀ s : State, s.fault = none → exec .inclr s = .next { s with inBuf := [], done := true, lastop := 0x02 }

/-! ### Frequency counter -/

/-- R95: FREQ counts every symbol of IN, and ORD lists the symbols present in the order of `SYM_ORDER`; nothing else
changes. -/
def Obligations.FreqCountsTheInput : Prop :=
  ∀ s : State, s.cfg.wellFormed = true → Memory.wf s = true → s.fault = none →
    ∃ f o, exec .freq s = .next { s with freq := f, ord := o, done := true, lastop := 0x10 } ∧
      (∀ b : Byte, (symGet f b).toNat = s.inBuf.count b) ∧
      (s.cfg.symOrder = .firstOccurrence → o = firstOccurrences s.inBuf) ∧
      (s.cfg.symOrder = .ascending → o = allSyms.filter (fun b => s.inBuf.contains b))

/-- R97: after FREQ the counts sum to the length of IN, ORD has as many entries as there are symbols with a count, at most
256 and at most the length of IN, is empty exactly when IN is, and has no duplicates. -/
def Obligations.FreqCountsSumToTheInputLength : Prop :=
  ∀ s t : State, s.cfg.wellFormed = true → Memory.wf s = true → s.fault = none → exec .freq s = .next t →
    (allSyms.map (fun b => (symGet t.freq b).toNat)).sum = s.inBuf.length ∧
    t.ord.length = (allSyms.filter (fun b => symGet t.freq b != 0)).length ∧
    t.ord.length ≤ min 256 s.inBuf.length ∧ (t.ord = [] ↔ s.inBuf = []) ∧ t.ord.Nodup

/-! ### Tree builder -/

/-- R103: TINIT makes one leaf per entry of ORD, handle `i` for `ORD[i]`, and the queue of all of them sorted by
(frequency, handle); nothing else changes. -/
def Obligations.TinitBuildsLeavesAndQueue : Prop :=
  ∀ s : State, s.fault = none →
    ∃ q, exec .tinit s = .next { s with
        node := s.ord.map (fun b => Node.leaf b (symGet s.freq b)), pq := q, done := true, lastop := 0x20 } ∧
      q.Perm (List.range s.ord.length) ∧
      q.Pairwise (fun g h =>
        (freqAt (s.ord.map (fun b => Node.leaf b (symGet s.freq b))) g).toNat <
          (freqAt (s.ord.map (fun b => Node.leaf b (symGet s.freq b))) h).toNat ∨
        (freqAt (s.ord.map (fun b => Node.leaf b (symGet s.freq b))) g =
          freqAt (s.ord.map (fun b => Node.leaf b (symGet s.freq b))) h ∧ g < h))

/-- R104: the four cases of TMERGE.  A merged node goes after every entry of frequency less than or equal to its own
(R105). -/
def Obligations.TmergeMergesTheTwoLowest : Prop :=
  ∀ s : State, TreeOk s.cfg.bufCap s.node s.pq → s.fault = none →
    (s.pq = [] → exec .tmerge s = .next { s with done := true, lastop := 0x21 }) ∧
    (∀ a b f, s.pq = [a] → s.node[a]? = some (.leaf b f) →
      exec .tmerge s = .next { s with
        node := s.node ++ [.internal a none f], pq := [s.node.length], done := true, lastop := 0x21 }) ∧
    (∀ a l r f, s.pq = [a] → s.node[a]? = some (.internal l r f) →
      exec .tmerge s = .next { s with done := true, lastop := 0x21 }) ∧
    (∀ a b rest, s.pq = a :: b :: rest →
      exec .tmerge s = .next { s with
        node := s.node ++ [.internal a (some b) (freqAt s.node a + freqAt s.node b)],
        pq := rest.filter (fun g => (freqAt s.node g).toNat ≤ (freqAt s.node a + freqAt s.node b).toNat) ++
          [s.node.length] ++
          rest.filter (fun g => (freqAt s.node a + freqAt s.node b).toNat < (freqAt s.node g).toNat),
        done := true, lastop := 0x21 })

/-- R108: TBUILD completes from every state without a fault; the tree is complete, NNODE is 0, 2 or `2n - 1`, the leaves
are those of TINIT, CT_ORD is ORD, and only NODE, PQ, CT, CT_ORD and the completion flags change. -/
def Obligations.TbuildCompletesTheTree : Prop :=
  ∀ s : State, s.fault = none →
    ∃ n q c, exec .tbuild s = .next { s with
        node := n, pq := q, ct := c, ctOrd := s.ord, done := true, lastop := 0x22 } ∧
      treeDone n q = true ∧
      n.length = (if s.ord.length = 0 then 0 else if s.ord.length = 1 then 2 else 2 * s.ord.length - 1) ∧
      n.take s.ord.length = s.ord.map (fun b => Node.leaf b (symGet s.freq b))

/-- R108, R203: TBUILD has the effect of TINIT, enough TMERGEs and ASSIGN; more TMERGEs than needed are harmless. -/
def Obligations.TbuildIsItsStepCommands : Prop :=
  ∀ (s t : State) (k : Nat), s.fault = none → exec .tbuild s = .next t →
    (if s.ord.length = 1 then 1 else s.ord.length - 1) ≤ k →
      execSeq ([.tinit] ++ List.replicate k .tmerge ++ [.assign]) s = some { t with lastop := 0x23 }

/-- R106: ASSIGN on a complete tree gives each leaf symbol the path from the root to its leaf by R107 and every other
symbol no code, in leaf order; on an unfinished tree it raises Sequence with FINFO 0x23 (R181). -/
def Obligations.AssignRecordsThePaths : Prop :=
  ∀ s : State, TreeOk s.cfg.bufCap s.node s.pq → s.fault = none →
    (treeDone s.node s.pq = true →
      ∃ c, exec .assign s = .next { s with
          ct := c, ctOrd := s.node.filterMap leafSym, done := true, lastop := 0x23 } ∧
        (∀ b : Byte, b ∉ s.node.filterMap leafSym → symGet c b = []) ∧
        (∀ root, s.pq = [root] → ∀ b ∈ s.node.filterMap leafSym,
          symGet c b = pathTo s.node.length s.node root b)) ∧
    (treeDone s.node s.pq = false →
      exec .assign s = .next { s with fault := some .sequence, finfo := 0x23, done := false, out := [] })

/-- R109 (a), (b), (c): after TBUILD the table has an entry exactly for the symbols of ORD, every code has 1 to 255 bits,
and no code is a prefix of another. -/
def Obligations.TbuildGivesAPrefixFreeTable : Prop :=
  ∀ s t : State, s.cfg.wellFormed = true → FreqOk s → s.fault = none → exec .tbuild s = .next t →
    t.ctOrd = s.ord ∧ (∀ b : Byte, b ∈ s.ord ↔ symGet t.ct b ≠ []) ∧
    (∀ b ∈ s.ord, 1 ≤ (symGet t.ct b).length ∧ (symGet t.ct b).length ≤ 255) ∧
    (∀ b ∈ s.ord, ∀ c ∈ s.ord, b ≠ c → ¬ symGet t.ct b <+: symGet t.ct c)

/-- R109 (d): with two or more symbols every internal node has two children and every long enough bit string begins with
a code; with one symbol its code is `0`. -/
def Obligations.TbuildGivesACompleteCode : Prop :=
  ∀ s t : State, s.cfg.wellFormed = true → FreqOk s → s.fault = none → exec .tbuild s = .next t →
    (2 ≤ s.ord.length →
      (∀ l r f, Node.internal l r f ∈ t.node → r ≠ none) ∧
      (∀ w : BitString, 255 ≤ w.length → ∃ b ∈ t.ctOrd, symGet t.ct b <+: w)) ∧
    (∀ b, s.ord = [b] → symGet t.ct b = [false])

/-- R110: a symbol with strictly higher frequency never receives a strictly longer code than one with strictly lower
frequency. -/
def Obligations.HigherFrequencyNeverGetsALongerCode : Prop :=
  ∀ s t : State, s.cfg.wellFormed = true → FreqOk s → s.fault = none → exec .tbuild s = .next t →
    ∀ a ∈ s.ord, ∀ b ∈ s.ord, (symGet s.freq b).toNat < (symGet s.freq a).toNat →
      (symGet t.ct a).length ≤ (symGet t.ct b).length

/-! ### Code table -/

/-- R120: APPLY writes the concatenation of the codes when every input byte has one and they fit; otherwise it raises the
fault met at the smallest index, LookupInconsistency before Capacity. -/
def Obligations.ApplyEncodesTheInput : Prop :=
  ∀ s : State, s.fault = none →
    ((∀ b ∈ s.inBuf, symGet s.ct b ≠ []) → (codesOf s.ct s.inBuf).length ≤ 8 * s.cfg.bufCap →
      exec .apply s = .next { s with bits := codesOf s.ct s.inBuf, done := true, lastop := 0x30 }) ∧
    (∀ pre b post, s.inBuf = pre ++ b :: post → (∀ c ∈ pre, symGet s.ct c ≠ []) →
      (codesOf s.ct pre).length ≤ 8 * s.cfg.bufCap →
      (symGet s.ct b = [] →
        exec .apply s = .next { s with
          fault := some .lookupInconsistency, finfo := BitVec.ofNat 32 pre.length, done := false, out := [] }) ∧
      (symGet s.ct b ≠ [] → 8 * s.cfg.bufCap < (codesOf s.ct pre).length + (symGet s.ct b).length →
        exec .apply s = .next { s with fault := some .capacity, finfo := 1, done := false, out := [] }))

/-- R122: DECODE emits a symbol at each code met; a tail that no code matches raises LookupInconsistency with FINFO its
start, and a symbol that does not fit raises Capacity(2) at once. -/
def Obligations.DecodeRecoversTheSymbols : Prop :=
  ∀ (s : State) (x : List Byte), PrefixFree s.ct → s.fault = none → (∀ b ∈ x, symGet s.ct b ≠ []) →
    x.length ≤ s.cfg.bufCap →
    (s.bits = codesOf s.ct x → exec .decode s = .next { s with out := x, done := true, lastop := 0x31 }) ∧
    (∀ tail, s.bits = codesOf s.ct x ++ tail → tail ≠ [] →
      (∀ b, symGet s.ct b ≠ [] → ¬ symGet s.ct b <+: tail) →
      exec .decode s = .next { s with
        fault := some .lookupInconsistency, finfo := BitVec.ofNat 32 (codesOf s.ct x).length, done := false, out := [] }) ∧
    (∀ b rest, s.bits = codesOf s.ct x ++ symGet s.ct b ++ rest → symGet s.ct b ≠ [] → x.length = s.cfg.bufCap →
      exec .decode s = .next { s with fault := some .capacity, finfo := 2, done := false, out := [] })

/-- R124: DECODE inverts APPLY. -/
def Obligations.DecodeInvertsApply : Prop :=
  ∀ s t : State, PrefixFree s.ct → s.inBuf.length ≤ s.cfg.bufCap → s.fault = none →
    exec .apply s = .next t → t.fault = none →
      exec .decode t = .next { t with out := s.inBuf, lastop := 0x31 }

/-! ### Bit packer -/

/-- R130: PACK pads BITS on the right with zeros to a multiple of eight, most significant bit first; nothing else
changes. -/
def Obligations.PackPadsAndCutsIntoBytes : Prop :=
  ∀ s : State, s.fault = none →
    ∃ p v, exec .pack s = .next { s with pad := p, pay := v, done := true, lastop := 0x40 } ∧
      p.toNat = (8 - s.bits.length % 8) % 8 ∧
      8 * v.length = s.bits.length + p.toNat ∧
      (∀ j (hj : j < v.length), ∀ k < 8, v[j].getMsbD k = s.bits.getD (8 * j + k) false)

/-- R132: UNPACK strips PAD bits by count from the end of the payload's bits; nothing else changes. -/
def Obligations.UnpackStripsThePadding : Prop :=
  ∀ s : State, PayOk s.pad s.pay → s.fault = none →
    ∃ b, exec .unpack s = .next { s with bits := b, done := true, lastop := 0x41 } ∧
      b.length + s.pad.toNat = 8 * s.pay.length ∧
      (∀ j (hj : j < s.pay.length), ∀ k < 8, 8 * j + k < b.length → b.getD (8 * j + k) false = s.pay[j].getMsbD k)

/-- R133: UNPACK inverts PACK; PACK after UNPACK reproduces PAD, and PAY except that the stripped bits become 0. -/
def Obligations.UnpackInvertsPack : Prop :=
  ∀ s : State, s.fault = none →
    (∃ t, execSeq [.pack, .unpack] s = some t ∧ t.bits = s.bits ∧ t.fault = none) ∧
    (PayOk s.pad s.pay → ∃ t, execSeq [.unpack, .pack] s = some t ∧ t.pad = s.pad ∧
      t.pay.flatMap bits8 = (s.pay.flatMap bits8).take (8 * s.pay.length - s.pad.toNat) ++
        List.replicate s.pad.toNat false)

/-! ### Container -/

/-- R12: `undec(dec(n)) = n`, `dec` writes digits only, and no leading zero; `val8` and `bits8` are inverse. -/
def Obligations.NumeralsAndBytesRoundTrip : Prop :=
  (∀ n : Nat, undec (dec n) = n ∧ dec n ≠ [] ∧ (∀ b ∈ dec n, isDigit b = true) ∧ (n ≠ 0 → (dec n).head? ≠ some 0x30)) ∧
  (∀ v : Byte, val8 (bits8 v) = v) ∧ (∀ b : BitString, b.length = 8 → bits8 (val8 b) = b)

/-- R87, R145: the reader accepts exactly the sentences of the grammar and returns their entries. -/
def Obligations.ReaderAcceptsExactlyTheGrammar : Prop :=
  ∀ (t : List Byte) (es : List RawEntry), parseTable t = some es ↔ TableSentence t es

/-- R140: SER writes padding byte, payload, table and length when they fit OUT, and raises Capacity(2) otherwise; nothing
else changes. -/
def Obligations.SerWritesTheContainer : Prop :=
  ∀ s : State, s.fault = none →
    let text := [0x7B] ++ joinComma (s.ctOrd.map (fun b =>
      [0x22] ++ dec b.toNat ++ [0x22, 0x3A, 0x22] ++
        (symGet s.ct b).map (fun x => if x then (0x31 : Byte) else 0x30) ++ [0x22])) ++ [0x7D]
    let c := [BitVec.ofNat 8 s.pad.toNat] ++ s.pay ++ text ++ dec text.length
    (c.length ≤ s.cfg.bufCap → exec .ser s = .next { s with out := c, done := true, lastop := 0x50 }) ∧
    (s.cfg.bufCap < c.length →
      exec .ser s = .next { s with fault := some .capacity, finfo := 2, done := false, out := [] })

/-- R141: the last byte of the table is the only `}` in table and length field, the table has at least two bytes, and the
length field is its decimal length.  The upper bound of R141 is `SerTableLengthIsBounded`. -/
def Obligations.SerTableHasOneClosingBrace : Prop :=
  ∀ (ct : SymTab BitString) (ord : List Byte),
    ∃ body, tableText ct ord = body ++ [chClose] ∧ chClose ∉ body ∧ chClose ∉ dec (tableText ct ord).length ∧
      2 ≤ (tableText ct ord).length ∧ undec (dec (tableText ct ord).length) = (tableText ct ord).length

/-- R142: DESER takes apart every container whose table is a sentence of the grammar with good values, whose digits give
the table's length, and whose padding byte is in range; nothing but PAD, PAY, CT, CT_ORD and the completion flags
changes. -/
def Obligations.DeserTakesTheContainerApart : Prop :=
  ∀ (s : State) (pad : Byte) (pay text digits : List Byte) (es : List RawEntry),
    s.fault = none → s.inBuf = [pad] ++ pay ++ text ++ digits → TableSentence text es → ValuesOk es →
    digits ≠ [] → (∀ d ∈ digits, isDigit d = true) → undec digits = text.length →
    pad.toNat ≤ 7 → (pad ≠ 0 → pay ≠ []) →
    ∃ p c, exec .deser s = .next { s with
        pad := p, pay := pay, ct := c, ctOrd := es.map (fun e => BitVec.ofNat 8 (undec e.1)),
        done := true, lastop := 0x51 } ∧
      p.toNat = pad.toNat ∧
      (∀ e ∈ es, symGet c (BitVec.ofNat 8 (undec e.1)) = codeOfStr e.2) ∧
      (∀ b : Byte, (∀ e ∈ es, undec e.1 ≠ b.toNat) → symGet c b = [])

/-- R143 to R147, R182 (d): DESER raises MalformedContainer with 1 when IN has no `}`, 2 when nothing follows the last one, 3 for a byte
after the last `}` that is no digit, 4 for a length below 2 or above its index, 5 when the bytes of that length are no
sentence of the grammar, 6 when a value check fails, 7 when the padding byte is out of range; the first failing check is
reported, with the effect of R183. -/
def Obligations.DeserRefusesInOrder : Prop :=
  ∀ s : State, s.fault = none →
    let refused (k : Nat) : Prop := exec .deser s = .next { s with
      fault := some .malformedContainer, finfo := BitVec.ofNat 32 k, done := false, out := [] }
    (chClose ∉ s.inBuf → refused 1) ∧
    (∀ pre digits, s.inBuf = pre ++ [chClose] ++ digits → chClose ∉ digits →
      (digits = [] → refused 2) ∧
      ((∃ d ∈ digits, isDigit d = false) → refused 3) ∧
      (digits ≠ [] → (∀ d ∈ digits, isDigit d = true) →
        (undec digits < 2 ∨ pre.length < undec digits → refused 4) ∧
        (∀ front text, pre ++ [chClose] = front ++ text → text.length = undec digits → 2 ≤ undec digits → front ≠ [] →
          ((∀ es, ¬ TableSentence text es) → refused 5) ∧
          (∀ es, TableSentence text es →
            (¬ ValuesOk es → refused 6) ∧
            (ValuesOk es → ∀ pad pay, front = pad :: pay → (7 < pad.toNat ∨ pad ≠ 0 ∧ pay = []) → refused 7)))))

/-- R149: DESER on the container SER writes restores PAD, PAY, CT and CT_ORD; SER after DESER reproduces a container
whose keys and length field have no leading zeros. -/
def Obligations.DeserInvertsSer : Prop :=
  (∀ s t : State, TableOk s.ct s.ctOrd → PayOk s.pad s.pay → s.fault = none → exec .ser s = .next t → t.fault = none →
    exec .deser { t with inBuf := t.out } = .next { t with inBuf := t.out, lastop := 0x51 }) ∧
  (∀ (s t u : State) (pad : Byte) (pay text : List Byte) (es : List RawEntry), s.fault = none →
    s.inBuf = [pad] ++ pay ++ text ++ dec text.length → TableSentence text es → (∀ e ∈ es, e.1 = dec (undec e.1)) →
    exec .deser s = .next t → t.fault = none → exec .ser t = .next u → u.fault = none → u.out = s.inBuf)

/-! ### Facade -/

/-- R158, R160: COMPRESS has the effect of FREQ, TBUILD, APPLY, PACK, SER with its own LASTOP, or, when one of them
faults, only that fault. -/
def Obligations.CompressIsItsStages : Prop :=
  ∀ s t : State, s.fault = none → execSeq [.freq, .tbuild, .apply, .pack, .ser] s = some t →
    (t.fault = none → exec .compress s = .next { t with lastop := 0x60 }) ∧
    (t.fault ≠ none → exec .compress s = .next { s with fault := t.fault, finfo := t.finfo, done := false, out := [] })

/-- R158: COMPRESS completes whenever BUF_CAP leaves room (255 bits a byte, and a table of at most 67586 bytes, are upper
bounds), and leaves IN unchanged. -/
def Obligations.CompressCompletesWithRoom : Prop :=
  ∀ s : State, s.cfg.wellFormed = true → s.fault = none → 32 * s.inBuf.length + 67592 ≤ s.cfg.bufCap →
    ∃ t, exec .compress s = .next t ∧ t.fault = none ∧ t.done = true ∧ t.lastop = 0x60 ∧ t.inBuf = s.inBuf ∧
      t.bits = codesOf t.ct s.inBuf ∧ t.out = containerOf t.pad t.pay t.ct t.ctOrd

/-- R159, R160: DECOMPRESS has the effect of DESER, UNPACK, DECODE with its own LASTOP, or, when one of them faults, only
that fault. -/
def Obligations.DecompressIsItsStages : Prop :=
  ∀ s t : State, s.fault = none → execSeq [.deser, .unpack, .decode] s = some t →
    (t.fault = none → exec .decompress s = .next { t with lastop := 0x61 }) ∧
    (t.fault ≠ none → exec .decompress s = .next { s with fault := t.fault, finfo := t.finfo, done := false, out := [] })

/-- R159: DECOMPRESS of the container of a packed code sequence recovers the bytes. -/
def Obligations.DecompressRecoversPackedData : Prop :=
  ∀ (s : State) (ct : SymTab BitString) (ord x : List Byte),
    TableOk ct ord → (∀ b ∈ x, symGet ct b ≠ []) → x.length ≤ s.cfg.bufCap → s.fault = none →
    s.inBuf = containerOf (packBits (codesOf ct x)).1 (packBits (codesOf ct x)).2 ct ord →
      exec .decompress s = .next { s with
        pad := (packBits (codesOf ct x)).1, pay := (packBits (codesOf ct x)).2, ct := ct, ctOrd := ord,
        bits := codesOf ct x, out := x, done := true, lastop := 0x61 }

/-- R161: round trip.  For every byte sequence that fits IN: LOAD it, COMPRESS, and if no fault is recorded LOAD the
output, DECOMPRESS; the block then holds the byte sequence in OUT, without a fault.  The start state is the reset state
or any other state without a fault. -/
def Obligations.DecompressInvertsCompress : Prop :=
  ∀ (s t : State) (b : List Byte), s.cfg.wellFormed = true → s.fault = none → b.length ≤ s.cfg.bufCap →
    Sys2Proof.core.run (b.length + 2) { s with pending := scriptLoad b ++ [scriptCmd .compress] } = .next t →
    t.fault = none →
      ∃ u, Sys2Proof.core.run (t.out.length + 2) { t with pending := scriptLoad t.out ++ [scriptCmd .decompress] } =
          .next u ∧
        u.fault = none ∧ u.done = true ∧ u.out = b

/-- R162: OUT, FAULT and FINFO after COMPRESS depend on IN and the parameters alone. -/
def Obligations.CompressDependsOnInputAlone : Prop :=
  ∀ s s' t t' : State, s.inBuf = s'.inBuf → s.cfg = s'.cfg → s.fault = none → s'.fault = none → s.finfo = s'.finfo →
    exec .compress s = .next t → exec .compress s' = .next t' →
      t.out = t'.out ∧ t.fault = t'.fault ∧ t.finfo = t'.finfo

/-- R167, R185: the empty input compresses to the container `00 7B 7D 32`, which decompresses to the empty output, both
without a fault. -/
def Obligations.EmptyInputRoundTrips : Prop :=
  ∀ s : State, s.cfg.wellFormed = true → s.fault = none →
    (s.inBuf = [] → ∃ t, exec .compress s = .next t ∧ t.out = [0x00, 0x7B, 0x7D, 0x32] ∧ t.fault = none ∧ t.done = true ∧
      t.ctOrd = [] ∧ t.node = [] ∧ t.bits = [] ∧ t.pay = []) ∧
    (s.inBuf = [0x00, 0x7B, 0x7D, 0x32] → ∃ t, exec .decompress s = .next t ∧ t.out = [] ∧ t.fault = none ∧
      t.done = true)

/-- R7, R141: the table of a tree, which is what TBUILD leaves in CT, has at most 35090 bytes serialised.  That a prefix-free
table of any other origin, such as one DESER loaded (R146), may have up to 67475 is the model's choice and no rule of the
spec, since R7 and R141 give 35090 for every table (log entry 19). -/
def Obligations.SerTableLengthIsBounded : Prop :=
  (∀ s t : State, s.cfg.wellFormed = true → FreqOk s → s.fault = none → exec .tbuild s = .next t →
    (tableText t.ct t.ctOrd).length ≤ 35090) ∧
  (∀ (ct : SymTab BitString) (ord : List Byte), TableOk ct ord → (tableText ct ord).length ≤ 67475)
end

