-- ==== Sys2Proof/Laws/State.lean ====
section
/-! SUPPORT. One lemma per field per update of State, so that no proof unfolds a record update. -/

namespace Sys2Proof.Machine

/-! ### setIn -/

@[simp] theorem State.setIn_inBuf (s : State) (v : List Byte) : (s.setIn v).inBuf = v := rfl
@[simp] theorem State.setIn_freq (s : State) (v : List Byte) : (s.setIn v).freq = s.freq := rfl
@[simp] theorem State.setIn_ord (s : State) (v : List Byte) : (s.setIn v).ord = s.ord := rfl
@[simp] theorem State.setIn_node (s : State) (v : List Byte) : (s.setIn v).node = s.node := rfl
@[simp] theorem State.setIn_pq (s : State) (v : List Byte) : (s.setIn v).pq = s.pq := rfl
@[simp] theorem State.setIn_ct (s : State) (v : List Byte) : (s.setIn v).ct = s.ct := rfl
@[simp] theorem State.setIn_ctOrd (s : State) (v : List Byte) : (s.setIn v).ctOrd = s.ctOrd := rfl
@[simp] theorem State.setIn_bits (s : State) (v : List Byte) : (s.setIn v).bits = s.bits := rfl
@[simp] theorem State.setIn_pad (s : State) (v : List Byte) : (s.setIn v).pad = s.pad := rfl
@[simp] theorem State.setIn_pay (s : State) (v : List Byte) : (s.setIn v).pay = s.pay := rfl
@[simp] theorem State.setIn_out (s : State) (v : List Byte) : (s.setIn v).out = s.out := rfl
@[simp] theorem State.setIn_fault (s : State) (v : List Byte) : (s.setIn v).fault = s.fault := rfl
@[simp] theorem State.setIn_finfo (s : State) (v : List Byte) : (s.setIn v).finfo = s.finfo := rfl
@[simp] theorem State.setIn_done (s : State) (v : List Byte) : (s.setIn v).done = s.done := rfl
@[simp] theorem State.setIn_lastop (s : State) (v : List Byte) : (s.setIn v).lastop = s.lastop := rfl
@[simp] theorem State.setIn_cfg (s : State) (v : List Byte) : (s.setIn v).cfg = s.cfg := rfl
@[simp] theorem State.setIn_pending (s : State) (v : List Byte) : (s.setIn v).pending = s.pending := rfl
@[simp] theorem State.setIn_rdata (s : State) (v : List Byte) : (s.setIn v).rdata = s.rdata := rfl

/-! ### setFreq -/

@[simp] theorem State.setFreq_inBuf (s : State) (f : SymTab Word) (o : List Byte) : (s.setFreq f o).inBuf = s.inBuf := rfl
@[simp] theorem State.setFreq_freq (s : State) (f : SymTab Word) (o : List Byte) : (s.setFreq f o).freq = f := rfl
@[simp] theorem State.setFreq_ord (s : State) (f : SymTab Word) (o : List Byte) : (s.setFreq f o).ord = o := rfl
@[simp] theorem State.setFreq_node (s : State) (f : SymTab Word) (o : List Byte) : (s.setFreq f o).node = s.node := rfl
@[simp] theorem State.setFreq_pq (s : State) (f : SymTab Word) (o : List Byte) : (s.setFreq f o).pq = s.pq := rfl
@[simp] theorem State.setFreq_ct (s : State) (f : SymTab Word) (o : List Byte) : (s.setFreq f o).ct = s.ct := rfl
@[simp] theorem State.setFreq_ctOrd (s : State) (f : SymTab Word) (o : List Byte) : (s.setFreq f o).ctOrd = s.ctOrd := rfl
@[simp] theorem State.setFreq_bits (s : State) (f : SymTab Word) (o : List Byte) : (s.setFreq f o).bits = s.bits := rfl
@[simp] theorem State.setFreq_pad (s : State) (f : SymTab Word) (o : List Byte) : (s.setFreq f o).pad = s.pad := rfl
@[simp] theorem State.setFreq_pay (s : State) (f : SymTab Word) (o : List Byte) : (s.setFreq f o).pay = s.pay := rfl
@[simp] theorem State.setFreq_out (s : State) (f : SymTab Word) (o : List Byte) : (s.setFreq f o).out = s.out := rfl
@[simp] theorem State.setFreq_fault (s : State) (f : SymTab Word) (o : List Byte) : (s.setFreq f o).fault = s.fault := rfl
@[simp] theorem State.setFreq_finfo (s : State) (f : SymTab Word) (o : List Byte) : (s.setFreq f o).finfo = s.finfo := rfl
@[simp] theorem State.setFreq_done (s : State) (f : SymTab Word) (o : List Byte) : (s.setFreq f o).done = s.done := rfl
@[simp] theorem State.setFreq_lastop (s : State) (f : SymTab Word) (o : List Byte) : (s.setFreq f o).lastop = s.lastop := rfl
@[simp] theorem State.setFreq_cfg (s : State) (f : SymTab Word) (o : List Byte) : (s.setFreq f o).cfg = s.cfg := rfl
@[simp] theorem State.setFreq_pending (s : State) (f : SymTab Word) (o : List Byte) : (s.setFreq f o).pending = s.pending := rfl
@[simp] theorem State.setFreq_rdata (s : State) (f : SymTab Word) (o : List Byte) : (s.setFreq f o).rdata = s.rdata := rfl

/-! ### setTree -/

@[simp] theorem State.setTree_inBuf (s : State) (n : List Node) (q : List Nat) : (s.setTree n q).inBuf = s.inBuf := rfl
@[simp] theorem State.setTree_freq (s : State) (n : List Node) (q : List Nat) : (s.setTree n q).freq = s.freq := rfl
@[simp] theorem State.setTree_ord (s : State) (n : List Node) (q : List Nat) : (s.setTree n q).ord = s.ord := rfl
@[simp] theorem State.setTree_node (s : State) (n : List Node) (q : List Nat) : (s.setTree n q).node = n := rfl
@[simp] theorem State.setTree_pq (s : State) (n : List Node) (q : List Nat) : (s.setTree n q).pq = q := rfl
@[simp] theorem State.setTree_ct (s : State) (n : List Node) (q : List Nat) : (s.setTree n q).ct = s.ct := rfl
@[simp] theorem State.setTree_ctOrd (s : State) (n : List Node) (q : List Nat) : (s.setTree n q).ctOrd = s.ctOrd := rfl
@[simp] theorem State.setTree_bits (s : State) (n : List Node) (q : List Nat) : (s.setTree n q).bits = s.bits := rfl
@[simp] theorem State.setTree_pad (s : State) (n : List Node) (q : List Nat) : (s.setTree n q).pad = s.pad := rfl
@[simp] theorem State.setTree_pay (s : State) (n : List Node) (q : List Nat) : (s.setTree n q).pay = s.pay := rfl
@[simp] theorem State.setTree_out (s : State) (n : List Node) (q : List Nat) : (s.setTree n q).out = s.out := rfl
@[simp] theorem State.setTree_fault (s : State) (n : List Node) (q : List Nat) : (s.setTree n q).fault = s.fault := rfl
@[simp] theorem State.setTree_finfo (s : State) (n : List Node) (q : List Nat) : (s.setTree n q).finfo = s.finfo := rfl
@[simp] theorem State.setTree_done (s : State) (n : List Node) (q : List Nat) : (s.setTree n q).done = s.done := rfl
@[simp] theorem State.setTree_lastop (s : State) (n : List Node) (q : List Nat) : (s.setTree n q).lastop = s.lastop := rfl
@[simp] theorem State.setTree_cfg (s : State) (n : List Node) (q : List Nat) : (s.setTree n q).cfg = s.cfg := rfl
@[simp] theorem State.setTree_pending (s : State) (n : List Node) (q : List Nat) : (s.setTree n q).pending = s.pending := rfl
@[simp] theorem State.setTree_rdata (s : State) (n : List Node) (q : List Nat) : (s.setTree n q).rdata = s.rdata := rfl

/-! ### setTable -/

@[simp] theorem State.setTable_inBuf (s : State) (c : SymTab BitString) (o : List Byte) : (s.setTable c o).inBuf = s.inBuf := rfl
@[simp] theorem State.setTable_freq (s : State) (c : SymTab BitString) (o : List Byte) : (s.setTable c o).freq = s.freq := rfl
@[simp] theorem State.setTable_ord (s : State) (c : SymTab BitString) (o : List Byte) : (s.setTable c o).ord = s.ord := rfl
@[simp] theorem State.setTable_node (s : State) (c : SymTab BitString) (o : List Byte) : (s.setTable c o).node = s.node := rfl
@[simp] theorem State.setTable_pq (s : State) (c : SymTab BitString) (o : List Byte) : (s.setTable c o).pq = s.pq := rfl
@[simp] theorem State.setTable_ct (s : State) (c : SymTab BitString) (o : List Byte) : (s.setTable c o).ct = c := rfl
@[simp] theorem State.setTable_ctOrd (s : State) (c : SymTab BitString) (o : List Byte) : (s.setTable c o).ctOrd = o := rfl
@[simp] theorem State.setTable_bits (s : State) (c : SymTab BitString) (o : List Byte) : (s.setTable c o).bits = s.bits := rfl
@[simp] theorem State.setTable_pad (s : State) (c : SymTab BitString) (o : List Byte) : (s.setTable c o).pad = s.pad := rfl
@[simp] theorem State.setTable_pay (s : State) (c : SymTab BitString) (o : List Byte) : (s.setTable c o).pay = s.pay := rfl
@[simp] theorem State.setTable_out (s : State) (c : SymTab BitString) (o : List Byte) : (s.setTable c o).out = s.out := rfl
@[simp] theorem State.setTable_fault (s : State) (c : SymTab BitString) (o : List Byte) : (s.setTable c o).fault = s.fault := rfl
@[simp] theorem State.setTable_finfo (s : State) (c : SymTab BitString) (o : List Byte) : (s.setTable c o).finfo = s.finfo := rfl
@[simp] theorem State.setTable_done (s : State) (c : SymTab BitString) (o : List Byte) : (s.setTable c o).done = s.done := rfl
@[simp] theorem State.setTable_lastop (s : State) (c : SymTab BitString) (o : List Byte) : (s.setTable c o).lastop = s.lastop := rfl
@[simp] theorem State.setTable_cfg (s : State) (c : SymTab BitString) (o : List Byte) : (s.setTable c o).cfg = s.cfg := rfl
@[simp] theorem State.setTable_pending (s : State) (c : SymTab BitString) (o : List Byte) : (s.setTable c o).pending = s.pending := rfl
@[simp] theorem State.setTable_rdata (s : State) (c : SymTab BitString) (o : List Byte) : (s.setTable c o).rdata = s.rdata := rfl

/-! ### setBits -/

@[simp] theorem State.setBits_inBuf (s : State) (b : BitString) : (s.setBits b).inBuf = s.inBuf := rfl
@[simp] theorem State.setBits_freq (s : State) (b : BitString) : (s.setBits b).freq = s.freq := rfl
@[simp] theorem State.setBits_ord (s : State) (b : BitString) : (s.setBits b).ord = s.ord := rfl
@[simp] theorem State.setBits_node (s : State) (b : BitString) : (s.setBits b).node = s.node := rfl
@[simp] theorem State.setBits_pq (s : State) (b : BitString) : (s.setBits b).pq = s.pq := rfl
@[simp] theorem State.setBits_ct (s : State) (b : BitString) : (s.setBits b).ct = s.ct := rfl
@[simp] theorem State.setBits_ctOrd (s : State) (b : BitString) : (s.setBits b).ctOrd = s.ctOrd := rfl
@[simp] theorem State.setBits_bits (s : State) (b : BitString) : (s.setBits b).bits = b := rfl
@[simp] theorem State.setBits_pad (s : State) (b : BitString) : (s.setBits b).pad = s.pad := rfl
@[simp] theorem State.setBits_pay (s : State) (b : BitString) : (s.setBits b).pay = s.pay := rfl
@[simp] theorem State.setBits_out (s : State) (b : BitString) : (s.setBits b).out = s.out := rfl
@[simp] theorem State.setBits_fault (s : State) (b : BitString) : (s.setBits b).fault = s.fault := rfl
@[simp] theorem State.setBits_finfo (s : State) (b : BitString) : (s.setBits b).finfo = s.finfo := rfl
@[simp] theorem State.setBits_done (s : State) (b : BitString) : (s.setBits b).done = s.done := rfl
@[simp] theorem State.setBits_lastop (s : State) (b : BitString) : (s.setBits b).lastop = s.lastop := rfl
@[simp] theorem State.setBits_cfg (s : State) (b : BitString) : (s.setBits b).cfg = s.cfg := rfl
@[simp] theorem State.setBits_pending (s : State) (b : BitString) : (s.setBits b).pending = s.pending := rfl
@[simp] theorem State.setBits_rdata (s : State) (b : BitString) : (s.setBits b).rdata = s.rdata := rfl

/-! ### setPay -/

@[simp] theorem State.setPay_inBuf (s : State) (p : BitVec 3) (v : List Byte) : (s.setPay p v).inBuf = s.inBuf := rfl
@[simp] theorem State.setPay_freq (s : State) (p : BitVec 3) (v : List Byte) : (s.setPay p v).freq = s.freq := rfl
@[simp] theorem State.setPay_ord (s : State) (p : BitVec 3) (v : List Byte) : (s.setPay p v).ord = s.ord := rfl
@[simp] theorem State.setPay_node (s : State) (p : BitVec 3) (v : List Byte) : (s.setPay p v).node = s.node := rfl
@[simp] theorem State.setPay_pq (s : State) (p : BitVec 3) (v : List Byte) : (s.setPay p v).pq = s.pq := rfl
@[simp] theorem State.setPay_ct (s : State) (p : BitVec 3) (v : List Byte) : (s.setPay p v).ct = s.ct := rfl
@[simp] theorem State.setPay_ctOrd (s : State) (p : BitVec 3) (v : List Byte) : (s.setPay p v).ctOrd = s.ctOrd := rfl
@[simp] theorem State.setPay_bits (s : State) (p : BitVec 3) (v : List Byte) : (s.setPay p v).bits = s.bits := rfl
@[simp] theorem State.setPay_pad (s : State) (p : BitVec 3) (v : List Byte) : (s.setPay p v).pad = p := rfl
@[simp] theorem State.setPay_pay (s : State) (p : BitVec 3) (v : List Byte) : (s.setPay p v).pay = v := rfl
@[simp] theorem State.setPay_out (s : State) (p : BitVec 3) (v : List Byte) : (s.setPay p v).out = s.out := rfl
@[simp] theorem State.setPay_fault (s : State) (p : BitVec 3) (v : List Byte) : (s.setPay p v).fault = s.fault := rfl
@[simp] theorem State.setPay_finfo (s : State) (p : BitVec 3) (v : List Byte) : (s.setPay p v).finfo = s.finfo := rfl
@[simp] theorem State.setPay_done (s : State) (p : BitVec 3) (v : List Byte) : (s.setPay p v).done = s.done := rfl
@[simp] theorem State.setPay_lastop (s : State) (p : BitVec 3) (v : List Byte) : (s.setPay p v).lastop = s.lastop := rfl
@[simp] theorem State.setPay_cfg (s : State) (p : BitVec 3) (v : List Byte) : (s.setPay p v).cfg = s.cfg := rfl
@[simp] theorem State.setPay_pending (s : State) (p : BitVec 3) (v : List Byte) : (s.setPay p v).pending = s.pending := rfl
@[simp] theorem State.setPay_rdata (s : State) (p : BitVec 3) (v : List Byte) : (s.setPay p v).rdata = s.rdata := rfl

/-! ### setOut -/

@[simp] theorem State.setOut_inBuf (s : State) (v : List Byte) : (s.setOut v).inBuf = s.inBuf := rfl
@[simp] theorem State.setOut_freq (s : State) (v : List Byte) : (s.setOut v).freq = s.freq := rfl
@[simp] theorem State.setOut_ord (s : State) (v : List Byte) : (s.setOut v).ord = s.ord := rfl
@[simp] theorem State.setOut_node (s : State) (v : List Byte) : (s.setOut v).node = s.node := rfl
@[simp] theorem State.setOut_pq (s : State) (v : List Byte) : (s.setOut v).pq = s.pq := rfl
@[simp] theorem State.setOut_ct (s : State) (v : List Byte) : (s.setOut v).ct = s.ct := rfl
@[simp] theorem State.setOut_ctOrd (s : State) (v : List Byte) : (s.setOut v).ctOrd = s.ctOrd := rfl
@[simp] theorem State.setOut_bits (s : State) (v : List Byte) : (s.setOut v).bits = s.bits := rfl
@[simp] theorem State.setOut_pad (s : State) (v : List Byte) : (s.setOut v).pad = s.pad := rfl
@[simp] theorem State.setOut_pay (s : State) (v : List Byte) : (s.setOut v).pay = s.pay := rfl
@[simp] theorem State.setOut_out (s : State) (v : List Byte) : (s.setOut v).out = v := rfl
@[simp] theorem State.setOut_fault (s : State) (v : List Byte) : (s.setOut v).fault = s.fault := rfl
@[simp] theorem State.setOut_finfo (s : State) (v : List Byte) : (s.setOut v).finfo = s.finfo := rfl
@[simp] theorem State.setOut_done (s : State) (v : List Byte) : (s.setOut v).done = s.done := rfl
@[simp] theorem State.setOut_lastop (s : State) (v : List Byte) : (s.setOut v).lastop = s.lastop := rfl
@[simp] theorem State.setOut_cfg (s : State) (v : List Byte) : (s.setOut v).cfg = s.cfg := rfl
@[simp] theorem State.setOut_pending (s : State) (v : List Byte) : (s.setOut v).pending = s.pending := rfl
@[simp] theorem State.setOut_rdata (s : State) (v : List Byte) : (s.setOut v).rdata = s.rdata := rfl

/-! ### raise -/

@[simp] theorem State.raise_inBuf (s : State) (r : Raise) : (s.raise r).inBuf = s.inBuf := rfl
@[simp] theorem State.raise_freq (s : State) (r : Raise) : (s.raise r).freq = s.freq := rfl
@[simp] theorem State.raise_ord (s : State) (r : Raise) : (s.raise r).ord = s.ord := rfl
@[simp] theorem State.raise_node (s : State) (r : Raise) : (s.raise r).node = s.node := rfl
@[simp] theorem State.raise_pq (s : State) (r : Raise) : (s.raise r).pq = s.pq := rfl
@[simp] theorem State.raise_ct (s : State) (r : Raise) : (s.raise r).ct = s.ct := rfl
@[simp] theorem State.raise_ctOrd (s : State) (r : Raise) : (s.raise r).ctOrd = s.ctOrd := rfl
@[simp] theorem State.raise_bits (s : State) (r : Raise) : (s.raise r).bits = s.bits := rfl
@[simp] theorem State.raise_pad (s : State) (r : Raise) : (s.raise r).pad = s.pad := rfl
@[simp] theorem State.raise_pay (s : State) (r : Raise) : (s.raise r).pay = s.pay := rfl
@[simp] theorem State.raise_out (s : State) (r : Raise) : (s.raise r).out = [] := rfl
@[simp] theorem State.raise_fault (s : State) (r : Raise) : (s.raise r).fault = some r.cause := rfl
@[simp] theorem State.raise_finfo (s : State) (r : Raise) : (s.raise r).finfo = r.info := rfl
@[simp] theorem State.raise_done (s : State) (r : Raise) : (s.raise r).done = false := rfl
@[simp] theorem State.raise_lastop (s : State) (r : Raise) : (s.raise r).lastop = s.lastop := rfl
@[simp] theorem State.raise_cfg (s : State) (r : Raise) : (s.raise r).cfg = s.cfg := rfl
@[simp] theorem State.raise_pending (s : State) (r : Raise) : (s.raise r).pending = s.pending := rfl
@[simp] theorem State.raise_rdata (s : State) (r : Raise) : (s.raise r).rdata = s.rdata := rfl

/-! ### complete -/

@[simp] theorem State.complete_inBuf (s : State) (op : Byte) : (s.complete op).inBuf = s.inBuf := rfl
@[simp] theorem State.complete_freq (s : State) (op : Byte) : (s.complete op).freq = s.freq := rfl
@[simp] theorem State.complete_ord (s : State) (op : Byte) : (s.complete op).ord = s.ord := rfl
@[simp] theorem State.complete_node (s : State) (op : Byte) : (s.complete op).node = s.node := rfl
@[simp] theorem State.complete_pq (s : State) (op : Byte) : (s.complete op).pq = s.pq := rfl
@[simp] theorem State.complete_ct (s : State) (op : Byte) : (s.complete op).ct = s.ct := rfl
@[simp] theorem State.complete_ctOrd (s : State) (op : Byte) : (s.complete op).ctOrd = s.ctOrd := rfl
@[simp] theorem State.complete_bits (s : State) (op : Byte) : (s.complete op).bits = s.bits := rfl
@[simp] theorem State.complete_pad (s : State) (op : Byte) : (s.complete op).pad = s.pad := rfl
@[simp] theorem State.complete_pay (s : State) (op : Byte) : (s.complete op).pay = s.pay := rfl
@[simp] theorem State.complete_out (s : State) (op : Byte) : (s.complete op).out = s.out := rfl
@[simp] theorem State.complete_fault (s : State) (op : Byte) : (s.complete op).fault = s.fault := rfl
@[simp] theorem State.complete_finfo (s : State) (op : Byte) : (s.complete op).finfo = s.finfo := rfl
@[simp] theorem State.complete_done (s : State) (op : Byte) : (s.complete op).done = true := rfl
@[simp] theorem State.complete_lastop (s : State) (op : Byte) : (s.complete op).lastop = op := rfl
@[simp] theorem State.complete_cfg (s : State) (op : Byte) : (s.complete op).cfg = s.cfg := rfl
@[simp] theorem State.complete_pending (s : State) (op : Byte) : (s.complete op).pending = s.pending := rfl
@[simp] theorem State.complete_rdata (s : State) (op : Byte) : (s.complete op).rdata = s.rdata := rfl

/-! ### resetBlock -/

@[simp] theorem State.resetBlock_inBuf (s : State) : (s.resetBlock).inBuf = [] := rfl
@[simp] theorem State.resetBlock_freq (s : State) : (s.resetBlock).freq = Vector.replicate 256 0 := rfl
@[simp] theorem State.resetBlock_ord (s : State) : (s.resetBlock).ord = [] := rfl
@[simp] theorem State.resetBlock_node (s : State) : (s.resetBlock).node = [] := rfl
@[simp] theorem State.resetBlock_pq (s : State) : (s.resetBlock).pq = [] := rfl
@[simp] theorem State.resetBlock_ct (s : State) : (s.resetBlock).ct = Vector.replicate 256 [] := rfl
@[simp] theorem State.resetBlock_ctOrd (s : State) : (s.resetBlock).ctOrd = [] := rfl
@[simp] theorem State.resetBlock_bits (s : State) : (s.resetBlock).bits = [] := rfl
@[simp] theorem State.resetBlock_pad (s : State) : (s.resetBlock).pad = 0 := rfl
@[simp] theorem State.resetBlock_pay (s : State) : (s.resetBlock).pay = [] := rfl
@[simp] theorem State.resetBlock_out (s : State) : (s.resetBlock).out = [] := rfl
@[simp] theorem State.resetBlock_fault (s : State) : (s.resetBlock).fault = none := rfl
@[simp] theorem State.resetBlock_finfo (s : State) : (s.resetBlock).finfo = 0 := rfl
@[simp] theorem State.resetBlock_done (s : State) : (s.resetBlock).done = false := rfl
@[simp] theorem State.resetBlock_lastop (s : State) : (s.resetBlock).lastop = 0 := rfl
@[simp] theorem State.resetBlock_cfg (s : State) : (s.resetBlock).cfg = s.cfg := rfl
@[simp] theorem State.resetBlock_pending (s : State) : (s.resetBlock).pending = s.pending := rfl
@[simp] theorem State.resetBlock_rdata (s : State) : (s.resetBlock).rdata = s.rdata := rfl

/-! ### hostRead -/

@[simp] theorem State.hostRead_inBuf (s : State) (a : Offset) : (s.hostRead a).inBuf = s.inBuf := rfl
@[simp] theorem State.hostRead_freq (s : State) (a : Offset) : (s.hostRead a).freq = s.freq := rfl
@[simp] theorem State.hostRead_ord (s : State) (a : Offset) : (s.hostRead a).ord = s.ord := rfl
@[simp] theorem State.hostRead_node (s : State) (a : Offset) : (s.hostRead a).node = s.node := rfl
@[simp] theorem State.hostRead_pq (s : State) (a : Offset) : (s.hostRead a).pq = s.pq := rfl
@[simp] theorem State.hostRead_ct (s : State) (a : Offset) : (s.hostRead a).ct = s.ct := rfl
@[simp] theorem State.hostRead_ctOrd (s : State) (a : Offset) : (s.hostRead a).ctOrd = s.ctOrd := rfl
@[simp] theorem State.hostRead_bits (s : State) (a : Offset) : (s.hostRead a).bits = s.bits := rfl
@[simp] theorem State.hostRead_pad (s : State) (a : Offset) : (s.hostRead a).pad = s.pad := rfl
@[simp] theorem State.hostRead_pay (s : State) (a : Offset) : (s.hostRead a).pay = s.pay := rfl
@[simp] theorem State.hostRead_out (s : State) (a : Offset) : (s.hostRead a).out = s.out := rfl
@[simp] theorem State.hostRead_fault (s : State) (a : Offset) : (s.hostRead a).fault = s.fault := rfl
@[simp] theorem State.hostRead_finfo (s : State) (a : Offset) : (s.hostRead a).finfo = s.finfo := rfl
@[simp] theorem State.hostRead_done (s : State) (a : Offset) : (s.hostRead a).done = s.done := rfl
@[simp] theorem State.hostRead_lastop (s : State) (a : Offset) : (s.hostRead a).lastop = s.lastop := rfl
@[simp] theorem State.hostRead_cfg (s : State) (a : Offset) : (s.hostRead a).cfg = s.cfg := rfl
@[simp] theorem State.hostRead_pending (s : State) (a : Offset) : (s.hostRead a).pending = s.pending := rfl
@[simp] theorem State.hostRead_rdata (s : State) (a : Offset) : (s.hostRead a).rdata = s.rdata ++ [s.readPort a] := rfl

end Sys2Proof.Machine
end

