-- ==== Sys2Proof/Laws/Ops.lean ====
section
/-! SUPPORT. One lemma per shared operation: what it can answer. -/

namespace Sys2Proof.Machine

/-! ### Arrays indexed by symbol -/

@[simp] theorem symGet_replicate {α : Type} (v : α) (b : Byte) : symGet (Vector.replicate 256 v) b = v := by
  simp [symGet]

theorem symGet_symSet {α : Type} (t : SymTab α) (b c : Byte) (v : α) :
    symGet (symSet t b v) c = if b = c then v else symGet t c := by
  simp only [symGet, symSet, Vector.getElem_set, BitVec.toNat_inj]

@[simp] theorem symGet_symSet_same {α : Type} (t : SymTab α) (b : Byte) (v : α) : symGet (symSet t b v) b = v := by
  simp [symGet_symSet]

/-- Two arrays that agree at every symbol are equal. -/
theorem symTab_ext {α : Type} {t u : SymTab α} (h : ∀ b, symGet t b = symGet u b) : t = u := by
  apply Vector.ext
  intro i hi
  have hb := h (BitVec.ofNat 8 i)
  have hm : i % 256 = i := Nat.mod_eq_of_lt hi
  simpa [symGet, BitVec.toNat_ofNat, hm] using hb

theorem mem_allSyms (b : Byte) : b ∈ allSyms := by
  refine List.mem_map.mpr ⟨b.toNat, List.mem_range.mpr b.isLt, ?_⟩
  simp

/-! ### Running a command -/

theorem State.runCommand_of_fault {s : State} {op : Byte} {body : Stage} (h : s.fault ≠ none) :
    s.runCommand op body = s := by
  unfold State.runCommand
  cases hf : s.fault with
  | none => exact absurd hf h
  | some c => rfl

theorem State.runCommand_ok {s t : State} {op : Byte} {body : Stage} (h : s.fault = none) (hb : body s = .ok t) :
    s.runCommand op body = t.complete op := by
  simp [State.runCommand, h, hb]

theorem State.runCommand_error {s : State} {op : Byte} {body : Stage} {r : Raise} (h : s.fault = none)
    (hb : body s = .error r) : s.runCommand op body = s.raise r := by
  simp [State.runCommand, h, hb]

/-- All that running a command can do: nothing under a recorded fault, complete, or fault. -/
theorem State.runCommand_cases (s : State) (op : Byte) (body : Stage) :
    (s.fault ≠ none ∧ s.runCommand op body = s) ∨
    (∃ t, s.fault = none ∧ body s = .ok t ∧ s.runCommand op body = t.complete op) ∨
    (∃ r, s.fault = none ∧ body s = .error r ∧ s.runCommand op body = s.raise r) := by
  by_cases h : s.fault = none
  · cases hb : body s with
    | ok t => exact .inr (.inl ⟨t, h, rfl, runCommand_ok h hb⟩)
    | error r => exact .inr (.inr ⟨r, h, rfl, runCommand_error h hb⟩)
  · exact .inl ⟨h, runCommand_of_fault h⟩

theorem andThen_ok {f g : Stage} {s u : State} : andThen f g s = .ok u ↔ ∃ t, f s = .ok t ∧ g t = .ok u := by
  unfold andThen
  cases h : f s with
  | ok t => simp
  | error r => simp

theorem andThen_error {f g : Stage} {s : State} {r : Raise} :
    andThen f g s = .error r ↔ f s = .error r ∨ ∃ t, f s = .ok t ∧ g t = .error r := by
  unfold andThen
  cases h : f s with
  | ok t => simp
  | error e => simp

/-! ### The stages -/

theorem freqStage_eq (s : State) :
    freqStage s = .ok (s.setFreq (freqBuild s.cfg.symOrder s.inBuf).1 (freqBuild s.cfg.symOrder s.inBuf).2) := rfl

theorem tinitStage_eq (s : State) :
    tinitStage s = .ok (s.setTree (treeLeaves s.freq s.ord) (initialQueue (treeLeaves s.freq s.ord))) := rfl

theorem tmergeStage_eq (s : State) :
    tmergeStage s = .ok (s.setTree (mergeOnce s.node s.pq).1 (mergeOnce s.node s.pq).2) := rfl

theorem packStage_eq (s : State) : packStage s = .ok (s.setPay (packBits s.bits).1 (packBits s.bits).2) := rfl

theorem unpackStage_eq (s : State) : unpackStage s = .ok (s.setBits (unpackBits s.pad s.pay)) := rfl

/-- ASSIGN writes only the table, and only from a complete tree. -/
theorem assignStage_cases (s : State) :
    (treeDone s.node s.pq = true ∧
      assignStage s = .ok (s.setTable (assignTable s.node s.pq).1 (assignTable s.node s.pq).2)) ∨
    (treeDone s.node s.pq = false ∧ assignStage s = .error { cause := .sequence, info := 0x23 }) := by
  unfold assignStage
  cases h : treeDone s.node s.pq with
  | true => exact .inl ⟨rfl, rfl⟩
  | false => exact .inr ⟨rfl, by simp⟩

/-- TBUILD writes only the tree and the table. -/
theorem tbuildStage_ok {s t : State} (h : tbuildStage s = .ok t) :
    ∃ n q c o, t = (s.setTree n q).setTable c o := by
  obtain ⟨a, ha, h⟩ := andThen_ok.mp h
  obtain ⟨b, hb, h⟩ := andThen_ok.mp h
  cases ha
  cases hb
  rcases assignStage_cases _ with ⟨-, hc⟩ | ⟨-, hc⟩ <;> rw [hc] at h
  · cases h
    exact ⟨_, _, _, _, rfl⟩
  · cases h

theorem applyStage_ok {s t : State} (h : applyStage s = .ok t) :
    ∃ b, applyCodes s.cfg.bufCap s.ct s.inBuf = .ok b ∧ t = s.setBits b := by
  unfold applyStage at h
  split at h
  · cases h
    exact ⟨_, ‹_›, rfl⟩
  · cases h

theorem decodeStage_ok {s t : State} (h : decodeStage s = .ok t) :
    ∃ o, decodeBits s.cfg.bufCap s.ct s.bits = .ok o ∧ t = s.setOut o := by
  unfold decodeStage at h
  split at h
  · cases h
    exact ⟨_, ‹_›, rfl⟩
  · cases h

theorem serStage_ok {s t : State} (h : serStage s = .ok t) :
    (containerOf s.pad s.pay s.ct s.ctOrd).length ≤ s.cfg.bufCap ∧
      t = s.setOut (containerOf s.pad s.pay s.ct s.ctOrd) := by
  unfold serStage at h
  simp only at h
  split at h
  · cases h
  · cases h
    exact ⟨by omega, rfl⟩

theorem deserStage_ok {s t : State} (h : deserStage s = .ok t) :
    ∃ d, deserialise s.inBuf = .ok d ∧ t = (s.setPay d.pad d.pay).setTable d.ct d.ctOrd := by
  unfold deserStage at h
  split at h
  · cases h
    exact ⟨_, ‹_›, rfl⟩
  · cases h

/-! ### exec -/

/-- The body of each command but RST. -/
def bodyOf (i : Instr) : Stage :=
  match i with
  | .nop => nopStage
  | .rst => nopStage
  | .inclr => inclrStage
  | .freq => freqStage
  | .tinit => tinitStage
  | .tmerge => tmergeStage
  | .tbuild => tbuildStage
  | .assign => assignStage
  | .apply => applyStage
  | .decode => decodeStage
  | .pack => packStage
  | .unpack => unpackStage
  | .ser => serStage
  | .deser => deserStage
  | .compress => compressStage
  | .decompress => decompressStage

theorem exec_rst (s : State) : exec .rst s = .next s.resetBlock := rfl

/-- Every command but RST runs its body under its own opcode. -/
theorem exec_eq_runCommand {i : Instr} (h : i ≠ .rst) (s : State) :
    exec i s = .next (s.runCommand (opcode i) (bodyOf i)) := by
  cases i <;> first | rfl | exact absurd rfl h

/-- `exec` always answers a next state. -/
theorem exec_next (i : Instr) (s : State) : ∃ t, exec i s = .next t := by
  cases i <;> exact ⟨_, rfl⟩

/-! ### The queue -/

theorem queueInsert_perm (arena : List Node) (q : List Nat) (h : Nat) :
    (queueInsert arena q h).Perm (h :: q) := by
  induction q with
  | nil => exact .refl _
  | cons g q ih =>
    unfold queueInsert
    split
    · exact (ih.cons g).trans (.swap h g q)
    · exact .refl _

theorem mem_queueInsert {arena : List Node} {q : List Nat} {h g : Nat} :
    g ∈ queueInsert arena q h ↔ g = h ∨ g ∈ q := by
  rw [(queueInsert_perm arena q h).mem_iff, List.mem_cons]

theorem queueBefore_iff (arena : List Node) (g h : Nat) :
    queueBefore arena g h = true ↔
      (freqAt arena g).toNat < (freqAt arena h).toNat ∨ (freqAt arena g).toNat = (freqAt arena h).toNat ∧ g < h := by
  simp [queueBefore]

theorem queueBefore_trans {arena : List Node} {a b c : Nat} (h₁ : queueBefore arena a b = true)
    (h₂ : queueBefore arena b c = true) : queueBefore arena a c = true := by
  rw [queueBefore_iff] at *
  omega

/-- Of two different handles one comes before the other. -/
theorem queueBefore_total {arena : List Node} {a b : Nat} (hne : a ≠ b) (h : queueBefore arena a b = false) :
    queueBefore arena b a = true := by
  have : ¬ queueBefore arena a b = true := by simp [h]
  rw [queueBefore_iff] at *
  omega

/-- Inserting a new handle keeps a queue sorted. -/
theorem queueInsert_sorted {arena : List Node} {q : List Nat} {h : Nat} (hq : h ∉ q)
    (hs : q.Pairwise (fun a b => queueBefore arena a b = true)) :
    (queueInsert arena q h).Pairwise (fun a b => queueBefore arena a b = true) := by
  induction q with
  | nil => simp [queueInsert]
  | cons g q ih =>
    obtain ⟨hg, hs'⟩ := List.pairwise_cons.mp hs
    unfold queueInsert
    split
    · next hb =>
      refine List.pairwise_cons.mpr ⟨fun x hx => ?_, ih (fun hm => hq (.tail _ hm)) hs'⟩
      rcases mem_queueInsert.mp hx with rfl | hx
      · exact hb
      · exact hg x hx
    · next hb =>
      have hb' := queueBefore_total (arena := arena) (a := g) (b := h) (fun e => hq (e ▸ .head _)) (by simpa using hb)
      refine List.pairwise_cons.mpr ⟨fun x hx => ?_, hs⟩
      rcases List.mem_cons.mp hx with rfl | hx
      · exact hb'
      · exact queueBefore_trans hb' (hg x hx)

/-! ### The arena grown by one record -/

theorem freqAt_append_of_lt {arena ext : List Node} {h : Nat} (hh : h < arena.length) :
    freqAt (arena ++ ext) h = freqAt arena h := by
  simp [freqAt, List.getElem?_append_left hh]

theorem freqAt_append_last (arena : List Node) (n : Node) : freqAt (arena ++ [n]) arena.length = nodeFreq n := by
  simp [freqAt]

theorem childList_append (arena : List Node) (n : Node) :
    childList (arena ++ [n]) = childList arena ++ childrenOf n := by
  simp [childList]

/-! ### The serialised table -/

theorem joinComma_length (l : List (List Byte)) :
    (joinComma l).length = (l.map List.length).sum + (l.length - 1) := by
  fun_induction joinComma l with
  | case1 => rfl
  | case2 => simp
  | case3 e es h ih =>
    cases es with
    | nil => exact absurd rfl h
    | cons => simp_all; omega

/-- R83, R140: two braces, the commas between entries, and per entry five punctuation bytes, the key and the code. -/
theorem tableText_length (ct : SymTab BitString) (ord : List Byte) :
    (tableText ct ord).length =
      2 + (ord.map (fun b => 5 + (dec b.toNat).length + (symGet ct b).length)).sum + (ord.length - 1) := by
  have h : List.length ∘ (fun b => tableEntry b (symGet ct b)) =
      fun b => 5 + (dec b.toNat).length + (symGet ct b).length := by
    funext b; simp [tableEntry, codestr]; omega
  simp [tableText, joinComma_length, h]; omega

end Sys2Proof.Machine
end

