-- ==== Sys2Proof/Laws/Memory.lean ====
section
/-! SUPPORT. Every operation that writes a buffer keeps it within its capacity (R45 (j)). -/

namespace Sys2Proof.Machine

theorem memory_wf_iff (s : State) :
    Memory.wf s = true ↔ s.inBuf.length ≤ s.cfg.bufCap ∧ s.pay.length ≤ s.cfg.bufCap ∧
      s.out.length ≤ s.cfg.bufCap ∧ s.bits.length ≤ 8 * s.cfg.bufCap := by
  simp [Memory.wf, and_assoc]

theorem memory_wf_reset : Memory.wf State.reset = true := by
  simp [memory_wf_iff, State.reset]

theorem memory_wf_resetBlock (s : State) : Memory.wf s.resetBlock = true := by
  simp [memory_wf_iff]

theorem memory_wf_raise {s : State} (h : Memory.wf s = true) (r : Raise) : Memory.wf (s.raise r) = true := by
  rw [memory_wf_iff] at *
  simpa using ⟨h.1, h.2.1, h.2.2.2⟩

theorem memory_wf_complete {s : State} (h : Memory.wf s = true) (op : Byte) : Memory.wf (s.complete op) = true := h

theorem memory_wf_setIn {s : State} (h : Memory.wf s = true) {v : List Byte} (hv : v.length ≤ s.cfg.bufCap) :
    Memory.wf (s.setIn v) = true := by
  rw [memory_wf_iff] at *
  exact ⟨hv, h.2⟩

theorem memory_wf_setPay {s : State} (h : Memory.wf s = true) (p : BitVec 3) {v : List Byte}
    (hv : v.length ≤ s.cfg.bufCap) : Memory.wf (s.setPay p v) = true := by
  rw [memory_wf_iff] at *
  exact ⟨h.1, hv, h.2.2⟩

theorem memory_wf_setOut {s : State} (h : Memory.wf s = true) {v : List Byte} (hv : v.length ≤ s.cfg.bufCap) :
    Memory.wf (s.setOut v) = true := by
  rw [memory_wf_iff] at *
  exact ⟨h.1, h.2.1, hv, h.2.2.2⟩

theorem memory_wf_setBits {s : State} (h : Memory.wf s = true) {b : BitString} (hb : b.length ≤ 8 * s.cfg.bufCap) :
    Memory.wf (s.setBits b) = true := by
  rw [memory_wf_iff] at *
  exact ⟨h.1, h.2.1, h.2.2.1, hb⟩

/-- H_PUSH never overfills IN (R61). -/
theorem memory_wf_writeInData {s : State} (h : Memory.wf s = true) (w : Word) : Memory.wf (s.writeInData w) = true := by
  unfold State.writeInData
  split
  · exact h
  · split
    · exact memory_wf_raise h _
    · split
      · exact memory_wf_raise h _
      · next hne =>
        have := ((memory_wf_iff s).mp h).1
        exact memory_wf_setIn h (by simp; omega)

/-- APPLY never overfills BITS (R120). -/
theorem applyScan_length {cap : Nat} {ct : SymTab BitString} {data : List Byte} {i : Nat} {b r : BitString}
    (h : applyScan cap ct i data b = .ok r) (hb : b.length ≤ 8 * cap) : r.length ≤ 8 * cap := by
  induction data generalizing i b with
  | nil => cases h; exact hb
  | cons s rest ih =>
    simp only [applyScan] at h
    split at h
    · cases h
    · split at h
      · cases h
      · exact ih h (by simp; omega)

/-- DECODE never overfills OUT (R122). -/
theorem decodeScan_length {cap : Nat} {ct : SymTab BitString} {bits acc : BitString} {k start : Nat} {o r : List Byte}
    (h : decodeScan cap ct bits k o acc start = .ok r) (ho : o.length ≤ cap) : r.length ≤ cap := by
  induction bits generalizing k o acc start with
  | nil =>
    simp only [decodeScan] at h
    split at h
    · cases h
    · cases h; exact ho
  | cons b rest ih =>
    simp only [decodeScan] at h
    split at h
    · split at h
      · cases h
      · exact ih h (by simp; omega)
    · exact ih h ho

/-- A chunk of eight bits is one byte. -/
theorem chunks8_length (b : BitString) : (chunks8 b).length = b.length / 8 := by
  induction b using chunks8.induct with
  | case1 a b c d e f g h rest ih => simp only [chunks8, List.length_cons, ih]; omega
  | case2 b hb =>
    have hlt : b.length < 8 := by
      rcases b with _ | ⟨a, _ | ⟨b, _ | ⟨c, _ | ⟨d, _ | ⟨e, _ | ⟨f, _ | ⟨g, _ | ⟨h, rest⟩⟩⟩⟩⟩⟩⟩⟩
      all_goals first
        | (simp; done)
        | exact absurd rfl (hb _ _ _ _ _ _ _ _ _)
    rw [chunks8]
    · simp; omega
    · exact hb

end Sys2Proof.Machine
end

