-- ==== Sys2Proof/Laws/PerInstr.lean ====
section
/-! SUPPORT. The statement family RoundTrip, made per instruction: what R70 and R72 say of each command's word. -/

namespace Sys2Proof.Laws.RoundTrip

/-- A command is well formed, its word has `rsv = 0` and its opcode in bits 7:0 (R70, R72), and it decodes to the command. -/
def Statement (i : Instr) : Prop :=
  i.wellFormed = true ∧ rsvField (encode i) = 0 ∧ opField (encode i) = opcode i ∧ decode (encode i) = .ok i

theorem nop : Statement .nop := ⟨rfl, rfl, rfl, rfl⟩
theorem rst : Statement .rst := ⟨rfl, rfl, rfl, rfl⟩
theorem inclr : Statement .inclr := ⟨rfl, rfl, rfl, rfl⟩
theorem freq : Statement .freq := ⟨rfl, rfl, rfl, rfl⟩
theorem tinit : Statement .tinit := ⟨rfl, rfl, rfl, rfl⟩
theorem tmerge : Statement .tmerge := ⟨rfl, rfl, rfl, rfl⟩
theorem tbuild : Statement .tbuild := ⟨rfl, rfl, rfl, rfl⟩
theorem assign : Statement .assign := ⟨rfl, rfl, rfl, rfl⟩
theorem apply : Statement .apply := ⟨rfl, rfl, rfl, rfl⟩
theorem decode : Statement .decode := ⟨rfl, rfl, rfl, rfl⟩
theorem pack : Statement .pack := ⟨rfl, rfl, rfl, rfl⟩
theorem unpack : Statement .unpack := ⟨rfl, rfl, rfl, rfl⟩
theorem ser : Statement .ser := ⟨rfl, rfl, rfl, rfl⟩
theorem deser : Statement .deser := ⟨rfl, rfl, rfl, rfl⟩
theorem compress : Statement .compress := ⟨rfl, rfl, rfl, rfl⟩
theorem decompress : Statement .decompress := ⟨rfl, rfl, rfl, rfl⟩

end Sys2Proof.Laws.RoundTrip
end

