-- ==== Sys2Proof/Tests/Slice0.lean ====
section
/-! SUPPORT. Tests from spec/95_test_vectors.md and from the examples of the command rules, the smoke tests of the
well-formedness checks, and a witness for the hypotheses of each statement that has any. -/

namespace Sys2Proof.Tests

open Sys2Proof Sys2Proof.Machine

/-! ### Helpers -/

/-- `BUF_CAP = 64`, the smallest instance. -/
def p64 : Params := { bufCap := 64, symOrder := .firstOccurrence }

/-- The reset state of that instance. -/
def s0 : State := { State.reset with cfg := p64 }

/-- With bytes in IN. -/
def sIn (bs : List Byte) : State := { s0 with inBuf := bs }

/-- The next state, or the state itself. -/
def nextOf (o : Host.Outcome State Fault Refusal) (s : State) : State :=
  match o with
  | .next t => t
  | .fault _ => s
  | .refused _ => s

/-- One command run through the port: the write of its word to CMD. -/
def cmd (i : Instr) (s : State) : State := nextOf (step { s with pending := [scriptCmd i] }) s

/-- One host access. -/
def op1 (o : HostOp) (s : State) : State := nextOf (step { s with pending := [o] }) s

/-- A code table from a list. -/
def tab (l : List (Byte × BitString)) : SymTab BitString :=
  l.foldl (fun t e => symSet t e.1 e.2) (Vector.replicate 256 [])

/-- The table of "AABBCC" (V2): 65 is 10, 66 is 11, 67 is 0. -/
def tabABC : SymTab BitString := tab [(65, [true, false]), (66, [true, true]), (67, [false])]

/-- The serialised table `65 -> 0` with its length field (V1): 7B 22 36 35 22 3A 22 30 22 7D 31 30. -/
def text65 : List Byte := [0x7B, 0x22, 0x36, 0x35, 0x22, 0x3A, 0x22, 0x30, 0x22, 0x7D, 0x31, 0x30]

/-- FAULT and FINFO. -/
def faultOf (s : State) : Option Cause × Nat := (s.fault, s.finfo.toNat)

/-- Does a run of commands end, and with FAULT in the given condition? -/
def endsWith (faulted : Bool) (r : Option State) : Bool :=
  match r with
  | some t => t.fault.isSome == faulted
  | none => false

theorem exists_of_endsWith_false {r : Option State} (h : endsWith false r = true) : ∃ t, r = some t ∧ t.fault = none := by
  cases r with
  | none => cases h
  | some t => exact ⟨t, rfl, by simpa [endsWith] using h⟩

theorem exists_of_endsWith_true {r : Option State} (h : endsWith true r = true) : ∃ t, r = some t ∧ t.fault ≠ none := by
  cases r with
  | none => cases h
  | some t => exact ⟨t, rfl, fun hf => by simp [endsWith, hf] at h⟩

/-- A step's next state, if it has one. -/
def okOf (o : Host.Outcome State Fault Refusal) : Option State :=
  match o with
  | .next t => some t
  | .fault _ => none
  | .refused _ => none

theorem next_of_okOf {o : Host.Outcome State Fault Refusal} {p : State → Prop} (h : ∃ t, okOf o = some t ∧ p t) :
    ∃ t, o = .next t ∧ p t := by
  obtain ⟨t, ht, hp⟩ := h
  cases o with
  | next u => exact ⟨u, rfl, by cases ht; exact hp⟩
  | fault r => cases ht
  | refused r => cases ht

/-! ### Well-formedness smoke tests: an ill-formed term for each check (R8) -/

theorem test_params_too_small : Params.wellFormed { bufCap := 63, symOrder := .firstOccurrence } = false := by decide
theorem test_params_too_large : Params.wellFormed { bufCap := 2 ^ 24 + 1, symOrder := .ascending } = false := by decide
theorem test_params_bounds : Params.wellFormed p64 = true ∧
    Params.wellFormed { bufCap := 2 ^ 24, symOrder := .ascending } = true := by decide
theorem test_memory_overfull : Memory.wf (sIn (List.replicate 65 0)) = false := by decide
theorem test_pay_padding_without_payload : ¬ PayOk 1 [] := by decide
theorem test_table_not_prefix_free : ¬ TableOk (tab [(65, [false]), (66, [false, true])]) [65, 66] := by decide +kernel
theorem test_tree_unsorted_queue : ¬ TreeOk 64 [.leaf 65 2, .leaf 66 1] [0, 1] := by decide +kernel

/-! ### Decoding: each word written bit by bit from R70 and R72 (24 reserved zeros, then the opcode) -/

theorem test_decode_nop : decode 0b00000000_00000000_00000000_00000000 = .ok .nop := by rfl
theorem test_decode_rst : decode 0b00000000_00000000_00000000_00000001 = .ok .rst := by rfl
theorem test_decode_inclr : decode 0b00000000_00000000_00000000_00000010 = .ok .inclr := by rfl
theorem test_decode_freq : decode 0b00000000_00000000_00000000_00010000 = .ok .freq := by rfl
theorem test_decode_tinit : decode 0b00000000_00000000_00000000_00100000 = .ok .tinit := by rfl
theorem test_decode_tmerge : decode 0b00000000_00000000_00000000_00100001 = .ok .tmerge := by rfl
theorem test_decode_tbuild : decode 0b00000000_00000000_00000000_00100010 = .ok .tbuild := by rfl
theorem test_decode_assign : decode 0b00000000_00000000_00000000_00100011 = .ok .assign := by rfl
theorem test_decode_apply : decode 0b00000000_00000000_00000000_00110000 = .ok .apply := by rfl
theorem test_decode_decode : decode 0b00000000_00000000_00000000_00110001 = .ok .decode := by rfl
theorem test_decode_pack : decode 0b00000000_00000000_00000000_01000000 = .ok .pack := by rfl
theorem test_decode_unpack : decode 0b00000000_00000000_00000000_01000001 = .ok .unpack := by rfl
theorem test_decode_ser : decode 0b00000000_00000000_00000000_01010000 = .ok .ser := by rfl
theorem test_decode_deser : decode 0b00000000_00000000_00000000_01010001 = .ok .deser := by rfl
theorem test_decode_compress : decode 0b00000000_00000000_00000000_01100000 = .ok .compress := by rfl
theorem test_decode_decompress : decode 0b00000000_00000000_00000000_01100001 = .ok .decompress := by rfl
/-- V28 -/
theorem test_decode_refuses : decode 0x00000099 = .error .unassignedOpcode ∧ decode 0x00000160 = .error .reservedBits ∧
    decode 0x00000003 = .error .unassignedOpcode := ⟨rfl, rfl, rfl⟩
theorem test_table_word : decodeTableWord 32 0x61 = some .decompress ∧ decodeTableWord 32 0x62 = none ∧
    decodeTableWord 33 (2 ^ 32) = none := by decide

/-! ### Housekeeping -/

/-- V26 -/
theorem test_nop_status : (cmd .nop State.reset).readPort 0x01 = 0x0000000A := by decide
/-- V26 -/
theorem test_inclr_status : (cmd .inclr State.reset).readPort 0x01 = 0x0000020A := by decide
/-- R157 -/
theorem test_inclr_length : (cmd .inclr (sIn [1, 2, 3, 4, 5, 6])).readPort 0x05 = 0 := by decide
/-- R156: after a fault RST gives STATUS 8 and FAULT 0. -/
theorem test_rst_after_fault : (cmd .rst (s0.raise (raiseMalformed 2))).readPort 0x01 = 0x00000008 ∧
    (cmd .rst (s0.raise (raiseMalformed 2))).readPort 0x02 = 0 := by decide

/-! ### Frequency counter and tree builder -/

/-- R95: "ABRACADABRA". -/
theorem test_freq_abracadabra :
    (cmd .freq (sIn [0x41, 0x42, 0x52, 0x41, 0x43, 0x41, 0x44, 0x41, 0x42, 0x52, 0x41])).ord = [65, 66, 82, 67, 68] ∧
    symGet (cmd .freq (sIn [0x41, 0x42, 0x52, 0x41, 0x43, 0x41, 0x44, 0x41, 0x42, 0x52, 0x41])).freq 65 = 5 := by
  decide +kernel
/-- R95: the same input under `ascending`. -/
theorem test_freq_ascending :
    (freqBuild .ascending [0x41, 0x42, 0x52, 0x41, 0x43, 0x41, 0x44, 0x41, 0x42, 0x52, 0x41]).2 =
      [65, 66, 67, 68, 82] := by decide +kernel

/-- The leaves of R103's example. -/
def leavesAbra : List Node := [.leaf 65 5, .leaf 66 2, .leaf 82 2, .leaf 67 1, .leaf 68 1]

/-- The state before TINIT in R103's example. -/
def sAbra : State :=
  { s0 with
    freq := symSet (symSet (symSet (symSet (symSet (Vector.replicate 256 0) 65 5) 66 2) 82 2) 67 1) 68 1
    ord := [65, 66, 82, 67, 68] }

/-- R103 -/
theorem test_tinit_queue : (cmd .tinit sAbra).node = leavesAbra ∧ (cmd .tinit sAbra).pq = [3, 4, 1, 2, 0] := by
  decide +kernel
/-- R104: h5 has frequency 2 like h1 and h2 and goes after them. -/
theorem test_tmerge_tie : (cmd .tmerge { s0 with node := leavesAbra, pq := [3, 4, 1, 2, 0] }).pq = [1, 2, 5, 0] ∧
    (cmd .tmerge { s0 with node := leavesAbra, pq := [3, 4, 1, 2, 0] }).node[5]? = some (.internal 3 (some 4) 2) := by
  decide +kernel
/-- V6: the one-symbol case. -/
theorem test_tmerge_single : (cmd .tmerge { s0 with node := [.leaf 125 1], pq := [0] }).node =
    [.leaf 125 1, .internal 0 none 1] := by decide +kernel
/-- V5: the codes of "ABRACADABRA". -/
theorem test_tbuild_codes : (cmd .tbuild sAbra).pq = [8] ∧
    [65, 66, 82, 67, 68].map (symGet (cmd .tbuild sAbra).ct) =
      [[false], [true, true, false], [true, true, true], [true, false, false], [true, false, true]] := by
  decide +kernel
/-- V29: ASSIGN on an unfinished tree, STATUS 0x00002004 after a TINIT. -/
theorem test_assign_unfinished :
    faultOf (cmd .assign { s0 with node := [.leaf 125 1], pq := [0] }) = (some .sequence, 0x23) := by decide +kernel
/-- V29: from reset ASSIGN completes, STATUS 0x0000230A. -/
theorem test_assign_reset : (cmd .assign State.reset).readPort 0x01 = 0x0000230A := by decide +kernel

/-! ### Code table -/

/-- V18 -/
theorem test_apply_bits : (cmd .apply { sIn [0x41, 0x41, 0x42, 0x42, 0x43, 0x43] with ct := tabABC }).bits =
    [true, false, true, false, true, true, true, true, false, false] := by decide +kernel
/-- V18: LookupInconsistency with FINFO 2, STATUS keeps LASTOP. -/
theorem test_apply_missing :
    faultOf (cmd .apply { sIn [0x41, 0x42, 0x43] with ct := tab [(65, [true]), (66, [false])] }) =
      (some .lookupInconsistency, 2) := by decide +kernel
/-- V19 -/
theorem test_decode_run : (cmd .decode { s0 with
    ct := tabABC, bits := [true, false, true, false, true, true, true, true, false, false] }).out =
      [0x41, 0x41, 0x42, 0x42, 0x43, 0x43] := by decide +kernel
/-- V19: `010` under the one-entry table. -/
theorem test_decode_tail : faultOf (cmd .decode { s0 with ct := tab [(65, [false])], bits := [false, true, false] }) =
    (some .lookupInconsistency, 1) := by decide +kernel

/-! ### Bit packer -/

/-- V16: `111111111` gives PAD 7, PAY FF 80. -/
theorem test_pack_nine : (cmd .pack { s0 with bits := List.replicate 9 true }).pay = [0xFF, 0x80] ∧
    (cmd .pack { s0 with bits := List.replicate 9 true }).pad = 7 := by decide +kernel
/-- V16: the empty bit string gives no byte. -/
theorem test_pack_empty : packBits [] = (0, []) := by decide
/-- V17: the dropped bits are not examined. -/
theorem test_unpack_nonzero_padding : unpackBits 5 [0x08] = [false, false, false] ∧ unpackBits 7 [0xFF] = [true] := by
  decide
/-- V17: PAD = 3, PAY = AB CD. -/
theorem test_unpack_two_bytes : (cmd .unpack { s0 with pad := 3, pay := [0xAB, 0xCD] }).bits =
    [true, false, true, false, true, false, true, true, true, true, false, false, true] := by decide +kernel

/-! ### Container -/

/-- R140 -/
theorem test_ser_single : (cmd .ser { s0 with pad := 5, pay := [0x00], ct := tab [(65, [false])], ctOrd := [65] }).out =
    [0x05, 0x00] ++ text65 := by decide +kernel
/-- V20: from reset. -/
theorem test_ser_reset : (cmd .ser State.reset).out = [0x00, 0x7B, 0x7D, 0x32] := by decide +kernel
/-- R142 -/
theorem test_deser_single : (cmd .deser (sIn ([0x05, 0x00] ++ text65))).pay = [0x00] ∧
    (cmd .deser (sIn ([0x05, 0x00] ++ text65))).ctOrd = [65] := by decide +kernel
/-- V22 a, c, d, e, f, g, u, v; R148. -/
theorem test_deser_refusals :
    [[], [0x00, 0x7B, 0x7D], [0x00, 0x7B, 0x7D, 0x78], [0x7B, 0x7D, 0x32], [0x00, 0x7B, 0x7D, 0x33],
      [0x00, 0x7B, 0x7D, 0x31], [0x08, 0x7B, 0x7D, 0x32], [0x01, 0x7B, 0x7D, 0x32]].map
        (fun c => (faultOf (cmd .deser (sIn c))).2) = [1, 2, 3, 4, 4, 4, 7, 7] := by decide +kernel
/-- V22 i (trailing comma). -/
theorem test_table_trailing_comma :
    parseTable [0x7B, 0x22, 0x36, 0x35, 0x22, 0x3A, 0x22, 0x30, 0x22, 0x2C, 0x7D] = none := by decide +kernel
/-- V22 q (duplicate key by value: 65 and 065). -/
theorem test_table_duplicate_by_value :
    tableValues [([0x36, 0x35], [0x30]), ([0x30, 0x36, 0x35], [0x31])] = .error (raiseMalformed 6) := by rfl

/-! ### Facade -/

/-- V1 -/
theorem test_compress_aaa : (cmd .compress (sIn [0x41, 0x41, 0x41])).out = [0x05, 0x00] ++ text65 := by decide +kernel
/-- V30: eight distinct symbols do not fit 64 bytes; everything is rolled back. -/
theorem test_compress_capacity : faultOf (cmd .compress (sIn [0, 1, 2, 3, 4, 5, 6, 7])) = (some .capacity, 2) ∧
    (cmd .compress (sIn [0, 1, 2, 3, 4, 5, 6, 7])).node = [] := by decide +kernel
/-- V21 c -/
theorem test_decompress_aaa : (cmd .decompress (sIn ([0x05, 0x00] ++ text65))).out = [0x41, 0x41, 0x41] := by
  decide +kernel
/-- V22 x -/
theorem test_decompress_bad_bit : faultOf (cmd .decompress (sIn ([0x05, 0x40] ++ text65))) =
    (some .lookupInconsistency, 1) := by decide +kernel

/-! ### Host operations -/

/-- V27 -/
theorem test_push_invalid : faultOf (op1 (scriptPushW 0x00000100) State.reset) = (some .invalidInput, 0x100) ∧
    (op1 (scriptPushW 0x00000100) State.reset).readPort 0x01 = 0x0000000C := by decide +kernel
/-- V30: the 65th push. -/
theorem test_push_full : faultOf (op1 (scriptPush 0x41) (sIn (List.replicate 64 0x41))) = (some .capacity, 0) := by
  decide +kernel
/-- V28 -/
theorem test_illegal_word : faultOf (op1 (scriptCmdW 0x00000160) State.reset) = (some .illegalCommand, 0x160) := by
  decide +kernel
/-- V32: the CTBITS and CTLEN windows of "AABBCC". -/
theorem test_code_windows : { s0 with ct := tabABC }.readPort (0x800 + 8 * 66) = 0xC0000000 ∧
    { s0 with ct := tabABC }.readPort (0x300 + 67) = 1 := by decide +kernel
/-- V32: the NODE window after V6. -/
theorem test_node_window :
    [0x1000, 0x1001, 0x1002, 0x1003, 0x1004, 0x1005, 0x1006, 0x1007, 0x1008].map
        (State.readPort { s0 with node := [.leaf 125 1, .internal 0 none 1], pq := [1] }) =
      [0x80007D01, 1, 0x1FF, 0x1FF, 0x80000000, 1, 0, 0x1FF, 0] := by decide +kernel

/-! ### Witnesses: for each statement with hypotheses, a state and operands that meet them all -/

/-- A state that satisfies the invariant with every element in use: the one that APPLY and PACK leave on "AAB". -/
def sW : State :=
  { s0 with
    inBuf := [65, 65, 66]
    freq := symSet (symSet (Vector.replicate 256 0) 65 2) 66 1
    ord := [65, 66]
    node := [.leaf 65 2, .leaf 66 1, .internal 1 (some 0) 3]
    pq := [2]
    ct := tab [(65, [true]), (66, [false])]
    ctOrd := [65, 66]
    bits := [true, true, false]
    pad := 5
    pay := [0xC0]
    done := true
    lastop := 0x40 }

/-- The table of `sW` (SerTableLengthIsBounded, the clause for any table). -/
theorem wit_table_ok : TableOk sW.ct sW.ctOrd := by decide +kernel
/-- The tree of `sW`. -/
theorem wit_tree_ok : TreeOk sW.cfg.bufCap sW.node sW.pq := by decide +kernel
/-- The counters of `sW`. -/
theorem wit_freq_ok : FreqOk sW := by decide +kernel
/-- StepKeepsTheInvariant, RegistersReadTheirElements, WindowsReadTheirElements, NodeWindowReadsTheRecord. -/
theorem wit_inv : Inv sW :=
  ⟨by decide, wit_freq_ok, wit_tree_ok, wit_table_ok, by decide, by decide +kernel, by decide⟩
/-- DecodeRecoversTheSymbols, DecodeInvertsApply: the table of `sW` is prefix-free. -/
theorem wit_prefix_free : PrefixFree sW.ct := by
  intro b c hb hc hne
  exact wit_table_ok.2.2.2 b ((wit_table_ok.2.1 b).mpr hb) c ((wit_table_ok.2.1 c).mpr hc) hne
/-- EveryReachableStateHasTheInvariant: a run of two operations. -/
theorem wit_reachable : ∃ t, Sys2Proof.core.run 2 { State.reset with cfg := p64, pending := [scriptPush 1, .read 0x05] } =
    .next t := ⟨_, rfl⟩
/-- A step from an invariant state. -/
theorem wit_inv_step : ∃ t, step sW = .next t := ⟨_, rfl⟩
/-- The boundaries of the register file and of every window (R19, R59), read in `sW`. -/
theorem wit_window_boundaries :
    [0x0F, 0x10, 0xFF, 0x100, 0x141, 0x1FF, 0x200, 0x2FF, 0x300, 0x341, 0x3FF, 0x400, 0x4FF, 0x500, 0x7FF, 0x800, 0xA08,
      0xFFF, 0x1000, 0x17FB, 0x17FC, 0x17FF, 0x1800, 0x18FF, 0x1900, 0xFFFFFF, 0x1000000, 0x1FFFFFF, 0x2000000,
      0x2FFFFFF, 0x3000000, 0x3FFFFFF].map sW.readPort =
    [0, 0, 0, 0, 2, 0, 65, 0, 0, 1, 0, 65, 0, 0, 0, 0, 0x80000000,
      0, 0x80004101, 0, 0, 0, 2, 0, 0, 0, 0, 0, 0xC0,
      0, 0, 0] := by decide +kernel
/-- The last handle of the NODE window: no record, then the record of `sW`'s root. -/
theorem wit_node_window : (sW.node[2]? = some (.internal 1 (some 0) 3)) ∧ sW.node.length ≤ 510 ∧
    (sW.readPort 0x100A = 1 ∧ sW.readPort 0x100B = 0) := by decide +kernel

/-- StepRunsTheDecodedCommand. -/
theorem wit_step_command : ({ sW with pending := [.write 0x00 0x60] } : State).pending = .write 0x00 0x60 :: [] ∧
    decode 0x60 = .ok .compress := ⟨rfl, rfl⟩
/-- StepAlwaysAnswersANextState, the idle clause. -/
theorem wit_idle : sW.pending = [] := rfl
/-- IllegalWordRaisesIllegalCommand: an unassigned opcode and a reserved bit. -/
theorem wit_illegal_word : s0.fault = none ∧ (∀ i, (0x99 : Word) ≠ encode i) ∧ (∀ i, (0x160 : Word) ≠ encode i) :=
  ⟨rfl, by intro i; cases i <;> decide, by intro i; cases i <;> decide⟩
/-- FaultedBlockIgnoresAllButReset: a faulted state, a command and words for its clauses. -/
theorem wit_faulted : (s0.raise (raiseCapacity 0)).fault ≠ none ∧ Instr.compress ≠ .rst ∧ (0x99 : Word) ≠ 1 := by decide
/-- ResetLeavesEverythingEmpty, RstIsHardwareReset: the hardware reset clause. -/
theorem wit_hard_reset : ({ sW with pending := [.reset] } : State).pending = .reset :: [] := rfl
/-- EveryCommandIsDefinedAtReset. -/
theorem wit_params : p64.wellFormed = true := by decide
/-- FaultDiscardsEveryChange, the clause over step: a push that faults. -/
theorem wit_fault_step : ∃ t, ({ s0 with pending := [scriptPushW 0x100] } : State).fault = none ∧
    step { s0 with pending := [scriptPushW 0x100] } = .next t ∧ t.fault ≠ none := ⟨_, rfl, rfl, by decide⟩
/-- FaultDiscardsEveryChange, EachCommandRaisesOnlyItsFaults: ASSIGN on an unfinished tree of an invariant state. -/
theorem wit_fault : ∃ t, Inv { sW with node := [.leaf 65 2], pq := [0] } ∧ sW.fault = none ∧
    exec .assign { sW with node := [.leaf 65 2], pq := [0] } = .next t ∧ t.fault = some .sequence :=
  ⟨_, ⟨by decide, wit_freq_ok, by decide +kernel, wit_table_ok, by decide, by decide +kernel, by decide⟩, rfl, rfl,
    by decide⟩
/-- CompletionSetsDoneAndLastop. -/
theorem wit_completion : ∃ t, Instr.pack ≠ .rst ∧ sW.fault = none ∧ exec .pack sW = .next t ∧ t.fault = none :=
  ⟨_, by decide, rfl, rfl, by decide⟩
/-- CommandsLeaveOtherElementsUntouched, UntouchedWindowsReadAsBefore. -/
theorem wit_untouched : ∃ t, exec .apply sW = .next t ∧ t.fault = sW.fault := ⟨_, rfl, by decide +kernel⟩

/-- InDataWriteAppendsOrFaults: its four clauses, at the words 255 and 256 and at a full IN. -/
theorem wit_in_data : (s0.raise (raiseCapacity 0)).fault ≠ none ∧ s0.fault = none ∧ 256 ≤ (0x100 : Word).toNat ∧
    (0xFF : Word).toNat < 256 ∧ (sIn (List.replicate 64 0)).inBuf.length = s0.cfg.bufCap ∧
    (sIn (List.replicate 63 0)).inBuf.length ≠ s0.cfg.bufCap := by decide
/-- ReadsAndOtherWritesHaveNoEffect: the offsets next to CMD and IN_DATA, and the last one. -/
theorem wit_other_offsets :
    ([0x01, 0x03, 0x05, 0x3FFFFFF] : List Offset).all (fun a => a != 0x00 && a != 0x04) = true := by decide
/-- DecompressInvertsCompress: a run that ends without a fault. -/
theorem wit_round_trip : ∃ t, Sys2Proof.core.run 3 { s0 with pending := scriptLoad [0x41] ++ [scriptCmd .compress] } =
    .next t ∧ t.fault = none := next_of_okOf (exists_of_endsWith_false (by decide +kernel))
/-- LoadPutsItsBytesIntoIn, DecompressInvertsCompress: as many bytes as IN can hold. -/
theorem wit_load : s0.fault = none ∧ s0.cfg.wellFormed = true ∧ (List.replicate 64 (0x41 : Byte)).length ≤ s0.cfg.bufCap :=
  ⟨rfl, by decide, by decide⟩
/-- FreqCountsTheInput, FreqCountsSumToTheInputLength: both values of SYM_ORDER. -/
theorem wit_freq : ∃ t, sW.cfg.wellFormed = true ∧ Memory.wf sW = true ∧ sW.fault = none ∧ exec .freq sW = .next t ∧
    sW.cfg.symOrder = .firstOccurrence ∧ Memory.wf { sW with cfg := ⟨64, .ascending⟩ } = true :=
  ⟨_, by decide, by decide, rfl, rfl, rfl, by decide⟩
/-- TinitBuildsLeavesAndQueue, NopOnlyCompletes, InclrEmptiesIn, and every statement that asks only for no fault. -/
theorem wit_no_fault : sW.fault = none := rfl
/-- TmergeMergesTheTwoLowest: the empty queue, a single leaf, a finished tree, two entries. -/
theorem wit_tmerge : TreeOk 64 [] [] ∧ TreeOk 64 [.leaf 65 2] [0] ∧
    TreeOk 64 [.leaf 65 2, .internal 0 none 2] [1] ∧ TreeOk 64 [.leaf 65 2, .leaf 66 1] [1, 0] :=
  ⟨by decide, by decide, by decide, by decide⟩
/-- TbuildIsItsStepCommands: no symbol, one symbol, two symbols, each with its least number of merges. -/
theorem wit_tbuild_steps : ∃ t, exec .tbuild sW = .next t ∧
    (if sW.ord.length = 1 then 1 else sW.ord.length - 1) ≤ 1 ∧
    (if s0.ord.length = 1 then 1 else s0.ord.length - 1) ≤ 0 ∧
    (if ({ s0 with ord := [65] } : State).ord.length = 1 then 1 else ({ s0 with ord := [65] } : State).ord.length - 1) ≤ 1 :=
  ⟨_, rfl, by decide, by decide, by decide⟩
/-- AssignRecordsThePaths: a finished and an unfinished tree. -/
theorem wit_assign : treeDone sW.node sW.pq = true ∧ treeDone [.leaf 65 2] [0] = false ∧ sW.pq = [2] ∧
    (66 : Byte) ∈ sW.node.filterMap leafSym := by decide
/-- TbuildGivesAPrefixFreeTable, TbuildGivesACompleteCode, HigherFrequencyNeverGetsALongerCode, SerTableLengthIsBounded: two
symbols of different frequency. -/
theorem wit_tbuild : ∃ t, sW.cfg.wellFormed = true ∧ FreqOk sW ∧ sW.fault = none ∧ exec .tbuild sW = .next t ∧
    2 ≤ sW.ord.length ∧ (65 : Byte) ∈ sW.ord ∧ (66 : Byte) ∈ sW.ord ∧
    (symGet sW.freq 66).toNat < (symGet sW.freq 65).toNat :=
  ⟨_, by decide, wit_freq_ok, rfl, rfl, by decide, by decide, by decide, by decide⟩
/-- TbuildGivesACompleteCode, the one-symbol clause. -/
theorem wit_tbuild_single :
    FreqOk { s0 with freq := symSet (Vector.replicate 256 0) 65 3, ord := [65] } := by decide +kernel
/-- ApplyEncodesTheInput: everything fits; the byte 67 has no code; a code that ends at 513 of 512 bits. -/
theorem wit_apply : (∀ b ∈ sW.inBuf, symGet sW.ct b ≠ []) ∧ (codesOf sW.ct sW.inBuf).length ≤ 8 * sW.cfg.bufCap ∧
    symGet sW.ct 67 = [] ∧
    8 * sW.cfg.bufCap < (codesOf (tab [(65, List.replicate 9 false)]) (List.replicate 56 65)).length +
      (symGet (tab [(65, List.replicate 9 false)]) 65).length ∧
    (codesOf (tab [(65, List.replicate 9 false)]) (List.replicate 56 65)).length ≤ 8 * sW.cfg.bufCap := by decide +kernel
/-- DecodeRecoversTheSymbols: a code sequence; a one-symbol table and the tail `1`; a full output and one code more. -/
theorem wit_decode : (∀ b ∈ sW.inBuf, symGet sW.ct b ≠ []) ∧ sW.bits = codesOf sW.ct sW.inBuf ∧
    sW.inBuf.length ≤ sW.cfg.bufCap ∧
    (∀ b, symGet (tab [(65, [false])]) b ≠ [] → ¬ symGet (tab [(65, [false])]) b <+: [true]) ∧
    symGet (tab [(65, [false])]) 65 ≠ [] ∧ (List.replicate 64 (65 : Byte)).length = sW.cfg.bufCap := by decide +kernel
/-- The one-symbol table of `wit_decode` (so it is prefix-free). -/
theorem wit_decode_single : TableOk (tab [(65, [false])]) [65] := by decide +kernel
/-- DecodeInvertsApply. -/
theorem wit_apply_decode : ∃ t, sW.inBuf.length ≤ sW.cfg.bufCap ∧ exec .apply sW = .next t ∧ t.fault = none :=
  ⟨_, by decide, rfl, by decide +kernel⟩
/-- UnpackStripsThePadding: the least payload for the greatest padding. -/
theorem wit_unpack : PayOk 7 [0x80] ∧ PayOk sW.pad sW.pay := by decide
/-- SerWritesTheContainer: the container of `sW` fits BUF_CAP = 64 and one with 61 more payload bytes does not. -/
theorem wit_ser : (containerOf sW.pad sW.pay sW.ct sW.ctOrd).length ≤ sW.cfg.bufCap ∧
    sW.cfg.bufCap < (containerOf sW.pad (List.replicate 61 0) sW.ct sW.ctOrd).length := by decide +kernel
/-- DeserTakesTheContainerApart: the container of V1, table and length apart. -/
theorem wit_deser : TableSentence (text65.take 10) [([0x36, 0x35], [0x30])] ∧ ValuesOk [([0x36, 0x35], [0x30])] ∧
    text65.drop 10 ≠ [] ∧ (∀ d ∈ text65.drop 10, isDigit d = true) ∧ undec (text65.drop 10) = (text65.take 10).length ∧
    (5 : Byte).toNat ≤ 7 ∧ ((5 : Byte) ≠ 0 → [(0 : Byte)] ≠ []) := by decide +kernel
/-- DeserRefusesInOrder, refusals 1 to 4: no brace, no digits, a byte that is none, lengths 1 and p + 1. -/
theorem wit_deser_refused_early : chClose ∉ ([0x00] : List Byte) ∧ chClose ∉ ([] : List Byte) ∧
    isDigit 0x78 = false ∧ undec [0x31] < 2 ∧ ([0x00, 0x7B] : List Byte).length < undec [0x33] := by decide
/-- DeserRefusesInOrder, refusal 5: the two bytes `0` and `}` are no sentence of the grammar. -/
theorem wit_deser_syntax : ∀ es, ¬ TableSentence [0x30, 0x7D] es := by
  intro es h
  have := congrArg List.head? h.2
  simp [chOpen] at this
/-- DeserRefusesInOrder, refusals 6 and 7: a key above 255 and a key of 255; the padding byte 8. -/
theorem wit_deser_values : TableSentence [0x7B, 0x7D] [] ∧ ValuesOk [] ∧
    ¬ ValuesOk [([0x32, 0x35, 0x36], [0x30])] ∧ ValuesOk [([0x32, 0x35, 0x35], [0x30])] ∧ 7 < (8 : Byte).toNat := by
  decide +kernel
/-- DeserInvertsSer, the second clause: the container of V1 has no leading zeros, and both commands complete on it. -/
theorem wit_deser_ser : undec [0x36, 0x35] = 65 ∧ dec 65 = [0x36, 0x35] ∧ text65.drop 10 = dec (text65.take 10).length ∧
    endsWith false (execSeq [.deser, .ser] (sIn ([0x05, 0x00] ++ text65))) = true := by decide +kernel
/-- DeserInvertsSer, the first clause. -/
theorem wit_ser_deser : ∃ t, PayOk sW.pad sW.pay ∧ exec .ser sW = .next t ∧ t.fault = none :=
  ⟨_, by decide, rfl, by decide +kernel⟩
/-- CompressIsItsStages, both clauses: "AAB" fits, eight distinct symbols do not. -/
theorem wit_compress_stages : (∃ t, execSeq [.freq, .tbuild, .apply, .pack, .ser] sW = some t ∧ t.fault = none) ∧
    (∃ t, execSeq [.freq, .tbuild, .apply, .pack, .ser] (sIn [0, 1, 2, 3, 4, 5, 6, 7]) = some t ∧ t.fault ≠ none) :=
  ⟨exists_of_endsWith_false (by decide +kernel), exists_of_endsWith_true (by decide +kernel)⟩
/-- CompressCompletesWithRoom: the bound met with equality by an input of one byte. -/
theorem wit_compress_room :
    32 * ({ s0 with inBuf := [65], cfg := ⟨67624, .firstOccurrence⟩ } : State).inBuf.length + 67592 ≤
      ({ s0 with inBuf := [65], cfg := ⟨67624, .firstOccurrence⟩ } : State).cfg.bufCap ∧
    Params.wellFormed ⟨67624, .firstOccurrence⟩ = true := by decide
/-- DecompressIsItsStages, both clauses. -/
theorem wit_decompress_stages :
    (∃ t, execSeq [.deser, .unpack, .decode] (sIn ([0x05, 0x00] ++ text65)) = some t ∧ t.fault = none) ∧
    (∃ t, execSeq [.deser, .unpack, .decode] (sIn [0x00]) = some t ∧ t.fault ≠ none) :=
  ⟨exists_of_endsWith_false (by decide +kernel), exists_of_endsWith_true (by decide +kernel)⟩
/-- DecompressRecoversPackedData: IN can be the container of any packed code sequence. -/
theorem wit_decompress_packed : (∀ b ∈ sW.inBuf, symGet sW.ct b ≠ []) ∧
    (sIn (containerOf (packBits (codesOf sW.ct sW.inBuf)).1 (packBits (codesOf sW.ct sW.inBuf)).2 sW.ct sW.ctOrd)).inBuf =
      containerOf (packBits (codesOf sW.ct sW.inBuf)).1 (packBits (codesOf sW.ct sW.inBuf)).2 sW.ct sW.ctOrd :=
  ⟨by decide +kernel, rfl⟩
/-- CompressDependsOnInputAlone: two states that agree on IN and differ elsewhere. -/
theorem wit_compress_twice : sW.inBuf = (sIn [65, 65, 66]).inBuf ∧ sW.cfg = (sIn [65, 65, 66]).cfg ∧
    sW.finfo = (sIn [65, 65, 66]).finfo ∧ sW.ord ≠ (sIn [65, 65, 66]).ord := by decide
/-- EmptyInputRoundTrips. -/
theorem wit_empty : s0.inBuf = [] ∧ s0.cfg.wellFormed = true ∧ (sIn [0x00, 0x7B, 0x7D, 0x32]).fault = none := by decide

end Sys2Proof.Tests
end

section
/-! PROOFS of the family 00_scope.md, first part: decimal numerals and the bits of a byte (R12). -/

namespace Sys2Proof.Machine

/-! ### Decimal numerals (R12) -/

theorem toNat_digitByte {d : Nat} (hd : d < 10) : (digitByte d).toNat = 0x30 + d := by
  rw [digitByte, BitVec.toNat_ofNat]
  omega

theorem isDigit_digitByte {d : Nat} (hd : d < 10) : isDigit (digitByte d) = true := by
  simp only [isDigit, toNat_digitByte hd, Bool.and_eq_true, decide_eq_true_eq]
  omega

theorem digitVal_digitByte {d : Nat} (hd : d < 10) : digitVal (digitByte d) = d := by
  rw [digitVal, toNat_digitByte hd]
  omega

/-- Reading what `decAux` wrote before `acc` is reading `acc` with `n` as the value so far. -/
theorem undec_decAux {fuel n : Nat} (hfuel : n < fuel) (acc : List Byte) :
    undec (decAux fuel n acc) = acc.foldl (fun m b => 10 * m + digitVal b) n := by
  induction fuel generalizing n acc with
  | zero => omega
  | succ fuel ih =>
    rw [decAux]
    split
    · next hn => rw [undec, List.foldl_cons, digitVal_digitByte hn, Nat.mul_zero, Nat.zero_add]
    · next hn =>
      have hdigit : 10 * (n / 10) + digitVal (digitByte (n % 10)) = n := by
        rw [digitVal_digitByte (Nat.mod_lt n (by decide))]
        omega
      rw [ih (by omega), List.foldl_cons, hdigit]

theorem isDigit_of_mem_decAux {fuel n : Nat} {acc : List Byte} (hacc : ∀ b ∈ acc, isDigit b = true) :
    ∀ b ∈ decAux fuel n acc, isDigit b = true := by
  induction fuel generalizing n acc with
  | zero => exact hacc
  | succ fuel ih =>
    rw [decAux]
    split
    · next hn => exact List.forall_mem_cons.mpr ⟨isDigit_digitByte hn, hacc⟩
    · exact ih (List.forall_mem_cons.mpr ⟨isDigit_digitByte (Nat.mod_lt n (by decide)), hacc⟩)

/-- The first byte written is the leading digit, which is 0 only for the number 0. -/
theorem head_decAux {fuel n : Nat} (hfuel : n < fuel) (acc : List Byte) :
    ∃ d, d < 10 ∧ (n ≠ 0 → d ≠ 0) ∧ (decAux fuel n acc).head? = some (digitByte d) := by
  induction fuel generalizing n acc with
  | zero => omega
  | succ fuel ih =>
    rw [decAux]
    split
    · next hn => exact ⟨n, hn, id, rfl⟩
    · next hn =>
      obtain ⟨d, hd, hpos, hhead⟩ := ih (n := n / 10) (by omega) (digitByte (n % 10) :: acc)
      exact ⟨d, hd, fun _ => hpos (by omega), hhead⟩

theorem undec_dec (n : Nat) : undec (dec n) = n := undec_decAux (Nat.lt_succ_self n) []

theorem isDigit_of_mem_dec {n : Nat} : ∀ b ∈ dec n, isDigit b = true :=
  isDigit_of_mem_decAux fun _ hb => nomatch hb

theorem dec_ne_nil (n : Nat) : dec n ≠ [] := by
  intro h
  obtain ⟨d, -, -, hhead⟩ := head_decAux (Nat.lt_succ_self n) []
  rw [show decAux (n + 1) n [] = [] from h] at hhead
  cases hhead

theorem dec_head_ne_zero {n : Nat} (hn : n ≠ 0) : (dec n).head? ≠ some 0x30 := by
  intro h
  obtain ⟨d, hd, hpos, hhead⟩ := head_decAux (Nat.lt_succ_self n) []
  have hval := congrArg digitVal (Option.some.inj (hhead.symm.trans h))
  rw [digitVal_digitByte hd] at hval
  exact hpos hn hval

/-! ### Bits of a byte (R12, R51) -/

theorem bitsVal_append_singleton (b : BitString) (x : Bool) : bitsVal (b ++ [x]) = 2 * bitsVal b + x.toNat := by
  rw [bitsVal, List.foldl_append]
  rfl

/-- Bit `j` of the number a bit string denotes is the `j`-th bit from its end. -/
theorem testBit_bitsVal_reverse (b : BitString) (j : Nat) : (bitsVal b.reverse).testBit j = b.getD j false := by
  induction b generalizing j with
  | nil => exact Nat.zero_testBit j
  | cons x b ih =>
    rw [List.reverse_cons, bitsVal_append_singleton]
    cases j with
    | zero =>
      rw [Nat.testBit_zero, List.getD_cons_zero]
      cases x <;> simp only [Bool.toNat_false, Bool.toNat_true, decide_eq_true_eq, decide_eq_false_iff_not] <;> omega
    | succ j =>
      have hhalf : (2 * bitsVal b.reverse + x.toNat) / 2 = bitsVal b.reverse := by
        have := x.toNat_lt
        omega
      rw [Nat.testBit_succ, hhalf, ih, List.getD_cons_succ]

theorem testBit_bitsVal (b : BitString) (j : Nat) : (bitsVal b).testBit j = b.reverse.getD j false := by
  rw [← testBit_bitsVal_reverse, List.reverse_reverse]

theorem getMsbD_val8 {b : BitString} (hb : b.length = 8) {k : Nat} (hk : k < 8) :
    (val8 b).getMsbD k = b.getD k false := by
  have hlt : 7 - k < b.length := by omega
  have hidx : b.length - 1 - (7 - k) = k := by omega
  have hbyte : 7 - k < 8 := by omega
  calc (val8 b).getMsbD k
    _ = (bitsVal b).testBit (7 - k) := by
      simp only [val8, BitVec.getMsbD, BitVec.getLsbD_ofNat, hk, hbyte, decide_true, Bool.true_and]
    _ = b.reverse.getD (7 - k) false := testBit_bitsVal b (7 - k)
    _ = b.getD k false := by
      rw [List.getD_eq_getElem?_getD, List.getElem?_reverse hlt, hidx, ← List.getD_eq_getElem?_getD]

theorem bits8_eq_map_range (v : Byte) : bits8 v = (List.range 8).map v.getMsbD := rfl

theorem getD_bits8 (v : Byte) {k : Nat} (hk : k < 8) : (bits8 v).getD k false = v.getMsbD k := by
  rw [bits8_eq_map_range, List.getD_eq_getElem?_getD, List.getElem?_map, List.getElem?_range hk]
  rfl

theorem val8_bits8 (v : Byte) : val8 (bits8 v) = v :=
  BitVec.eq_of_getMsbD_eq fun _ hk => (getMsbD_val8 rfl hk).trans (getD_bits8 v hk)

theorem bits8_val8 {b : BitString} (hb : b.length = 8) : bits8 (val8 b) = b := by
  refine List.ext_getElem hb.symm fun k hk hkb => ?_
  have hbit := (getD_bits8 (val8 b) hk).trans (getMsbD_val8 hb hk)
  rw [List.getD_eq_getElem?_getD, List.getD_eq_getElem?_getD, List.getElem?_eq_getElem hk,
    List.getElem?_eq_getElem hkb] at hbit
  exact hbit

/-- Settles O44: numerals by induction on their digits, and `val8` read bit by bit. -/
theorem numeralsAndBytesRoundTrip : Obligations.NumeralsAndBytesRoundTrip :=
  ⟨fun n => ⟨undec_dec n, dec_ne_nil n, isDigit_of_mem_dec, dec_head_ne_zero⟩, val8_bits8, fun _ => bits8_val8⟩

end Sys2Proof.Machine
end

section
/-! PROOFS of the family 00_scope.md, second part: the tree that TBUILD leaves, as a `CodeTree` read from the arena, and
the length of the serialised table (R7, R108, R141). -/

namespace Sys2Proof.Machine

/-! ### Sums over symbols without repetition -/

/-- Symbols without repetition count for at most all symbols of a list that holds them. -/
theorem sum_map_le_of_subset {l m : List Byte} (hl : l.Nodup) (hsub : l ⊆ m) (f : Byte → Nat) :
    (l.map f).sum ≤ (m.map f).sum := by
  induction l generalizing m with
  | nil => exact Nat.zero_le _
  | cons b l ih =>
    obtain ⟨hb, hl⟩ := List.nodup_cons.mp hl
    have hrest : l ⊆ m.erase b := fun c hc =>
      (List.mem_erase_of_ne fun (h : c = b) => hb (h ▸ hc)).mpr (hsub (List.mem_cons_of_mem b hc))
    have hperm := ((List.perm_cons_erase (hsub List.mem_cons_self)).map f).sum_nat
    rw [hperm, List.map_cons, List.map_cons, List.sum_cons, List.sum_cons]
    exact Nat.add_le_add_left (ih hl hrest) (f b)

theorem length_le_256 {ord : List Byte} (hord : ord.Nodup) : ord.length ≤ 256 := by
  have hlen := hord.length_le_of_subset fun b _ => mem_allSyms b
  rwa [allSyms, List.length_map, List.length_range] at hlen

theorem sum_map_le_length_mul {l : List Byte} {f : Byte → Nat} {k : Nat} (hf : ∀ b, f b ≤ k) :
    (l.map f).sum ≤ l.length * k := by
  induction l with
  | nil => exact Nat.zero_le _
  | cons b l ih =>
    have hb := hf b
    rw [List.map_cons, List.sum_cons, List.length_cons, Nat.add_mul, Nat.one_mul]
    omega

/-- The bytes of the entries: punctuation, keys and codes (R83). -/
theorem sum_entry_length (ct : SymTab BitString) (ord : List Byte) :
    (ord.map fun b => 5 + (dec b.toNat).length + (symGet ct b).length).sum =
      5 * ord.length + (ord.map fun b => (dec b.toNat).length).sum + (ord.map fun b => (symGet ct b).length).sum := by
  induction ord with
  | nil => rfl
  | cons b ord ih =>
    simp only [List.map_cons, List.sum_cons, List.length_cons, ih]
    omega

/-- The 256 keys have 658 digits: 10 of one, 90 of two, 156 of three. -/
theorem sum_dec_length_allSyms : (allSyms.map fun b => (dec b.toNat).length).sum = 658 := by decide +kernel

/-- A table over symbols without repetition: 1280 punctuation bytes, 658 digits, 255 commas and two braces, and the
codes. -/
theorem tableText_length_le {ord : List Byte} (hord : ord.Nodup) (ct : SymTab BitString) :
    (tableText ct ord).length ≤ 2195 + (ord.map fun b => (symGet ct b).length).sum := by
  have hlen := length_le_256 hord
  have hdec := sum_map_le_of_subset hord (fun b _ => mem_allSyms b) fun b => (dec b.toNat).length
  rw [sum_dec_length_allSyms] at hdec
  rw [tableText_length, sum_entry_length]
  omega

/-! ### The code table of ASSIGN -/

theorem symGet_foldl_symSet {α : Type} (f : Byte → α) (syms : List Byte) (c : SymTab α) (b : Byte) :
    symGet (syms.foldl (fun c s => symSet c s (f s)) c) b = if b ∈ syms then f b else symGet c b := by
  induction syms generalizing c with
  | nil => rfl
  | cons s syms ih =>
    rw [List.foldl_cons, ih, symGet_symSet]
    by_cases hs : s = b
    · subst hs
      simp only [List.mem_cons_self, if_true, ite_self]
    · simp only [List.mem_cons, Ne.symm hs, hs, false_or, if_false]

theorem symGet_assignCodes (codes : List (Byte × BitString)) (syms : List Byte) (b : Byte) :
    symGet (assignCodes codes syms) b = if b ∈ syms then codeIn codes b else [] := by
  rw [assignCodes, symGet_foldl_symSet, symGet_replicate]

theorem codeIn_cons (e : Byte × BitString) (codes : List (Byte × BitString)) (b : Byte) :
    codeIn (e :: codes) b = if e.1 = b then e.2 else codeIn codes b := by
  rw [codeIn, List.find?_cons]
  by_cases he : e.1 = b
  · rw [if_pos he, beq_iff_eq.mpr he]
  · rw [if_neg he, beq_eq_false_iff_ne.mpr he]
    rfl

theorem codeIn_cons_of_ne {e : Byte × BitString} {b : Byte} (hne : e.1 ≠ b) (codes : List (Byte × BitString)) :
    codeIn (e :: codes) b = codeIn codes b := by
  rw [codeIn_cons, if_neg hne]

/-- A code listed first for a symbol that does not occur changes no sum. -/
theorem map_codeIn_cons_of_not_mem {e : Byte × BitString} {syms : List Byte} (he : e.1 ∉ syms)
    (codes : List (Byte × BitString)) :
    syms.map (fun b => (codeIn (e :: codes) b).length) = syms.map fun b => (codeIn codes b).length :=
  List.map_congr_left fun b hb => by rw [codeIn_cons_of_ne fun h => he (h ▸ hb)]

/-- Each symbol takes one code, so different symbols take at most the whole list. -/
theorem sum_codeIn_length_le {syms : List Byte} (hsyms : syms.Nodup) (codes : List (Byte × BitString)) :
    (syms.map fun b => (codeIn codes b).length).sum ≤ (codes.map fun e => e.2.length).sum := by
  induction codes generalizing syms with
  | nil => exact Nat.le_trans (sum_map_le_length_mul fun _ => Nat.le_refl 0) (Nat.le_refl _)
  | cons e codes ih =>
    rw [List.map_cons (l := codes), List.sum_cons]
    by_cases he : e.1 ∈ syms
    · have hsum := ((List.perm_cons_erase he).map fun b => (codeIn (e :: codes) b).length).sum_nat
      have htail := ih (hsyms.erase e.1)
      rw [hsum, List.map_cons, List.sum_cons, codeIn_cons, if_pos rfl, map_codeIn_cons_of_not_mem hsyms.not_mem_erase]
      exact Nat.add_le_add_left htail _
    · rw [map_codeIn_cons_of_not_mem he]
      exact Nat.le_trans (ih hsyms) (Nat.le_add_left _ _)

/-! ### The tree below a handle -/

/-- The binary tree that the records under a handle form (R100). -/
inductive CodeTree where
  | leaf (sym : Byte)
  | node (left right : CodeTree)

/-- The symbols from left to right. -/
def CodeTree.syms : CodeTree → List Byte
  | .leaf s => [s]
  | .node l r => l.syms ++ r.syms

/-- The symbols with their paths, as `codesBelow` lists them (R107). -/
def CodeTree.codes : CodeTree → BitString → List (Byte × BitString)
  | .leaf s, p => [(s, p)]
  | .node l r, p => l.codes (p ++ [false]) ++ r.codes (p ++ [true])

theorem CodeTree.syms_length_pos (t : CodeTree) : 0 < t.syms.length := by
  induction t with
  | leaf s => exact Nat.one_pos
  | node l r ihl ihr =>
    rw [syms, List.length_append]
    omega

/-- The bound below is kept at a node with `a` and `b` leaves below its children, since `a + b ≤ a * b + 1`. -/
theorem node_codes_length_le {a b p x y : Nat} (ha : 0 < a) (hb : 0 < b)
    (hx : 2 * x + 2 ≤ 2 * (a * (p + 1)) + a * (a + 1)) (hy : 2 * y + 2 ≤ 2 * (b * (p + 1)) + b * (b + 1)) :
    2 * (x + y) + 2 ≤ 2 * ((a + b) * p) + (a + b) * (a + b + 1) := by
  obtain ⟨a, rfl⟩ := Nat.exists_eq_add_of_lt ha
  obtain ⟨b, rfl⟩ := Nat.exists_eq_add_of_lt hb
  simp only [Nat.mul_add, Nat.add_mul, Nat.zero_add, Nat.mul_one, Nat.one_mul, Nat.mul_comm b a] at *
  omega

/-- The paths of a tree with `k` leaves have at most `k (k + 1) / 2 - 1` bits together: a node puts one bit before each
path of its leaves. -/
theorem CodeTree.sum_codes_length_le (t : CodeTree) (p : BitString) :
    2 * ((t.codes p).map fun e => e.2.length).sum + 2 ≤
      2 * (t.syms.length * p.length) + t.syms.length * (t.syms.length + 1) := by
  induction t generalizing p with
  | leaf s =>
    simp only [codes, syms, List.map_cons, List.map_nil, List.sum_cons, List.sum_nil, List.length_singleton]
    omega
  | node l r ihl ihr =>
    have hl := ihl (p ++ [false])
    have hr := ihr (p ++ [true])
    rw [List.length_append, List.length_singleton] at hl hr
    rw [codes, syms, List.map_append, List.sum_append_nat, List.length_append]
    exact node_codes_length_le l.syms_length_pos r.syms_length_pos hl hr

/-- The records of the arena under handle `h` form the tree `t`, each child with a smaller handle (R45 (f)). -/
inductive TreeAt (arena : List Node) : Nat → CodeTree → Prop where
  | leaf {h : Nat} {s : Byte} {f : Word} : arena[h]? = some (.leaf s f) → TreeAt arena h (.leaf s)
  | node {h l r : Nat} {f : Word} {tl tr : CodeTree} : arena[h]? = some (.internal l (some r) f) → l < h → r < h →
      TreeAt arena l tl → TreeAt arena r tr → TreeAt arena h (.node tl tr)

theorem TreeAt.exists_leaf {arena : List Node} {h : Nat} {s : Byte} (ht : TreeAt arena h (.leaf s)) :
    ∃ f, arena[h]? = some (.leaf s f) := by
  cases ht with
  | leaf hh => exact ⟨_, hh⟩

theorem TreeAt.isInternalAt_node {arena : List Node} {h : Nat} {l r : CodeTree} (ht : TreeAt arena h (.node l r)) :
    isInternalAt arena h = true := by
  cases ht with
  | node hh => rw [isInternalAt, hh]

theorem TreeAt.lt_length {arena : List Node} {h : Nat} {t : CodeTree} (ht : TreeAt arena h t) : h < arena.length := by
  cases ht with
  | leaf hh => exact (List.getElem?_eq_some_iff.mp hh).1
  | node hh => exact (List.getElem?_eq_some_iff.mp hh).1

theorem getElem?_append_of_eq_some {arena : List Node} {h : Nat} {n : Node} (hn : arena[h]? = some n)
    (ext : List Node) : (arena ++ ext)[h]? = some n := by
  rw [List.getElem?_append_left (List.getElem?_eq_some_iff.mp hn).1, hn]

/-- A grown arena holds the same trees. -/
theorem TreeAt.append {arena : List Node} {h : Nat} {t : CodeTree} (ht : TreeAt arena h t) (ext : List Node) :
    TreeAt (arena ++ ext) h t := by
  induction ht with
  | leaf hh => exact .leaf (getElem?_append_of_eq_some hh ext)
  | node hh hl hr _ _ ihl ihr => exact .node (getElem?_append_of_eq_some hh ext) hl hr ihl ihr

/-- Children have smaller handles, so fuel above the handle reaches every leaf. -/
theorem TreeAt.codesBelow_eq {arena : List Node} {h : Nat} {t : CodeTree} (ht : TreeAt arena h t) {fuel : Nat}
    (hfuel : h < fuel) (p : BitString) : codesBelow fuel arena h p = t.codes p := by
  induction ht generalizing fuel p with
  | leaf hh =>
    cases fuel with
    | zero => omega
    | succ fuel => simp only [codesBelow, hh, CodeTree.codes]
  | node hh hl hr _ _ ihl ihr =>
    cases fuel with
    | zero => omega
    | succ fuel =>
      have hbelow := ihl (fuel := fuel) (by omega) (p ++ [false])
      have habove := ihr (fuel := fuel) (by omega) (p ++ [true])
      simp only [codesBelow, hh, CodeTree.codes, hbelow, habove]

/-! ### The merging loop of TBUILD (R108) -/

/-- The queue's handles are the roots of trees whose leaves, all together, are the symbols `syms`; `tree` names the tree of
each. -/
def Forest (arena : List Node) (q : List Nat) (syms : List Byte) : Prop :=
  ∃ tree : Nat → CodeTree, (∀ h ∈ q, TreeAt arena h (tree h)) ∧ (q.flatMap fun h => (tree h).syms).Perm syms

theorem Forest.perm {arena : List Node} {q q' : List Nat} {syms : List Byte} (hf : Forest arena q syms)
    (hq : q'.Perm q) : Forest arena q' syms := by
  obtain ⟨tree, htree, hsyms⟩ := hf
  exact ⟨tree, fun h hh => htree h (hq.mem_iff.mp hh), (hq.flatMap_right _).trans hsyms⟩

theorem queueSort_perm (arena : List Node) (hs : List Nat) : (queueSort arena hs).Perm hs := by
  have hfold : ∀ q, (hs.foldl (queueInsert arena) q).Perm (hs ++ q) := by
    induction hs with
    | nil => exact fun q => .refl q
    | cons h hs ih =>
      exact fun q => (ih _).trans (((queueInsert_perm arena q h).append_left hs).trans List.perm_middle)
  have hsort := hfold []
  rwa [List.append_nil] at hsort

theorem treeLeaves_getElem? (freq : SymTab Word) {ord : List Byte} {h : Nat} (hh : h < ord.length) :
    (treeLeaves freq ord)[h]? = some (.leaf (ord.getD h 0) (symGet freq (ord.getD h 0))) := by
  rw [treeLeaves, List.getElem?_map, List.getD_eq_getElem?_getD, List.getElem?_eq_getElem hh]
  rfl

theorem map_getD_range_length (ord : List Byte) : (List.range ord.length).map (fun h => ord.getD h 0) = ord := by
  refine List.ext_getElem (by rw [List.length_map, List.length_range]) fun h _ hh => ?_
  rw [List.getElem_map, List.getElem_range, List.getD_eq_getElem?_getD, List.getElem?_eq_getElem hh, Option.getD_some]

theorem initialQueue_treeLeaves_perm (freq : SymTab Word) (ord : List Byte) :
    (initialQueue (treeLeaves freq ord)).Perm (List.range ord.length) := by
  rw [initialQueue, show (treeLeaves freq ord).length = ord.length from List.length_map _]
  exact queueSort_perm _ _

/-- After TINIT the queue's trees are the leaves (R103). -/
theorem forest_tinit (freq : SymTab Word) (ord : List Byte) :
    Forest (treeLeaves freq ord) (initialQueue (treeLeaves freq ord)) ord := by
  refine Forest.perm ⟨fun h => .leaf (ord.getD h 0), fun h hh => ?_, ?_⟩ (initialQueue_treeLeaves_perm freq ord)
  · exact .leaf (treeLeaves_getElem? freq (List.mem_range.mp hh))
  · rw [show (fun h => (CodeTree.leaf (ord.getD h 0)).syms) = fun h => [ord.getD h 0] from rfl, ← List.map_eq_flatMap,
      map_getD_range_length]

theorem mergeOnce_cons_cons (arena : List Node) (a b : Nat) (rest : List Nat) :
    mergeOnce arena (a :: b :: rest) =
      (arena ++ [.internal a (some b) (freqAt arena a + freqAt arena b)],
        queueInsert (arena ++ [.internal a (some b) (freqAt arena a + freqAt arena b)]) rest arena.length) := rfl

/-- The trees of the queue, with a new tree at handle `n`. -/
def treeUpdate (tree : Nat → CodeTree) (n : Nat) (t : CodeTree) (h : Nat) : CodeTree := if h = n then t else tree h

theorem treeUpdate_same (tree : Nat → CodeTree) (n : Nat) (t : CodeTree) : treeUpdate tree n t n = t := if_pos rfl

theorem treeUpdate_of_ne (tree : Nat → CodeTree) {n h : Nat} (t : CodeTree) (hne : h ≠ n) :
    treeUpdate tree n t h = tree h := if_neg hne

/-- Merging two trees keeps the symbols. -/
theorem forest_mergeOnce {arena : List Node} {a b : Nat} {rest : List Nat} {syms : List Byte}
    (hf : Forest arena (a :: b :: rest) syms) :
    Forest (mergeOnce arena (a :: b :: rest)).1 (mergeOnce arena (a :: b :: rest)).2 syms := by
  obtain ⟨tree, htree, hsyms⟩ := hf
  obtain ⟨ha, htree⟩ := List.forall_mem_cons.mp htree
  obtain ⟨hb, hrest⟩ := List.forall_mem_cons.mp htree
  have hold : ∀ h ∈ rest, treeUpdate tree arena.length (.node (tree a) (tree b)) h = tree h := fun h hh =>
    treeUpdate_of_ne tree _ (Nat.ne_of_lt (hrest h hh).lt_length)
  rw [mergeOnce_cons_cons]
  refine Forest.perm ⟨treeUpdate tree arena.length (.node (tree a) (tree b)), ?_, ?_⟩ (queueInsert_perm _ _ _)
  · refine List.forall_mem_cons.mpr ⟨?_, fun h hh => ?_⟩
    · rw [treeUpdate_same]
      exact .node List.getElem?_concat_length ha.lt_length hb.lt_length (ha.append _) (hb.append _)
    · rw [hold h hh]
      exact (hrest h hh).append _
  · rw [List.flatMap_cons, treeUpdate_same, CodeTree.syms, List.append_assoc, List.flatMap_def,
      List.map_congr_left fun h hh => congrArg CodeTree.syms (hold h hh)]
    exact hsyms

theorem mergeOnce_cons_cons_queue_length (arena : List Node) (a b : Nat) (rest : List Nat) :
    (mergeOnce arena (a :: b :: rest)).2.length = rest.length + 1 := by
  rw [mergeOnce_cons_cons, (queueInsert_perm _ _ _).length_eq, List.length_cons]

/-- A complete tree over the symbols `syms`: none, the one-symbol tree, or a tree of two or more leaves (R102, R104). -/
inductive Finished (arena : List Node) : List Nat → List Byte → Prop where
  | empty : Finished arena [] []
  | single {h a : Nat} {s : Byte} {f g : Word} : arena[h]? = some (.internal a none f) →
      arena[a]? = some (.leaf s g) → a < h → Finished arena [h] [s]
  | tree {h : Nat} {l r : CodeTree} {syms : List Byte} : TreeAt arena h (.node l r) →
      (CodeTree.node l r).syms.Perm syms → Finished arena [h] syms

/-- The queue of a complete tree is empty or holds its root alone. -/
theorem Finished.queue_cases {arena : List Node} {q : List Nat} {syms : List Byte} (hd : Finished arena q syms) :
    (q = [] ∧ syms = []) ∨ ∃ h, q = [h] ∧ isInternalAt arena h = true := by
  cases hd with
  | empty => exact .inl ⟨rfl, rfl⟩
  | single hh => exact .inr ⟨_, rfl, by rw [isInternalAt, hh]⟩
  | tree ht => exact .inr ⟨_, rfl, ht.isInternalAt_node⟩

theorem Finished.treeDone_eq_true {arena : List Node} {q : List Nat} {syms : List Byte} (hd : Finished arena q syms) :
    treeDone arena q = true := by
  obtain ⟨rfl, -⟩ | ⟨h, rfl, hint⟩ := hd.queue_cases
  · rfl
  · exact hint

theorem treeRoot_singleton {arena : List Node} {h : Nat} (hint : isInternalAt arena h = true) :
    treeRoot arena [h] = some h := by
  rw [treeRoot, if_pos hint]

theorem mergeLoop_of_treeDone {arena : List Node} {q : List Nat} (hd : treeDone arena q = true) (fuel : Nat) :
    mergeLoop fuel arena q = (arena, q) := by
  cases fuel with
  | zero => rfl
  | succ fuel => rw [mergeLoop, if_pos hd]

theorem mergeLoop_succ_of_not_treeDone {arena : List Node} {q : List Nat} (hd : treeDone arena q = false) (fuel : Nat) :
    mergeLoop (fuel + 1) arena q = mergeLoop fuel (mergeOnce arena q).1 (mergeOnce arena q).2 := by
  rw [mergeLoop, hd]
  rfl

theorem Forest.finished_nil {arena : List Node} {syms : List Byte} (hf : Forest arena [] syms) :
    Finished arena [] syms := by
  obtain ⟨tree, -, hsyms⟩ := hf
  obtain rfl := hsyms.nil_eq
  exact .empty

theorem Forest.tree_of_singleton {arena : List Node} {h : Nat} {syms : List Byte} (hf : Forest arena [h] syms) :
    ∃ t, TreeAt arena h t ∧ t.syms.Perm syms := by
  obtain ⟨tree, htree, hsyms⟩ := hf
  rw [List.flatMap_singleton] at hsyms
  exact ⟨tree h, htree h List.mem_cons_self, hsyms⟩

/-- A lone entry is a leaf, which one pass gives its parent, or the root of a finished tree. -/
theorem mergeLoop_finished_singleton {arena : List Node} {h : Nat} {syms : List Byte} (hf : Forest arena [h] syms)
    (fuel : Nat) : Finished (mergeLoop (fuel + 1) arena [h]).1 (mergeLoop (fuel + 1) arena [h]).2 syms := by
  obtain ⟨t, ht, hsyms⟩ := hf.tree_of_singleton
  cases t with
  | leaf s =>
    obtain ⟨f, hh⟩ := ht.exists_leaf
    obtain rfl := hsyms.singleton_eq
    have hlone : treeDone arena [h] = false := by rw [treeDone, isInternalAt, hh]
    have hmerge : mergeOnce arena [h] = (arena ++ [.internal h none f], [arena.length]) := by
      rw [mergeOnce, hh]
    have hdone : Finished (arena ++ [.internal h none f]) [arena.length] [s] :=
      .single List.getElem?_concat_length (getElem?_append_of_eq_some hh _) ht.lt_length
    rw [mergeLoop_succ_of_not_treeDone hlone, hmerge, mergeLoop_of_treeDone hdone.treeDone_eq_true]
    exact hdone
  | node l r =>
    have hdone : Finished arena [h] syms := .tree ht hsyms
    rw [mergeLoop_of_treeDone hdone.treeDone_eq_true]
    exact hdone

/-- The loop ends with a complete tree: each pass takes one entry from the queue, and a lone leaf takes one pass. -/
theorem mergeLoop_finished {fuel : Nat} {arena : List Node} {q : List Nat} {syms : List Byte}
    (hf : Forest arena q syms) (hfuel : q.length ≤ fuel) :
    Finished (mergeLoop fuel arena q).1 (mergeLoop fuel arena q).2 syms := by
  induction fuel generalizing arena q with
  | zero =>
    obtain rfl := List.length_eq_zero_iff.mp (Nat.le_zero.mp hfuel)
    exact hf.finished_nil
  | succ fuel ih =>
    match q, hf with
    | [], hf => exact hf.finished_nil
    | [h], hf => exact mergeLoop_finished_singleton hf fuel
    | a :: b :: rest, hf =>
      rw [mergeLoop_succ_of_not_treeDone rfl]
      refine ih (forest_mergeOnce hf) ?_
      rw [mergeOnce_cons_cons_queue_length]
      exact Nat.le_of_succ_le_succ hfuel

theorem filterMap_leafSym_append_internal (arena : List Node) (l : Nat) (r : Option Nat) (f : Word) :
    (arena ++ [Node.internal l r f]).filterMap leafSym = arena.filterMap leafSym := by
  rw [List.filterMap_append]
  exact List.append_nil _

/-- Merging adds no leaf. -/
theorem mergeOnce_filterMap_leafSym (arena : List Node) (q : List Nat) :
    (mergeOnce arena q).1.filterMap leafSym = arena.filterMap leafSym := by
  match q with
  | [] => rfl
  | [a] =>
    rw [mergeOnce]
    split
    · exact filterMap_leafSym_append_internal arena _ _ _
    · rfl
  | a :: b :: rest => exact filterMap_leafSym_append_internal arena _ _ _

theorem mergeLoop_filterMap_leafSym (fuel : Nat) (arena : List Node) (q : List Nat) :
    (mergeLoop fuel arena q).1.filterMap leafSym = arena.filterMap leafSym := by
  induction fuel generalizing arena q with
  | zero => rfl
  | succ fuel ih =>
    by_cases hd : treeDone arena q
    · rw [mergeLoop_of_treeDone hd]
    · rw [mergeLoop_succ_of_not_treeDone (Bool.eq_false_iff.mpr hd), ih, mergeOnce_filterMap_leafSym]

theorem treeLeaves_filterMap_leafSym (freq : SymTab Word) (ord : List Byte) :
    (treeLeaves freq ord).filterMap leafSym = ord := by
  rw [treeLeaves, List.filterMap_map]
  exact List.filterMap_some

theorem mergeLoop_tinit (freq : SymTab Word) (ord : List Byte) :
    ∃ arena q, mergeLoop ord.length (treeLeaves freq ord) (initialQueue (treeLeaves freq ord)) = (arena, q) ∧
      Finished arena q ord ∧ arena.filterMap leafSym = ord := by
  have hlen : (initialQueue (treeLeaves freq ord)).length = ord.length := by
    rw [(initialQueue_treeLeaves_perm freq ord).length_eq, List.length_range]
  refine ⟨_, _, rfl, mergeLoop_finished (forest_tinit freq ord) (Nat.le_of_eq hlen), ?_⟩
  rw [mergeLoop_filterMap_leafSym, treeLeaves_filterMap_leafSym]

theorem mergeLoopStage_eq (s : State) :
    mergeLoopStage s = .ok (s.setTree (mergeLoop s.ord.length s.node s.pq).1 (mergeLoop s.ord.length s.node s.pq).2) :=
  rfl

theorem assignStage_of_treeDone {s : State} (hd : treeDone s.node s.pq = true) :
    assignStage s = .ok (s.setTable (assignTable s.node s.pq).1 (assignTable s.node s.pq).2) := by
  rcases assignStage_cases s with ⟨-, hok⟩ | ⟨hnot, -⟩
  · exact hok
  · rw [hd] at hnot
    cases hnot

/-- TBUILD never faults: it leaves a complete tree over ORD, whose leaves stand in the order of ORD, and that tree's
table (R108). -/
theorem tbuildStage_finished (s : State) :
    ∃ arena q, Finished arena q s.ord ∧ arena.filterMap leafSym = s.ord ∧
      tbuildStage s = .ok ((s.setTree arena q).setTable (assignTable arena q).1 (assignTable arena q).2) := by
  obtain ⟨arena, q, hloop, hfin, hsyms⟩ := mergeLoop_tinit s.freq s.ord
  have hmerge := mergeLoopStage_eq
    (s.setTree (treeLeaves s.freq s.ord) (initialQueue (treeLeaves s.freq s.ord)))
  rw [State.setTree_ord, State.setTree_node, State.setTree_pq, hloop] at hmerge
  exact ⟨arena, q, hfin, hsyms, andThen_ok.mpr ⟨_, tinitStage_eq s,
    andThen_ok.mpr ⟨_, hmerge, assignStage_of_treeDone hfin.treeDone_eq_true⟩⟩⟩

/-- The state that TBUILD leaves when no fault is recorded (R74, R108). -/
theorem exec_tbuild_of_no_fault {s t : State} (hs : s.fault = none) (h : exec .tbuild s = .next t) :
    ∃ arena q, Finished arena q s.ord ∧ arena.filterMap leafSym = s.ord ∧
      t = ((s.setTree arena q).setTable (assignTable arena q).1 (assignTable arena q).2).complete (opcode .tbuild) := by
  obtain ⟨arena, q, hfin, hsyms, hbody⟩ := tbuildStage_finished s
  rw [exec_eq_runCommand (by decide), State.runCommand_ok (body := bodyOf .tbuild) hs hbody] at h
  exact ⟨arena, q, hfin, hsyms, (Host.Outcome.next.inj h).symm⟩

/-! ### The codes of a complete tree -/

/-- The paths of a complete tree of at most 256 leaves have at most `256 * 257 / 2 - 1` bits together. -/
theorem Finished.sum_codes_length_le {arena : List Node} {q : List Nat} {syms : List Byte}
    (hd : Finished arena q syms) (hsyms : syms.length ≤ 256) {root : Nat} (hroot : treeRoot arena q = some root) :
    ((codesBelow arena.length arena root []).map fun e => e.2.length).sum ≤ 32895 := by
  cases hd with
  | empty => cases hroot
  | @single h a s f g hh ha hlt =>
    obtain rfl : h = root := Option.some.inj ((treeRoot_singleton (by rw [isInternalAt, hh])).symm.trans hroot)
    obtain ⟨fuel, hfuel⟩ : ∃ fuel, arena.length = fuel + 2 :=
      ⟨arena.length - 2, by have := (List.getElem?_eq_some_iff.mp hh).1; omega⟩
    rw [hfuel, codesBelow, hh]
    simp only [codesBelow, ha]
    change 1 ≤ 32895
    decide
  | @tree h l r syms ht hperm =>
    obtain rfl : h = root := Option.some.inj ((treeRoot_singleton ht.isInternalAt_node).symm.trans hroot)
    have hbound := (CodeTree.node l r).sum_codes_length_le []
    have hsq : syms.length * (syms.length + 1) ≤ 256 * 257 := Nat.mul_le_mul hsyms (by omega)
    rw [hperm.length_eq, List.length_nil, Nat.mul_zero] at hbound
    rw [ht.codesBelow_eq ht.lt_length]
    omega

theorem Finished.eq_nil_of_treeRoot_eq_none {arena : List Node} {q : List Nat} {syms : List Byte}
    (hd : Finished arena q syms) (hroot : treeRoot arena q = none) : syms = [] := by
  obtain ⟨-, rfl⟩ | ⟨h, rfl, hint⟩ := hd.queue_cases
  · rfl
  · rw [treeRoot_singleton hint] at hroot
    cases hroot

theorem assignTable_of_treeRoot {arena : List Node} {q : List Nat} {root : Nat} (hroot : treeRoot arena q = some root) :
    assignTable arena q = (assignCodes (codesBelow arena.length arena root []) (arena.filterMap leafSym),
      arena.filterMap leafSym) := by
  rw [assignTable, hroot]

theorem assignTable_of_treeRoot_eq_none {arena : List Node} {q : List Nat} (hroot : treeRoot arena q = none) :
    assignTable arena q = (Vector.replicate 256 [], []) := by
  rw [assignTable, hroot]

/-- The table of a complete tree lists the tree's symbols, and their codes have at most 32895 bits together. -/
theorem Finished.assignTable_bounded {arena : List Node} {q : List Nat} {syms : List Byte}
    (hd : Finished arena q syms) (harena : arena.filterMap leafSym = syms) (hsyms : syms.Nodup) :
    (assignTable arena q).2 = syms ∧
      (syms.map fun b => (symGet (assignTable arena q).1 b).length).sum ≤ 32895 := by
  cases hroot : treeRoot arena q with
  | none =>
    obtain rfl := hd.eq_nil_of_treeRoot_eq_none hroot
    rw [assignTable_of_treeRoot_eq_none hroot]
    exact ⟨rfl, Nat.zero_le _⟩
  | some root =>
    have hcodes := sum_codeIn_length_le hsyms (codesBelow arena.length arena root [])
    rw [assignTable_of_treeRoot hroot, harena,
      List.map_congr_left fun b hb => congrArg List.length ((symGet_assignCodes _ syms b).trans (if_pos hb))]
    exact ⟨rfl, Nat.le_trans hcodes (hd.sum_codes_length_le (length_le_256 hsyms) hroot)⟩

/-! ### The bounds (R7, R141) -/

/-- Settles O58: 2195 bytes are not code characters; the codes of a tree have at most 32895 bits together, and any 256
codes of at most 255 bits have 65280. -/
theorem serTableLengthIsBounded : Obligations.SerTableLengthIsBounded := by
  refine ⟨fun s t _ hfreq hs h => ?_, fun ct ord htab => ?_⟩
  · obtain ⟨arena, q, hfin, harena, rfl⟩ := exec_tbuild_of_no_fault hs h
    obtain ⟨hord, hcodes⟩ := hfin.assignTable_bounded harena hfreq.1
    have htext := tableText_length_le hfreq.1 (assignTable arena q).1
    rw [State.complete_ct, State.complete_ctOrd, State.setTable_ct, State.setTable_ctOrd, hord]
    omega
  · obtain ⟨hnodup, -, hlen, -⟩ := htab
    have htext := tableText_length_le hnodup ct
    have hcodes := sum_map_le_length_mul (l := ord) hlen
    have hcard := length_le_256 hnodup
    omega

end Sys2Proof.Machine
end

section
/-! PROOFS of the family 10_state.md, first part: the counters of FREQ, the payload of PACK and UNPACK, and what DESER
accepts, each with its part of R45. -/

namespace Sys2Proof.Machine

theorem nodup_concat {α : Type} {l : List α} {a : α} (hl : l.Nodup) (ha : a ∉ l) : (l ++ [a]).Nodup :=
  List.nodup_append.mpr ⟨hl, List.pairwise_singleton _ a, fun _ hb _ hc hbc =>
    ha (List.mem_singleton.mp hc ▸ hbc ▸ hb)⟩

/-! ### FREQ: counters and first occurrences (R36, R37, R95, R96) -/

/-- The counters `f` and the list `o` of the symbols present are those of the bytes `seen`. -/
structure Counted (seen : List Byte) (f : SymTab Word) (o : List Byte) : Prop where
  count : ∀ b, (symGet f b).toNat = seen.count b
  nodup : o.Nodup
  mem : ∀ b, b ∈ o ↔ b ∈ seen

theorem counted_nil : Counted [] (Vector.replicate 256 0) [] where
  count b := by rw [symGet_replicate]; rfl
  nodup := .nil
  mem _ := .rfl

theorem Counted.symGet_eq_zero_iff {seen : List Byte} {f : SymTab Word} {o : List Byte} (hc : Counted seen f o)
    (b : Byte) : symGet f b = 0 ↔ b ∉ seen := by
  rw [← List.count_eq_zero, ← hc.count b, ← BitVec.toNat_inj]
  rfl

theorem Counted.mem_ord_iff {seen : List Byte} {f : SymTab Word} {o : List Byte} (hc : Counted seen f o) (b : Byte) :
    b ∈ o ↔ symGet f b ≠ 0 := by
  rw [hc.mem, Ne, hc.symGet_eq_zero_iff, Classical.not_not]

/-- One byte more: its counter goes up by one, without wrapping (R36), and a first occurrence is listed. -/
theorem Counted.push {seen : List Byte} {f : SymTab Word} {o : List Byte} (hc : Counted seen f o) (s : Byte)
    (hlen : seen.length + 1 < 2 ^ 32) :
    Counted (seen ++ [s]) (symSet f s (symGet f s + 1)) (if symGet f s = 0 then o ++ [s] else o) where
  count b := by
    rw [symGet_symSet, List.count_append, List.count_singleton]
    by_cases hb : s = b
    · subst hb
      have hle := List.count_le_length (a := s) (l := seen)
      have hs := hc.count s
      rw [if_pos rfl, BitVec.toNat_add, hs, beq_self_eq_true, if_pos rfl]
      exact Nat.mod_eq_of_lt (by rw [show (1 : Word).toNat = 1 from rfl]; omega)
    · rw [if_neg hb, hc.count b, beq_eq_false_iff_ne.mpr hb]
      rfl
  nodup := by
    split
    · next hs =>
      have hnew : s ∉ o := fun h => (hc.mem_ord_iff s).mp h hs
      exact nodup_concat hc.nodup hnew
    · exact hc.nodup
  mem b := by
    split
    · rw [List.mem_append, List.mem_append, hc.mem]
    · next hs =>
      have hold : s ∈ seen := Classical.not_not.mp fun h => hs ((hc.symGet_eq_zero_iff s).mpr h)
      rw [hc.mem, List.mem_append, List.mem_singleton]
      exact ⟨.inl, fun h => h.elim id fun h => h ▸ hold⟩

theorem counted_freqScan {data seen : List Byte} {f : SymTab Word} {o : List Byte} (hc : Counted seen f o)
    (hlen : seen.length + data.length < 2 ^ 32) :
    Counted (seen ++ data) (freqScan data f o).1 (freqScan data f o).2 := by
  induction data generalizing seen f o with
  | nil => rwa [List.append_nil]
  | cons s rest ih =>
    rw [List.length_cons] at hlen
    have hstep := ih (hc.push s (by omega)) (by rw [List.length_append, List.length_singleton]; omega)
    rwa [List.append_assoc, List.singleton_append] at hstep

theorem nodup_allSyms : allSyms.Nodup := by decide +kernel

theorem counted_freqBuild (order : SymOrder) {data : List Byte} (hlen : data.length < 2 ^ 32) :
    Counted data (freqBuild order data).1 (freqBuild order data).2 := by
  have hscan := counted_freqScan (data := data) counted_nil (by simpa using hlen)
  rw [List.nil_append] at hscan
  cases order with
  | firstOccurrence => exact hscan
  | ascending =>
    refine ⟨hscan.count, List.Pairwise.filter _ nodup_allSyms, fun b => ?_⟩
    rw [freqBuild, List.mem_filter, bne_iff_ne, ← hscan.mem_ord_iff, hscan.mem]
    exact and_iff_right (mem_allSyms b)

/-- Each byte is counted at one symbol of a list without repetition that holds it. -/
theorem sum_count_eq_length {o seen : List Byte} (ho : o.Nodup) (hsub : ∀ b ∈ seen, b ∈ o) :
    (o.map fun b => seen.count b).sum = seen.length := by
  induction seen with
  | nil => exact Nat.le_zero.mp (sum_map_le_length_mul (k := 0) fun _ => Nat.le_refl 0)
  | cons s seen ih =>
    obtain ⟨hs, hsub⟩ := List.forall_mem_cons.mp hsub
    have hperm := List.perm_cons_erase hs
    have hothers : (o.erase s).map (fun b => (s :: seen).count b) = (o.erase s).map fun b => seen.count b :=
      List.map_congr_left fun b hb => List.count_cons_of_ne (ho.mem_erase_iff.mp hb).1.symm
    have hlen := ih hsub
    rw [(hperm.map _).sum_nat, List.map_cons, List.sum_cons] at hlen
    rw [(hperm.map _).sum_nat, List.map_cons, List.sum_cons, hothers, List.count_cons_self, List.length_cons]
    omega

/-- The counts of the symbols present sum to the number of bytes (R97). -/
theorem Counted.sum_counts {seen : List Byte} {f : SymTab Word} {o : List Byte} (hc : Counted seen f o) :
    (o.map fun b => (symGet f b).toNat).sum = seen.length := by
  rw [List.map_congr_left fun b _ => hc.count b]
  exact sum_count_eq_length hc.nodup fun b hb => (hc.mem b).mpr hb

theorem freqOk_setFreq_freqBuild {s : State} (hcap : s.cfg.bufCap < 2 ^ 32) (hin : s.inBuf.length ≤ s.cfg.bufCap)
    (order : SymOrder) : FreqOk (s.setFreq (freqBuild order s.inBuf).1 (freqBuild order s.inBuf).2) := by
  have hc := counted_freqBuild order (Nat.lt_of_le_of_lt hin hcap)
  exact ⟨hc.nodup, hc.mem_ord_iff, Nat.le_trans (Nat.le_of_eq hc.sum_counts) hin⟩

/-! ### PACK and UNPACK (R130, R132) -/

theorem packBits_snd_length (bits : BitString) :
    8 * (packBits bits).2.length = bits.length + padCount bits.length := by
  rw [packBits, chunks8_length, padded, List.length_append, List.length_replicate, padCount]
  omega

theorem packBits_snd_length_le {bits : BitString} {cap : Nat} (h : bits.length ≤ 8 * cap) :
    (packBits bits).2.length ≤ cap := by
  have hlen := packBits_snd_length bits
  rw [padCount] at hlen
  omega

/-- Only a bit string with a last, unfilled byte is padded. -/
theorem payOk_packBits (bits : BitString) : PayOk (packBits bits).1 (packBits bits).2 := by
  intro hpad hpay
  have hlen := packBits_snd_length bits
  rw [hpay, List.length_nil] at hlen
  refine hpad ?_
  rw [packBits, show padCount bits.length = 0 by omega]
  rfl

theorem unpackBits_length_le (pad : BitVec 3) (pay : List Byte) : (unpackBits pad pay).length ≤ 8 * pay.length := by
  rw [unpackBits]
  exact Nat.le_trans (List.length_take_le _ _) (Nat.sub_le _ _)

/-! ### DESER: what it commits (R142 to R147) -/

/-- All checks passed, in the order of R142, and what they answered. -/
theorem deserialise_ok {c : List Byte} {d : Parts} (h : deserialise c = .ok d) :
    ∃ p len t es, lengthField c = .ok (p, len) ∧ tableStart p len = .ok t ∧
      tableEntries (slice c t p) = .ok es ∧ tableValues es = .ok (d.ct, d.ctOrd) ∧
      padCheck (c.headD 0) (slice c 1 (t - 1)) = .ok d.pad ∧ d.pay = slice c 1 (t - 1) := by
  unfold deserialise at h
  split at h
  · cases h
  next p len hlen =>
  split at h
  · cases h
  next t ht =>
  split at h
  · cases h
  next es hes =>
  split at h
  · cases h
  next ct ord hvals =>
  simp only at h
  split at h
  · cases h
  next pad hpad =>
  cases h
  exact ⟨p, len, t, es, hlen, ht, hes, hvals, hpad, rfl⟩

theorem slice_length_le (c : List Byte) (i j : Nat) : (slice c i j).length ≤ c.length := by
  rw [slice, List.length_drop]
  exact Nat.le_trans (Nat.sub_le _ _) (List.length_take_le' _ _)

theorem payOk_of_padCheck {pad : Byte} {payload : List Byte} {p : BitVec 3} (h : padCheck pad payload = .ok p) :
    PayOk p payload := by
  unfold padCheck at h
  split at h
  · cases h
  split at h
  · cases h
  next hempty =>
  cases h
  intro hp hpay
  have hzero : pad.toNat = 0 := Nat.eq_zero_of_not_pos fun hpos => hempty ⟨hpos, hpay⟩
  exact hp (by rw [BitVec.eq_of_toNat_eq (y := 0) hzero]; rfl)

/-- Entries that pass the checks of R146 one by one: keys without repetition, codes of 1 to 255 bits. -/
def EntriesOk (vs : List (Byte × BitString)) : Prop :=
  (vs.map Prod.fst).Nodup ∧ ∀ e ∈ vs, e.2 ≠ [] ∧ e.2.length ≤ 255

theorem EntriesOk.concat {vs : List (Byte × BitString)} (hvs : EntriesOk vs) {e : Byte × BitString}
    (hkey : e.1 ∉ vs.map Prod.fst) (hpos : e.2 ≠ []) (hle : e.2.length ≤ 255) : EntriesOk (vs ++ [e]) := by
  obtain ⟨hnodup, hcodes⟩ := hvs
  refine ⟨?_, List.forall_mem_append.mpr ⟨hcodes, List.forall_mem_singleton.mpr ⟨hpos, hle⟩⟩⟩
  rw [List.map_append]
  exact nodup_concat hnodup hkey

theorem entriesOk_entryValues {es : List RawEntry} {done vs : List (Byte × BitString)} (hdone : EntriesOk done)
    (h : entryValues es done = .ok vs) : EntriesOk vs := by
  induction es generalizing done with
  | nil => cases h; exact hdone
  | cons e rest ih =>
    simp only [entryValues] at h
    split at h
    · cases h
    next hrange =>
    split at h
    · cases h
    next hdup =>
    split at h
    · cases h
    next hpos =>
    split at h
    · cases h
    next hlen =>
    refine ih (hdone.concat ?_ (fun hnil => hpos (congrArg List.length hnil)) (Nat.le_of_not_lt hlen)) h
    intro hmem
    obtain ⟨d, hd, hkey⟩ := List.mem_map.mp hmem
    refine hdup (List.any_eq_true.mpr ⟨d, hd, beq_iff_eq.mpr ?_⟩)
    rw [hkey, BitVec.toNat_ofNat]
    exact Nat.mod_eq_of_lt (by omega)

theorem codesPrefixFree_iff (codes : List BitString) :
    codesPrefixFree codes = true ↔ codes.Pairwise fun c d => isprefix c d = false ∧ isprefix d c = false := by
  induction codes with
  | nil => simp [codesPrefixFree]
  | cons c rest ih => simp [codesPrefixFree, ih]

/-- A table written from entries without a repeated key reads, at each key, that entry's code. -/
theorem symGet_foldl_symSet_entries {α : Type} {vs : List (Byte × α)} (hkeys : (vs.map Prod.fst).Nodup) (t : SymTab α) :
    (∀ e ∈ vs, symGet (vs.foldl (fun t v => symSet t v.1 v.2) t) e.1 = e.2) ∧
      ∀ b ∉ vs.map Prod.fst, symGet (vs.foldl (fun t v => symSet t v.1 v.2) t) b = symGet t b := by
  induction vs generalizing t with
  | nil => exact ⟨fun _ he => (nomatch he), fun _ _ => rfl⟩
  | cons v vs ih =>
    obtain ⟨hv, hkeys⟩ := List.nodup_cons.mp hkeys
    obtain ⟨hget, hkeep⟩ := ih hkeys (symSet t v.1 v.2)
    refine ⟨List.forall_mem_cons.mpr ⟨(hkeep v.1 hv).trans (symGet_symSet_same t v.1 v.2), hget⟩, fun b hb => ?_⟩
    obtain ⟨hne, hb⟩ := List.ne_and_not_mem_of_not_mem_cons hb
    rw [List.foldl_cons, hkeep b hb, symGet_symSet, if_neg hne.symm]

theorem tableOk_tableValues {es : List RawEntry} {ct : SymTab BitString} {ord : List Byte}
    (h : tableValues es = .ok (ct, ord)) : TableOk ct ord := by
  unfold tableValues at h
  split at h
  · cases h
  next vs hvs =>
  by_cases hprefix : codesPrefixFree (vs.map (·.2)) = true
  case neg =>
    rw [if_neg hprefix] at h
    cases h
  rw [if_pos hprefix] at h
  cases h
  obtain ⟨hkeys, hcodes⟩ := entriesOk_entryValues (done := []) ⟨.nil, fun _ he => nomatch he⟩ hvs
  obtain ⟨hget, hkeep⟩ := symGet_foldl_symSet_entries hkeys (Vector.replicate 256 [])
  have hpair := List.pairwise_map.mp ((codesPrefixFree_iff _).mp hprefix)
  have hfree := List.Pairwise.forall_of_forall_of_flip (R := fun d e => d ≠ e → isprefix d.2 e.2 = false)
    (fun _ _ hne => absurd rfl hne) (hpair.imp fun h _ => h.1) (hpair.imp fun h _ => h.2)
  have hread : ∀ b ∈ vs.map Prod.fst, ∃ e ∈ vs, e.1 = b ∧
      symGet (vs.foldl (fun t v => symSet t v.1 v.2) (Vector.replicate 256 [])) b = e.2 := fun b hb => by
    obtain ⟨e, he, rfl⟩ := List.mem_map.mp hb
    exact ⟨e, he, rfl, hget e he⟩
  refine ⟨hkeys, fun b => ⟨fun hb => ?_, fun hb => ?_⟩, fun b => ?_, fun b hb c hc hne => ?_⟩
  · obtain ⟨e, he, -, hcode⟩ := hread b hb
    exact hcode ▸ (hcodes e he).1
  · refine Decidable.byContradiction fun hnot => ?_
    exact hb ((hkeep b hnot).trans (symGet_replicate [] b))
  · by_cases hb : b ∈ vs.map Prod.fst
    · obtain ⟨e, he, -, hcode⟩ := hread b hb
      exact hcode ▸ (hcodes e he).2
    · rw [hkeep b hb, symGet_replicate]
      exact Nat.zero_le _
  · obtain ⟨d, hd, rfl, hdcode⟩ := hread b hb
    obtain ⟨e, he, rfl, hecode⟩ := hread c hc
    rw [hdcode, hecode]
    exact hfree hd he fun h => hne (congrArg Prod.fst h)

/-- What DESER commits satisfies R45: the payload is part of the container, and the table passed every check. -/
theorem deserialise_parts_ok {c : List Byte} {d : Parts} (h : deserialise c = .ok d) :
    d.pay.length ≤ c.length ∧ PayOk d.pad d.pay ∧ TableOk d.ct d.ctOrd := by
  obtain ⟨p, len, t, es, -, -, -, hvals, hpad, hpay⟩ := deserialise_ok h
  rw [hpay]
  exact ⟨slice_length_le _ _ _, payOk_of_padCheck hpad, tableOk_tableValues hvals⟩

end Sys2Proof.Machine
end

section
/-! PROOFS of the family 10_state.md, second part: the tree of R45 (e) to (i).  Each handle stands exactly once, in the
queue or as a child; TINIT and TMERGE keep that, and the finished tree gives a table as R45 (b) and (c) ask. -/

namespace Sys2Proof.Machine

/-! ### One record -/

theorem isLeafAt_iff {arena : List Node} {h : Nat} :
    isLeafAt arena h = true ↔ ∃ s f, arena[h]? = some (.leaf s f) := by
  unfold isLeafAt
  split
  · next s f hh => simp [hh]
  · next hnot => simpa using hnot

theorem isInternalAt_iff {arena : List Node} {h : Nat} :
    isInternalAt arena h = true ↔ ∃ l r f, arena[h]? = some (.internal l r f) := by
  unfold isInternalAt
  split
  · next l r f hh => simp [hh]
  · next hnot => simpa using hnot

theorem freqAt_of_eq_some {arena : List Node} {h : Nat} {n : Node} (hh : arena[h]? = some n) :
    freqAt arena h = nodeFreq n := by
  rw [freqAt, hh]

theorem nodeOkAt_leaf {arena : List Node} {h : Nat} {s : Byte} {f : Word} (hh : arena[h]? = some (.leaf s f)) :
    nodeOkAt arena h = true := by
  rw [nodeOkAt, hh]

theorem nodeOkAt_pair {arena : List Node} {h l r : Nat} {f : Word} (hh : arena[h]? = some (.internal l (some r) f)) :
    nodeOkAt arena h = true ↔ l < h ∧ r < h ∧ f.toNat = leafTotal arena h := by
  simp [nodeOkAt, hh, and_assoc]

theorem nodeOkAt_lone {arena : List Node} {h l : Nat} {f : Word} (hh : arena[h]? = some (.internal l none f)) :
    nodeOkAt arena h = true ↔
      l < h ∧ (arena.length = 2 ∧ h = 1 ∧ isLeafAt arena 0 = true) ∧ f.toNat = leafTotal arena h := by
  simp [nodeOkAt, hh, and_assoc]

/-- R45 (f): a child's handle is below its parent's. -/
theorem child_lt_of_nodeOkAt {arena : List Node} {h c : Nat} {n : Node} (hh : arena[h]? = some n)
    (hok : nodeOkAt arena h = true) (hc : c ∈ childrenOf n) : c < h := by
  match n with
  | .leaf s f => cases hc
  | .internal l none f =>
    obtain rfl := List.mem_singleton.mp hc
    exact ((nodeOkAt_lone hh).mp hok).1
  | .internal l (some r) f =>
    obtain ⟨hl, hr, -⟩ := (nodeOkAt_pair hh).mp hok
    rcases List.mem_cons.mp hc with rfl | hc
    · exact hl
    · obtain rfl := List.mem_singleton.mp hc
      exact hr

theorem exists_parent_of_mem_childList {arena : List Node} {c : Nat} (hc : c ∈ childList arena) :
    ∃ (h : Nat) (n : Node), arena[h]? = some n ∧ c ∈ childrenOf n := by
  obtain ⟨n, hn, hc⟩ := List.mem_flatMap.mp hc
  obtain ⟨h, hh⟩ := List.mem_iff_getElem?.mp hn
  exact ⟨h, n, hh, hc⟩

/-! ### The tree of R45, each handle counted once -/

/-- R45 (e) to (i) and R38 with the handles counted: each stands exactly once, in the queue or as a child.  What else
`TreeOk` says follows (`treeOk_iff`). -/
structure TreeInv (cap : Nat) (arena : List Node) (q : List Nat) : Prop where
  sorted : q.Pairwise fun g h => queueBefore arena g h = true
  handles : (q ++ childList arena).Perm (List.range arena.length)
  nodes : ∀ h < arena.length, nodeOkAt arena h = true
  leavesFirst : ∀ h < arena.length, isLeafAt arena h = decide (h < leafCount arena)
  symsNodup : (arena.filterMap leafSym).Nodup
  freqs : (q.map fun h => (freqAt arena h).toNat).sum ≤ cap

theorem TreeOk.treeInv {cap : Nat} {arena : List Node} {q : List Nat} (h : TreeOk cap arena q) :
    TreeInv cap arena q := by
  obtain ⟨hsorted, hq, hroots, hall, hchildren, hnodes, hleaves, hsyms, -, -, -, hfreqs⟩ := h
  refine ⟨hsorted, ?_, hnodes, hleaves, hsyms, hfreqs⟩
  have hnodup : (q ++ childList arena).Nodup := 
    List.nodup_append.mpr ⟨hq, hchildren, fun h hh c hc hhc => (hroots h hh).2 (hhc ▸ hc)⟩
  refine (List.perm_ext_iff_of_nodup hnodup List.nodup_range).mpr fun c => ?_
  rw [List.mem_append, List.mem_range]
  refine ⟨fun hc => hc.elim (fun hc => (hroots c hc).1) fun hc => ?_, fun hc => ?_⟩
  · obtain ⟨h, n, hh, hc⟩ := exists_parent_of_mem_childList hc
    have hlt := (List.getElem?_eq_some_iff.mp hh).1
    exact Nat.lt_trans (child_lt_of_nodeOkAt hh (hnodes h hlt) hc) hlt
  · exact (Decidable.em (c ∈ childList arena)).elim .inr fun hnot => .inl (hall c hc hnot)

section
variable {cap : Nat} {arena : List Node} {q : List Nat}

theorem TreeInv.lt_length (hi : TreeInv cap arena q) {h : Nat} (hh : h ∈ q) : h < arena.length :=
  List.mem_range.mp (hi.handles.mem_iff.mp (List.mem_append_left _ hh))

/-- A child of a record comes before a record of the arena, so it is not the last. -/
theorem TreeInv.succ_lt_of_mem_childList (hi : TreeInv cap arena q) {c : Nat} (hc : c ∈ childList arena) :
    c + 1 < arena.length := by
  obtain ⟨h, n, hh, hc⟩ := exists_parent_of_mem_childList hc
  have hlt := (List.getElem?_eq_some_iff.mp hh).1
  have := child_lt_of_nodeOkAt hh (hi.nodes h hlt) hc
  omega

/-- The newest record is nobody's child, so it waits in the queue. -/
theorem TreeInv.last_mem_queue (hi : TreeInv cap arena q) (hpos : 0 < arena.length) : arena.length - 1 ∈ q := by
  have hmem := hi.handles.mem_iff.mpr (List.mem_range.mpr (Nat.sub_lt hpos Nat.one_pos))
  refine (List.mem_append.mp hmem).resolve_right fun hc => ?_
  have := hi.succ_lt_of_mem_childList hc
  omega

theorem TreeInv.queue_eq_nil_iff (hi : TreeInv cap arena q) : q = [] ↔ arena = [] := by
  refine ⟨fun hq => ?_, fun ha => ?_⟩
  · refine Decidable.byContradiction fun ha => ?_
    have hlast := hi.last_mem_queue (List.length_pos_iff.mpr ha)
    rw [hq] at hlast
    cases hlast
  · have hperm := hi.handles
    rw [ha] at hperm
    exact (List.append_eq_nil_iff.mp hperm.eq_nil).1

end

/-! ### Full binary trees and the one-symbol tree -/

/-- Every internal record has two children: every tree but the one-symbol tree of R104. -/
def Paired (arena : List Node) : Prop := ∀ l f, Node.internal l none f ∉ arena

/-- A lone child occurs in the one-symbol tree only (R45 (f)). -/
theorem TreeInv.paired_or_single {cap : Nat} {arena : List Node} {q : List Nat} (hi : TreeInv cap arena q) :
    Paired arena ∨ ∃ s g f, arena = [.leaf s g, .internal 0 none f] ∧ q = [1] := by
  by_cases hp : Paired arena
  · exact .inl hp
  simp only [Paired, Classical.not_forall, Classical.not_not] at hp
  obtain ⟨l, f, hmem⟩ := hp
  obtain ⟨h, hh⟩ := List.mem_iff_getElem?.mp hmem
  obtain ⟨hl, ⟨hlen, rfl, hleaf⟩, -⟩ := (nodeOkAt_lone hh).mp (hi.nodes h (List.getElem?_eq_some_iff.mp hh).1)
  obtain rfl : l = 0 := by omega
  obtain ⟨s, g, hs⟩ := isLeafAt_iff.mp hleaf
  obtain ⟨x, tail, rfl⟩ := List.exists_cons_of_length_eq_add_one hlen
  obtain ⟨y, rfl⟩ := List.length_eq_one_iff.mp (Nat.succ.inj hlen)
  obtain rfl : x = .leaf s g := Option.some.inj hs
  obtain rfl : y = .internal 0 none f := Option.some.inj hh
  have hq : (q ++ [0]).Perm ([1] ++ [0]) := hi.handles.trans (.swap 1 0 [])
  exact .inr ⟨s, g, f, rfl, List.perm_singleton.mp ((List.perm_append_right_iff [0]).mp hq)⟩

/-- In a full binary tree each internal record has two children. -/
theorem Paired.childList_length {arena : List Node} (hp : Paired arena) :
    (childList arena).length + 2 * leafCount arena = 2 * arena.length := by
  induction arena with
  | nil => rfl
  | cons n arena ih =>
    have htail := ih fun l f hmem => hp l f (List.mem_cons_of_mem n hmem)
    rw [leafCount] at htail ⊢
    rw [childList, List.flatMap_cons, List.length_append, List.length_cons, ← childList]
    match n with
    | .leaf s f =>
      rw [List.filterMap_cons_some (f := leafSym) (b := s) rfl, List.length_cons, childrenOf, List.length_nil]
      omega
    | .internal l none f => exact absurd List.mem_cons_self (hp l f)
    | .internal l (some r) f =>
      rw [List.filterMap_cons_none rfl, show (childrenOf (.internal l (some r) f)).length = 2 from rfl]
      omega

/-- R7, R39: the bounds on the queue and the arena, counted from the leaves. -/
theorem TreeInv.length_le {cap : Nat} {arena : List Node} {q : List Nat} (hi : TreeInv cap arena q) :
    arena.length ≤ 511 ∧ q.length ≤ 256 := by
  rcases hi.paired_or_single with hp | ⟨s, g, f, rfl, rfl⟩
  · have hcount := hp.childList_length
    have hhandles := hi.handles.length_eq
    have hleaves : leafCount arena ≤ 256 := length_le_256 hi.symsNodup
    have hle : leafCount arena ≤ arena.length := List.length_filterMap_le _ _
    rw [List.length_append, List.length_range] at hhandles
    rcases Nat.eq_zero_or_pos arena.length with hzero | hpos
    · omega
    · have hq := List.length_pos_of_mem (hi.last_mem_queue hpos)
      omega
  · exact ⟨Nat.le_add_left 2 509, Nat.le_add_left 1 255⟩

theorem TreeInv.treeOk {cap : Nat} {arena : List Node} {q : List Nat} (hi : TreeInv cap arena q) :
    TreeOk cap arena q := by
  have hnodup := hi.handles.nodup_iff.mpr List.nodup_range
  obtain ⟨hq, hchildren, hdisjoint⟩ := List.nodup_append.mp hnodup
  obtain ⟨harena, hqueue⟩ := hi.length_le
  refine ⟨hi.sorted, hq, fun h hh => ⟨hi.lt_length hh, fun hc => hdisjoint h hh h hc rfl⟩, fun h hh hnot => ?_, hchildren, hi.nodes,
    hi.leavesFirst, hi.symsNodup, hi.queue_eq_nil_iff, harena, hqueue, hi.freqs⟩
  exact (List.mem_append.mp (hi.handles.mem_iff.mpr (List.mem_range.mpr hh))).resolve_right hnot

theorem treeOk_iff {cap : Nat} {arena : List Node} {q : List Nat} : TreeOk cap arena q ↔ TreeInv cap arena q :=
  ⟨TreeOk.treeInv, TreeInv.treeOk⟩

/-! ### The forest of a queue -/

/-- In a full binary tree every record is the root of a tree: children come before their parents. -/
theorem Paired.exists_treeAt {arena : List Node} (hp : Paired arena)
    (hnodes : ∀ h < arena.length, nodeOkAt arena h = true) {h : Nat} (hh : h < arena.length) :
    ∃ t, TreeAt arena h t := by
  induction h using Nat.strongRecOn with
  | ind h ih =>
    match hn : arena[h]? with
    | none => exact absurd (List.getElem?_eq_none_iff.mp hn) (Nat.not_le_of_lt hh)
    | some (.leaf s f) => exact ⟨_, .leaf hn⟩
    | some (.internal l none f) => exact absurd (List.mem_of_getElem? hn) (hp l f)
    | some (.internal l (some r) f) =>
      obtain ⟨hl, hr, -⟩ := (nodeOkAt_pair hn).mp (hnodes h hh)
      obtain ⟨tl, htl⟩ := ih l hl (Nat.lt_trans hl hh)
      obtain ⟨tr, htr⟩ := ih r hr (Nat.lt_trans hr hh)
      exact ⟨_, .node hn hl hr htl htr⟩

theorem TreeAt.unique {arena : List Node} {h : Nat} {t u : CodeTree} (ht : TreeAt arena h t) (hu : TreeAt arena h u) :
    t = u := by
  induction ht generalizing u with
  | leaf hh =>
    cases hu with
    | leaf hh' => cases hh.symm.trans hh'; rfl
    | node hh' => cases hh.symm.trans hh'
  | node hh _ _ _ _ ihl ihr =>
    cases hu with
    | leaf hh' => cases hh.symm.trans hh'
    | node hh' _ _ hl hr =>
      cases hh.symm.trans hh'
      rw [ihl hl, ihr hr]

/-- The symbols below a record, when `tree` names the tree at each handle: its own or those of its children. -/
def symsUnder (tree : Nat → CodeTree) (n : Node) : List Byte :=
  (leafSym n).toList ++ (childrenOf n).flatMap fun c => (tree c).syms

theorem syms_eq_symsUnder {arena : List Node} {tree : Nat → CodeTree}
    (htree : ∀ h < arena.length, TreeAt arena h (tree h)) {h : Nat} {n : Node} (hh : arena[h]? = some n) :
    (tree h).syms = symsUnder tree n := by
  have hlt := (List.getElem?_eq_some_iff.mp hh).1
  generalize tree h = t, htree h hlt = ht
  cases ht with
  | leaf hh' => cases hh'.symm.trans hh; rfl
  | node hh' hl hr htl htr =>
    cases hh'.symm.trans hh
    rw [htl.unique (htree _ (Nat.lt_trans hl hlt)), htr.unique (htree _ (Nat.lt_trans hr hlt))]
    simp [CodeTree.syms, symsUnder, leafSym, childrenOf]

/-- What each record contributes in two parts can be listed part by part. -/
theorem flatMap_append_split {α β : Type} (l : List α) (f g : α → List β) :
    (l.flatMap fun x => f x ++ g x).Perm (l.flatMap f ++ l.flatMap g) := by
  induction l with
  | nil => exact .nil
  | cons x l ih =>
    rw [List.flatMap_cons, List.flatMap_cons, List.flatMap_cons, List.append_assoc, List.append_assoc]
    exact ((ih.append_left _).trans (List.perm_append_comm_assoc _ _ _)).append_left _

theorem filterMap_leafSym_eq_flatMap (arena : List Node) :
    arena.filterMap leafSym = arena.flatMap fun n => (leafSym n).toList := by
  induction arena with
  | nil => rfl
  | cons n arena ih =>
    rw [List.flatMap_cons, ← ih]
    cases n <;> rfl

/-- Over all handles, the symbols below are the leaves' own and once more those below each child. -/
theorem flatMap_syms_perm {arena : List Node} {tree : Nat → CodeTree}
    (htree : ∀ h < arena.length, TreeAt arena h (tree h)) :
    ((List.range arena.length).flatMap fun h => (tree h).syms).Perm
      (arena.filterMap leafSym ++ (childList arena).flatMap fun c => (tree c).syms) := by
  have hrecords : (List.range arena.length).map (fun h => (tree h).syms) = arena.map (symsUnder tree) := by
    refine List.ext_getElem (by simp) fun h hh _ => ?_
    have hlt : h < arena.length := by simpa using hh
    rw [List.getElem_map, List.getElem_range, List.getElem_map]
    exact syms_eq_symsUnder htree (List.getElem?_eq_getElem hlt)
  rw [List.flatMap_def, hrecords, ← List.flatMap_def, filterMap_leafSym_eq_flatMap, childList, List.flatMap_assoc]
  exact flatMap_append_split _ _ _

/-- The trees in the queue hold each leaf of the arena once. -/
theorem TreeInv.forest {cap : Nat} {arena : List Node} {q : List Nat} (hi : TreeInv cap arena q) (hp : Paired arena) :
    Forest arena q (arena.filterMap leafSym) := by
  have hex : ∀ h, ∃ t, h < arena.length → TreeAt arena h t := fun h => by
    by_cases hh : h < arena.length
    · exact (hp.exists_treeAt hi.nodes hh).imp fun t ht _ => ht
    · exact ⟨.leaf 0, fun hlt => absurd hlt hh⟩
  obtain ⟨tree, htree⟩ := Classical.axiomOfChoice hex
  refine ⟨tree, fun h hh => htree h (hi.lt_length hh), ?_⟩
  have hsplit := (hi.handles.flatMap_right fun h => (tree h).syms).trans (flatMap_syms_perm htree)
  rw [List.flatMap_append] at hsplit
  exact (List.perm_append_right_iff _).mp hsplit

/-- R102: a tree marked complete is complete. -/
theorem TreeInv.finished {cap : Nat} {arena : List Node} {q : List Nat} (hi : TreeInv cap arena q)
    (hdone : treeDone arena q = true) : Finished arena q (arena.filterMap leafSym) := by
  rcases hi.paired_or_single with hp | ⟨s, g, f, rfl, rfl⟩
  · match q, hi, hdone with
    | [], hi, _ => exact (hi.forest hp).finished_nil
    | [h], hi, hdone =>
      obtain ⟨t, ht, hsyms⟩ := (hi.forest hp).tree_of_singleton
      cases t with
      | leaf s =>
        obtain ⟨f, hh⟩ := ht.exists_leaf
        rw [treeDone, isInternalAt, hh] at hdone
        cases hdone
      | node l r => exact .tree ht hsyms
  · exact .single (h := 1) rfl rfl Nat.one_pos

/-! ### Frequencies (R45 (h)) -/

theorem TreeAt.leavesBelow_append {arena : List Node} {h : Nat} {t : CodeTree} (ht : TreeAt arena h t)
    (ext : List Node) {fuel fuel' : Nat} (hfuel : h < fuel) (hfuel' : h < fuel') :
    leavesBelow fuel (arena ++ ext) h = leavesBelow fuel' arena h := by
  induction ht generalizing fuel fuel' with
  | leaf hh =>
    obtain ⟨fuel, rfl⟩ := Nat.exists_eq_succ_of_ne_zero (Nat.ne_zero_of_lt hfuel)
    obtain ⟨fuel', rfl⟩ := Nat.exists_eq_succ_of_ne_zero (Nat.ne_zero_of_lt hfuel')
    simp only [leavesBelow, getElem?_append_of_eq_some hh, hh]
  | node hh hl hr _ _ ihl ihr =>
    obtain ⟨fuel, rfl⟩ := Nat.exists_eq_succ_of_ne_zero (Nat.ne_zero_of_lt hfuel)
    obtain ⟨fuel', rfl⟩ := Nat.exists_eq_succ_of_ne_zero (Nat.ne_zero_of_lt hfuel')
    simp only [leavesBelow, getElem?_append_of_eq_some hh, hh]
    rw [ihl (fuel := fuel) (fuel' := fuel') (by omega) (by omega),
      ihr (fuel := fuel) (fuel' := fuel') (by omega) (by omega)]

theorem lt_length_of_mem_leavesBelow {fuel : Nat} {arena : List Node} {h g : Nat}
    (hg : g ∈ leavesBelow fuel arena h) : g < arena.length := by
  induction fuel generalizing h with
  | zero => cases hg
  | succ fuel ih =>
    rw [leavesBelow] at hg
    split at hg
    · cases hg
    · next hh =>
      obtain rfl := List.mem_singleton.mp hg
      exact (List.getElem?_eq_some_iff.mp hh).1
    · rcases List.mem_append.mp hg with hg | hg
      · exact ih hg
      · split at hg
        · exact ih hg
        · cases hg

/-- The leaves below a handle count the same in a grown arena. -/
theorem TreeAt.leafTotal_append {arena : List Node} {h : Nat} {t : CodeTree} (ht : TreeAt arena h t)
    (ext : List Node) : leafTotal (arena ++ ext) h = leafTotal arena h := by
  have hlt := ht.lt_length
  rw [leafTotal, leafTotal, ht.leavesBelow_append ext (fuel' := arena.length) (by rw [List.length_append]; omega) hlt]
  refine congrArg List.sum (List.map_congr_left fun g hg => ?_)
  rw [freqAt_append_of_lt (lt_length_of_mem_leavesBelow hg)]

theorem leafTotal_leaf {arena : List Node} {h : Nat} {s : Byte} {f : Word} (hh : arena[h]? = some (.leaf s f)) :
    leafTotal arena h = f.toNat := by
  have hlt := (List.getElem?_eq_some_iff.mp hh).1
  obtain ⟨fuel, hfuel⟩ := Nat.exists_eq_succ_of_ne_zero (Nat.ne_zero_of_lt hlt)
  rw [leafTotal, hfuel]
  simp only [leavesBelow, hh, List.map_singleton, List.sum_singleton, freqAt_of_eq_some hh, nodeFreq]

theorem leafTotal_node {arena : List Node} {h l r : Nat} {f : Word} {tl tr : CodeTree}
    (hh : arena[h]? = some (.internal l (some r) f)) (hl : l < h) (hr : r < h) (htl : TreeAt arena l tl)
    (htr : TreeAt arena r tr) : leafTotal arena h = leafTotal arena l + leafTotal arena r := by
  have hlt := (List.getElem?_eq_some_iff.mp hh).1
  obtain ⟨fuel, hfuel⟩ := Nat.exists_eq_succ_of_ne_zero (Nat.ne_zero_of_lt hlt)
  have hleft := htl.leavesBelow_append [] (fuel := fuel) (fuel' := fuel + 1) (by omega) (by omega)
  have hright := htr.leavesBelow_append [] (fuel := fuel) (fuel' := fuel + 1) (by omega) (by omega)
  rw [List.append_nil] at hleft hright
  simp only [leafTotal, hfuel]
  rw [← hleft, ← hright, leavesBelow, hh]
  simp only [List.map_append, List.sum_append]

/-- R45 (h) for any record of a full binary tree, leaves included. -/
theorem Paired.freqAt_eq_leafTotal {arena : List Node} (hp : Paired arena) {h : Nat} (hh : h < arena.length)
    (hok : nodeOkAt arena h = true) : (freqAt arena h).toNat = leafTotal arena h := by
  match hn : arena[h]? with
  | none => exact absurd (List.getElem?_eq_none_iff.mp hn) (Nat.not_le_of_lt hh)
  | some (.leaf s f) => rw [freqAt_of_eq_some hn, leafTotal_leaf hn, nodeFreq]
  | some (.internal l none f) => exact absurd (List.mem_of_getElem? hn) (hp l f)
  | some (.internal l (some r) f) =>
    rw [freqAt_of_eq_some hn]
    exact ((nodeOkAt_pair hn).mp hok).2.2

/-! ### TINIT (R103) -/

theorem queueSort_sorted (arena : List Node) {hs : List Nat} (hnodup : hs.Nodup) :
    (queueSort arena hs).Pairwise fun g h => queueBefore arena g h = true := by
  have hfold : ∀ q : List Nat, (∀ h ∈ hs, h ∉ q) → (q.Pairwise fun g h => queueBefore arena g h = true) →
      (hs.foldl (queueInsert arena) q).Pairwise fun g h => queueBefore arena g h = true := by
    induction hs with
    | nil => exact fun q _ hq => hq
    | cons h hs ih =>
      obtain ⟨hnot, hnodup⟩ := List.nodup_cons.mp hnodup
      intro q hdisjoint hq
      obtain ⟨hh, hrest⟩ := List.forall_mem_cons.mp hdisjoint
      refine ih hnodup _ (fun g hg hmem => ?_) (queueInsert_sorted hh hq)
      rcases mem_queueInsert.mp hmem with rfl | hmem
      · exact hnot hg
      · exact hrest g hg hmem
  exact hfold [] (fun _ _ => List.not_mem_nil) .nil

theorem childList_treeLeaves (freq : SymTab Word) (ord : List Byte) : childList (treeLeaves freq ord) = [] := by
  refine List.flatMap_eq_nil_iff.mpr fun n hn => ?_
  obtain ⟨s, -, rfl⟩ := List.mem_map.mp hn
  rfl

theorem freqAt_treeLeaves (freq : SymTab Word) {ord : List Byte} {h : Nat} (hh : h < ord.length) :
    freqAt (treeLeaves freq ord) h = symGet freq (ord.getD h 0) := by
  rw [freqAt_of_eq_some (treeLeaves_getElem? freq hh), nodeFreq]

theorem treeInv_tinit {freq : SymTab Word} {ord : List Byte} {cap : Nat} (hord : ord.Nodup)
    (hsum : (ord.map fun b => (symGet freq b).toNat).sum ≤ cap) :
    TreeInv cap (treeLeaves freq ord) (initialQueue (treeLeaves freq ord)) := by
  have hlen : (treeLeaves freq ord).length = ord.length := List.length_map _
  have hsyms := treeLeaves_filterMap_leafSym freq ord
  refine ⟨queueSort_sorted _ List.nodup_range, ?_, fun h hh => ?_, fun h hh => ?_, by rwa [hsyms], ?_⟩
  · rw [childList_treeLeaves, List.append_nil, hlen]
    exact initialQueue_treeLeaves_perm freq ord
  · exact nodeOkAt_leaf (treeLeaves_getElem? freq (hlen ▸ hh))
  · rw [leafCount, hsyms, decide_eq_true (hlen ▸ hh)]
    exact isLeafAt_iff.mpr ⟨_, _, treeLeaves_getElem? freq (hlen ▸ hh)⟩
  · have hfreqs : (List.range ord.length).map (fun h => (freqAt (treeLeaves freq ord) h).toNat) =
        ord.map fun b => (symGet freq b).toNat := by
      rw [List.map_congr_left fun h hh => congrArg BitVec.toNat (freqAt_treeLeaves freq (List.mem_range.mp hh)),
        show (fun h => (symGet freq (ord.getD h 0)).toNat) = (fun b => (symGet freq b).toNat) ∘ fun h => ord.getD h 0
          from rfl, ← List.map_map, map_getD_range_length]
    rw [((initialQueue_treeLeaves_perm freq ord).map _).sum_nat, hfreqs]
    exact hsum

/-! ### TMERGE (R104) -/

theorem queueBefore_append {arena : List Node} {g h : Nat} (hg : g < arena.length) (hh : h < arena.length)
    (ext : List Node) : queueBefore (arena ++ ext) g h = queueBefore arena g h := by
  rw [queueBefore, queueBefore, freqAt_append_of_lt hg, freqAt_append_of_lt hh]

theorem isLeafAt_append {arena : List Node} {h : Nat} (hh : h < arena.length) (ext : List Node) :
    isLeafAt (arena ++ ext) h = isLeafAt arena h := by
  rw [isLeafAt, isLeafAt, List.getElem?_append_left hh]

theorem leafCount_append_internal (arena : List Node) (l : Nat) (r : Option Nat) (f : Word) :
    leafCount (arena ++ [.internal l r f]) = leafCount arena := by
  rw [leafCount, filterMap_leafSym_append_internal, leafCount]

/-- A lone leaf in the queue is the whole arena: leaves come first, and the newest record is in the queue. -/
theorem TreeInv.eq_singleton_of_leaf {cap : Nat} {arena : List Node} {a : Nat} {s : Byte} {f : Word}
    (hi : TreeInv cap arena [a]) (ha : arena[a]? = some (.leaf s f)) : arena = [.leaf s f] ∧ a = 0 := by
  have hlt := hi.lt_length List.mem_cons_self
  obtain hlast : arena.length - 1 = a := List.mem_singleton.mp (hi.last_mem_queue (by omega))
  have hleaf := hi.leavesFirst a hlt
  rw [isLeafAt_iff.mpr ⟨s, f, ha⟩] at hleaf
  have hcount := of_decide_eq_true hleaf.symm
  have hchildren : childList arena = [] := by
    refine List.eq_nil_iff_forall_not_mem.mpr fun c hc => ?_
    obtain ⟨h, n, hh, hc⟩ := exists_parent_of_mem_childList hc
    have hhlt := (List.getElem?_eq_some_iff.mp hh).1
    obtain ⟨s', f', hh'⟩ := isLeafAt_iff.mp ((hi.leavesFirst h hhlt).trans (decide_eq_true (by omega)))
    cases hh.symm.trans hh'
    cases hc
  have hlen := hi.handles.length_eq
  rw [hchildren, List.append_nil, List.length_singleton, List.length_range] at hlen
  obtain ⟨n, rfl⟩ := List.length_eq_one_iff.mp hlen.symm
  obtain rfl : a = 0 := by simpa using hlast.symm
  exact ⟨congrArg (fun n => [n]) (Option.some.inj ha), rfl⟩

/-- The one-symbol tree (R104). -/
theorem treeInv_single {cap : Nat} (s : Byte) {f : Word} (hcap : f.toNat ≤ cap) :
    TreeInv cap [.leaf s f, .internal 0 none f] [1] where
  sorted := List.pairwise_singleton _ _
  handles := .swap 0 1 []
  nodes h hh := by
    match h, hh with
    | 0, _ => rfl
    | 1, _ =>
      refine (nodeOkAt_lone (l := 0) (f := f) rfl).mpr ⟨Nat.one_pos, ⟨rfl, rfl, rfl⟩, ?_⟩
      simp [leafTotal, leavesBelow, freqAt, nodeFreq]
  leavesFirst h hh := by
    match h, hh with
    | 0, _ => rfl
    | 1, _ => rfl
  symsNodup := List.pairwise_singleton _ s
  freqs := hcap

/-- In a grown arena a record keeps R45 (f) and (h). -/
theorem Paired.nodeOkAt_append {arena : List Node} (hp : Paired arena)
    (hnodes : ∀ h < arena.length, nodeOkAt arena h = true) {h : Nat} (hh : h < arena.length) (ext : List Node) :
    nodeOkAt (arena ++ ext) h = true := by
  match hn : arena[h]? with
  | none => exact absurd (List.getElem?_eq_none_iff.mp hn) (Nat.not_le_of_lt hh)
  | some (.leaf s f) => exact nodeOkAt_leaf (getElem?_append_of_eq_some hn ext)
  | some (.internal l none f) => exact absurd (List.mem_of_getElem? hn) (hp l f)
  | some (.internal l (some r) f) =>
    obtain ⟨t, ht⟩ := hp.exists_treeAt hnodes hh
    rw [nodeOkAt_pair (getElem?_append_of_eq_some hn ext), ht.leafTotal_append ext]
    exact (nodeOkAt_pair hn).mp (hnodes h hh)

/-- Merging moves two handles from the queue to the children and adds one. -/
theorem merged_handles_perm (n a b : Nat) (rest children : List Nat) :
    (n :: rest ++ (children ++ [a, b])).Perm ((a :: b :: rest ++ children) ++ [n]) := by
  refine List.perm_iff_count.mpr fun x => ?_
  simp only [List.count_append, List.count_cons, List.count_nil]
  omega

/-- The two lowest merged: their frequencies add without wrapping (R38), and the new handle takes their place. -/
theorem TreeInv.merge_pair {cap : Nat} {arena : List Node} {a b : Nat} {rest : List Nat}
    (hi : TreeInv cap arena (a :: b :: rest)) (hcap : cap < 2 ^ 32) :
    TreeInv cap (mergeOnce arena (a :: b :: rest)).1 (mergeOnce arena (a :: b :: rest)).2 := by
  have hp : Paired arena := hi.paired_or_single.resolve_right fun ⟨_, _, _, _, hq⟩ => nomatch hq
  have ha : a < arena.length := hi.lt_length List.mem_cons_self
  have hb : b < arena.length := hi.lt_length (List.mem_cons_of_mem a List.mem_cons_self)
  have hrest : ∀ h ∈ rest, h < arena.length := fun h hh =>
    hi.lt_length (List.mem_cons_of_mem a (List.mem_cons_of_mem b hh))
  have hfreqs := hi.freqs
  rw [List.map_cons, List.map_cons, List.sum_cons, List.sum_cons] at hfreqs
  have hadd : (freqAt arena a + freqAt arena b).toNat = (freqAt arena a).toNat + (freqAt arena b).toNat := by
    rw [BitVec.toNat_add]
    exact Nat.mod_eq_of_lt (by omega)
  rw [mergeOnce_cons_cons]
  generalize freqAt arena a + freqAt arena b = f at hadd
  have hnew : (arena ++ [Node.internal a (some b) f])[arena.length]? = some (.internal a (some b) f) :=
    List.getElem?_concat_length
  have hlast : ∀ {h}, h < (arena ++ [Node.internal a (some b) f]).length → h < arena.length ∨ h = arena.length :=
    fun hh => by rw [List.length_append, List.length_singleton] at hh; omega
  refine ⟨queueInsert_sorted (fun hmem => Nat.lt_irrefl _ (hrest _ hmem)) ?_, ?_, fun h hh => ?_, fun h hh => ?_, ?_, ?_⟩
  · obtain ⟨-, hsorted⟩ := List.pairwise_cons.mp hi.sorted
    refine (List.pairwise_cons.mp hsorted).2.imp_of_mem fun hg hh hbefore => ?_
    rwa [queueBefore_append (hrest _ hg) (hrest _ hh)]
  · rw [childList_append, List.length_append, List.length_singleton, List.range_succ]
    exact ((queueInsert_perm _ rest arena.length).append_right _).trans
      ((merged_handles_perm _ a b rest _).trans (hi.handles.append_right _))
  · rcases hlast hh with hh | rfl
    · exact hp.nodeOkAt_append hi.nodes hh _
    · obtain ⟨ta, hta⟩ := hp.exists_treeAt hi.nodes ha
      obtain ⟨tb, htb⟩ := hp.exists_treeAt hi.nodes hb
      refine (nodeOkAt_pair hnew).mpr ⟨ha, hb, ?_⟩
      rw [leafTotal_node hnew ha hb (hta.append _) (htb.append _), hta.leafTotal_append, htb.leafTotal_append,
        ← hp.freqAt_eq_leafTotal ha (hi.nodes a ha), ← hp.freqAt_eq_leafTotal hb (hi.nodes b hb), hadd]
  · rw [leafCount_append_internal]
    rcases hlast hh with hh | rfl
    · rw [isLeafAt_append hh, hi.leavesFirst h hh]
    · have hcount : leafCount arena ≤ arena.length := List.length_filterMap_le leafSym arena
      rw [isLeafAt, hnew, decide_eq_false (Nat.not_lt.mpr hcount)]
  · rw [filterMap_leafSym_append_internal]
    exact hi.symsNodup
  · rw [((queueInsert_perm _ rest arena.length).map _).sum_nat, List.map_cons, List.sum_cons, freqAt_append_last, nodeFreq,
      hadd, List.map_congr_left fun h hh => congrArg BitVec.toNat (freqAt_append_of_lt (hrest h hh))]
    omega

theorem TreeInv.mergeOnce {cap : Nat} {arena : List Node} {q : List Nat} (hi : TreeInv cap arena q)
    (hcap : cap < 2 ^ 32) : TreeInv cap (mergeOnce arena q).1 (mergeOnce arena q).2 := by
  match q, hi with
  | [], hi => exact hi
  | [a], hi =>
    rw [Machine.mergeOnce]
    split
    · next s f ha =>
      obtain ⟨rfl, rfl⟩ := hi.eq_singleton_of_leaf ha
      exact treeInv_single s hi.freqs
    · exact hi
  | a :: b :: rest, hi => exact hi.merge_pair hcap

theorem TreeInv.mergeLoop {cap : Nat} {arena : List Node} {q : List Nat} (hi : TreeInv cap arena q)
    (hcap : cap < 2 ^ 32) (fuel : Nat) : TreeInv cap (mergeLoop fuel arena q).1 (mergeLoop fuel arena q).2 := by
  induction fuel generalizing arena q with
  | zero => exact hi
  | succ fuel ih =>
    rw [Machine.mergeLoop]
    split
    · exact hi
    · exact ih (hi.mergeOnce hcap)

end Sys2Proof.Machine
end

section
/-! PROOFS of the family 10_state.md, third part: the codes of a complete tree, and R45 (b) and (c) of the table that
ASSIGN records. -/

namespace Sys2Proof.Machine

/-! ### Paths (R107) -/

/-- The path to a symbol: at each node to the side that holds it, the left one first. -/
def CodeTree.path : CodeTree → Byte → BitString
  | .leaf _, _ => []
  | .node l r, b => if b ∈ l.syms then false :: l.path b else true :: r.path b

theorem CodeTree.path_node_of_mem {l r : CodeTree} {b : Byte} (hb : b ∈ l.syms) :
    (CodeTree.node l r).path b = false :: l.path b := if_pos hb

theorem CodeTree.path_node_of_not_mem {l r : CodeTree} {b : Byte} (hb : b ∉ l.syms) :
    (CodeTree.node l r).path b = true :: r.path b := if_neg hb

theorem CodeTree.map_fst_codes (t : CodeTree) (p : BitString) : (t.codes p).map Prod.fst = t.syms := by
  induction t generalizing p with
  | leaf s => rfl
  | node l r ihl ihr => rw [codes, syms, List.map_append, ihl, ihr]

theorem codeIn_append_of_mem {cs : List (Byte × BitString)} {b : Byte} (hb : b ∈ cs.map Prod.fst)
    (ds : List (Byte × BitString)) : codeIn (cs ++ ds) b = codeIn cs b := by
  induction cs with
  | nil => cases hb
  | cons e cs ih =>
    rw [List.cons_append, codeIn_cons, codeIn_cons]
    split
    · rfl
    · next hne => exact ih ((List.mem_cons.mp hb).resolve_left (Ne.symm hne))

theorem codeIn_append_of_not_mem {cs : List (Byte × BitString)} {b : Byte} (hb : b ∉ cs.map Prod.fst)
    (ds : List (Byte × BitString)) : codeIn (cs ++ ds) b = codeIn ds b := by
  induction cs with
  | nil => rfl
  | cons e cs ih =>
    obtain ⟨hne, hb⟩ := List.ne_and_not_mem_of_not_mem_cons hb
    rw [List.cons_append, codeIn_cons_of_ne hne.symm, ih hb]

/-- The listed code of a symbol is its path. -/
theorem CodeTree.codeIn_codes {t : CodeTree} {b : Byte} (hb : b ∈ t.syms) (p : BitString) :
    codeIn (t.codes p) b = p ++ t.path b := by
  induction t generalizing p with
  | leaf s =>
    obtain rfl := List.mem_singleton.mp hb
    rw [codes, codeIn_cons, if_pos rfl, path, List.append_nil]
  | node l r ihl ihr =>
    by_cases hl : b ∈ l.syms
    · rw [codes, codeIn_append_of_mem (by rwa [map_fst_codes]), ihl hl, path_node_of_mem hl, List.append_assoc]
      rfl
    · have hr : b ∈ r.syms := (List.mem_append.mp hb).resolve_left hl
      rw [codes, codeIn_append_of_not_mem (by rwa [map_fst_codes]), ihr hr, path_node_of_not_mem hl, List.append_assoc]
      rfl

/-- A path passes a node for each leaf it leaves aside, at most. -/
theorem CodeTree.path_length_lt (t : CodeTree) (b : Byte) : (t.path b).length < t.syms.length := by
  induction t with
  | leaf s => exact Nat.one_pos
  | node l r ihl ihr =>
    have hl := l.syms_length_pos
    have hr := r.syms_length_pos
    rw [syms, List.length_append]
    by_cases hb : b ∈ l.syms
    · rw [path_node_of_mem hb, List.length_cons]
      omega
    · rw [path_node_of_not_mem hb, List.length_cons]
      omega

theorem CodeTree.path_node_ne_nil (l r : CodeTree) (b : Byte) : (CodeTree.node l r).path b ≠ [] := by
  by_cases hb : b ∈ l.syms
  · rw [path_node_of_mem hb]
    exact List.cons_ne_nil _ _
  · rw [path_node_of_not_mem hb]
    exact List.cons_ne_nil _ _

/-- The paths to two symbols part at the node that has them on different sides. -/
theorem CodeTree.not_path_prefix {t : CodeTree} {b c : Byte} (hb : b ∈ t.syms) (hc : c ∈ t.syms) (hne : b ≠ c) :
    ¬ t.path b <+: t.path c := by
  induction t with
  | leaf s => exact absurd ((List.mem_singleton.mp hb).trans (List.mem_singleton.mp hc).symm) hne
  | node l r ihl ihr =>
    by_cases hbl : b ∈ l.syms <;> by_cases hcl : c ∈ l.syms
    · rw [path_node_of_mem hbl, path_node_of_mem hcl, List.cons_prefix_cons]
      exact fun h => ihl hbl hcl h.2
    · rw [path_node_of_mem hbl, path_node_of_not_mem hcl, List.cons_prefix_cons]
      exact fun h => nomatch h.1
    · rw [path_node_of_not_mem hbl, path_node_of_mem hcl, List.cons_prefix_cons]
      exact fun h => nomatch h.1
    · rw [path_node_of_not_mem hbl, path_node_of_not_mem hcl, List.cons_prefix_cons]
      exact fun h => ihr ((List.mem_append.mp hb).resolve_left hbl) ((List.mem_append.mp hc).resolve_left hcl) h.2

/-! ### The table of ASSIGN (R106) -/

theorem isprefix_eq_false_iff {a b : BitString} : isprefix a b = false ↔ ¬ a <+: b := by
  rw [isprefix, ← List.isPrefixOf_iff_prefix, Bool.not_eq_true]

theorem tableOk_assignCodes {codes : List (Byte × BitString)} {syms : List Byte} (hsyms : syms.Nodup)
    (hpos : ∀ b ∈ syms, codeIn codes b ≠ []) (hlen : ∀ b ∈ syms, (codeIn codes b).length ≤ 255)
    (hprefix : ∀ b ∈ syms, ∀ c ∈ syms, b ≠ c → ¬ codeIn codes b <+: codeIn codes c) :
    TableOk (assignCodes codes syms) syms := by
  have hread : ∀ b ∈ syms, symGet (assignCodes codes syms) b = codeIn codes b := fun b hb =>
    (symGet_assignCodes codes syms b).trans (if_pos hb)
  have hnone : ∀ b ∉ syms, symGet (assignCodes codes syms) b = [] := fun b hb =>
    (symGet_assignCodes codes syms b).trans (if_neg hb)
  refine ⟨hsyms, fun b => ⟨fun hb => hread b hb ▸ hpos b hb, fun hb => ?_⟩, fun b => ?_, fun b hb c hc hne => ?_⟩
  · refine Decidable.byContradiction fun hnot => ?_
    exact hb (hnone b hnot)
  · by_cases hb : b ∈ syms
    · exact hread b hb ▸ hlen b hb
    · rw [hnone b hb]
      exact Nat.zero_le _
  · rw [hread b hb, hread c hc, isprefix_eq_false_iff]
    exact hprefix b hb c hc hne

/-- The table of the empty block. -/
theorem tableOk_empty : TableOk (Vector.replicate 256 []) [] := by
  refine ⟨.nil, fun b => ?_, fun b => ?_, fun _ hb => nomatch hb⟩
  · rw [symGet_replicate]
    exact ⟨fun hb => (nomatch hb), fun hne => absurd rfl hne⟩
  · rw [symGet_replicate]
    exact Nat.zero_le _

/-- In the one-symbol tree the walk of R107 lists the code `0`. -/
theorem codesBelow_single {arena : List Node} {h a : Nat} {s : Byte} {f g : Word}
    (hh : arena[h]? = some (.internal a none f)) (ha : arena[a]? = some (.leaf s g)) (hlt : a < h) :
    codesBelow arena.length arena h [] = [(s, [false])] := by
  obtain ⟨fuel, hfuel⟩ : ∃ fuel, arena.length = fuel + 2 :=
    ⟨arena.length - 2, by have := (List.getElem?_eq_some_iff.mp hh).1; omega⟩
  rw [hfuel]
  simp only [codesBelow, hh, ha]
  rfl

/-- R109 for any complete tree: the table of ASSIGN has one code of 1 to 255 bits per leaf, none the
beginning of another. -/
theorem Finished.tableOk {arena : List Node} {q : List Nat} {syms : List Byte} (hd : Finished arena q syms)
    (harena : arena.filterMap leafSym = syms) (hsyms : syms.Nodup) :
    TableOk (assignTable arena q).1 (assignTable arena q).2 := by
  cases hd with
  | empty => exact tableOk_empty
  | @single h a s f g hh ha hlt =>
    rw [assignTable_of_treeRoot (treeRoot_singleton (isInternalAt_iff.mpr ⟨_, _, _, hh⟩)), harena,
      codesBelow_single hh ha hlt]
    have hcode : ∀ b ∈ [s], codeIn [(s, [false])] b = [false] := fun b hb => by
      rw [List.mem_singleton.mp hb, codeIn_cons, if_pos rfl]
    refine tableOk_assignCodes hsyms (fun b hb => ?_) (fun b hb => ?_) fun b hb c hc hne => ?_
    · rw [hcode b hb]
      exact List.cons_ne_nil _ _
    · rw [hcode b hb]
      exact Nat.le_add_left 1 254
    · exact absurd ((List.mem_singleton.mp hb).trans (List.mem_singleton.mp hc).symm) hne
  | @tree h l r _ ht hperm =>
    rw [assignTable_of_treeRoot (treeRoot_singleton ht.isInternalAt_node), harena, ht.codesBelow_eq ht.lt_length]
    have hcode : ∀ b ∈ syms, codeIn ((CodeTree.node l r).codes []) b = (CodeTree.node l r).path b := fun b hb => by
      rw [CodeTree.codeIn_codes (hperm.mem_iff.mpr hb), List.nil_append]
    refine tableOk_assignCodes hsyms (fun b hb => ?_) (fun b hb => ?_) fun b hb c hc hne => ?_
    · rw [hcode b hb]
      exact CodeTree.path_node_ne_nil l r b
    · have hlt := (CodeTree.node l r).path_length_lt b
      have hle := length_le_256 hsyms
      rw [hperm.length_eq] at hlt
      rw [hcode b hb]
      omega
    · rw [hcode b hb, hcode c hc]
      exact CodeTree.not_path_prefix (hperm.mem_iff.mpr hb) (hperm.mem_iff.mpr hc) hne

/-- R45 (b) and (c) after ASSIGN, from any complete tree that satisfies R45. -/
theorem TreeInv.tableOk_assignTable {cap : Nat} {arena : List Node} {q : List Nat} (hi : TreeInv cap arena q)
    (hdone : treeDone arena q = true) : TableOk (assignTable arena q).1 (assignTable arena q).2 :=
  (hi.finished hdone).tableOk rfl hi.symsNodup

end Sys2Proof.Machine
end

section
/-! PROOFS of the family 10_state.md, fourth part: the invariant of R45, kept by every write of an element, by every
stage, by every command and by every host access. -/

namespace Sys2Proof.Machine

theorem params_wellFormed_iff (p : Params) : p.wellFormed = true ↔ 64 ≤ p.bufCap ∧ p.bufCap ≤ 2 ^ 24 := by
  simp [Params.wellFormed]

theorem Inv.cfg_wellFormed {s : State} (h : Inv s) : s.cfg.wellFormed = true := h.1

theorem Inv.bufCap_le {s : State} (h : Inv s) : s.cfg.bufCap ≤ 2 ^ 24 :=
  ((params_wellFormed_iff s.cfg).mp h.cfg_wellFormed).2

theorem Inv.bufCap_lt {s : State} (h : Inv s) : s.cfg.bufCap < 2 ^ 32 := Nat.lt_of_le_of_lt h.bufCap_le (by decide)

theorem Inv.freqOk {s : State} (h : Inv s) : FreqOk s := by
  obtain ⟨-, hfreq, -⟩ := h
  exact hfreq

theorem Inv.tableOk {s : State} (h : Inv s) : TableOk s.ct s.ctOrd := by
  obtain ⟨-, -, -, htable, -⟩ := h
  exact htable

theorem Inv.buffers {s : State} (h : Inv s) : s.inBuf.length ≤ s.cfg.bufCap ∧ s.pay.length ≤ s.cfg.bufCap ∧
    s.out.length ≤ s.cfg.bufCap ∧ s.bits.length ≤ 8 * s.cfg.bufCap := by
  obtain ⟨-, -, -, -, -, hmem, -⟩ := h
  exact (memory_wf_iff s).mp hmem

theorem Inv.treeInv {s : State} (h : Inv s) : TreeInv s.cfg.bufCap s.node s.pq := by
  obtain ⟨-, -, htree, -⟩ := h
  exact treeOk_iff.mp htree

/-! ### Writing the elements -/

section
variable {s : State} (h : Inv s)
include h

theorem Inv.setIn {v : List Byte} (hv : v.length ≤ s.cfg.bufCap) : Inv (s.setIn v) := by
  obtain ⟨hcfg, hfreq, htree, htable, hpay, hmem, hstatus⟩ := h
  exact ⟨hcfg, hfreq, htree, htable, hpay, memory_wf_setIn hmem hv, hstatus⟩

theorem Inv.setFreq {f : SymTab Word} {o : List Byte} (hf : FreqOk (s.setFreq f o)) : Inv (s.setFreq f o) := by
  obtain ⟨hcfg, -, htree, htable, hpay, hmem, hstatus⟩ := h
  exact ⟨hcfg, hf, htree, htable, hpay, hmem, hstatus⟩

theorem Inv.setTree {n : List Node} {q : List Nat} (hi : TreeInv s.cfg.bufCap n q) : Inv (s.setTree n q) := by
  obtain ⟨hcfg, hfreq, -, htable, hpay, hmem, hstatus⟩ := h
  exact ⟨hcfg, hfreq, hi.treeOk, htable, hpay, hmem, hstatus⟩

theorem Inv.setTable {c : SymTab BitString} {o : List Byte} (ht : TableOk c o) : Inv (s.setTable c o) := by
  obtain ⟨hcfg, hfreq, htree, -, hpay, hmem, hstatus⟩ := h
  exact ⟨hcfg, hfreq, htree, ht, hpay, hmem, hstatus⟩

theorem Inv.setBits {b : BitString} (hb : b.length ≤ 8 * s.cfg.bufCap) : Inv (s.setBits b) := by
  obtain ⟨hcfg, hfreq, htree, htable, hpay, hmem, hstatus⟩ := h
  exact ⟨hcfg, hfreq, htree, htable, hpay, memory_wf_setBits hmem hb, hstatus⟩

theorem Inv.setPay {p : BitVec 3} {v : List Byte} (hp : PayOk p v) (hv : v.length ≤ s.cfg.bufCap) :
    Inv (s.setPay p v) := by
  obtain ⟨hcfg, hfreq, htree, htable, -, hmem, hstatus⟩ := h
  exact ⟨hcfg, hfreq, htree, htable, hp, memory_wf_setPay hmem p hv, hstatus⟩

/-- Only an unfaulted block fills OUT (R183). -/
theorem Inv.setOut (hs : s.fault = none) {v : List Byte} (hv : v.length ≤ s.cfg.bufCap) : Inv (s.setOut v) := by
  obtain ⟨hcfg, hfreq, htree, htable, hpay, hmem, hfinfo, -, hlast⟩ := h
  exact ⟨hcfg, hfreq, htree, htable, hpay, memory_wf_setOut hmem hv, hfinfo, fun hne => absurd hs hne, hlast⟩

theorem Inv.raise (r : Raise) : Inv (s.raise r) := by
  obtain ⟨hcfg, hfreq, htree, htable, hpay, hmem, -, -, hlast⟩ := h
  exact ⟨hcfg, hfreq, htree, htable, hpay, memory_wf_raise hmem r, fun hnone => (nomatch hnone),
    fun _ => ⟨rfl, rfl⟩, hlast⟩

theorem Inv.complete (hs : s.fault = none) {i : Instr} (hi : i ≠ .rst) : Inv (s.complete (opcode i)) := by
  obtain ⟨hcfg, hfreq, htree, htable, hpay, hmem, hfinfo, -, -⟩ := h
  refine ⟨hcfg, hfreq, htree, htable, hpay, hmem, hfinfo, fun hne => absurd hs hne, List.mem_map_of_mem ?_⟩
  cases i with
  | rst => exact absurd rfl hi
  | _ => decide

end

/-- R46: the reset values satisfy R45. -/
theorem inv_resetBlock {s : State} (hcfg : s.cfg.wellFormed = true) : Inv s.resetBlock := by
  refine ⟨hcfg, ⟨.nil, fun b => ?_, Nat.zero_le _⟩, TreeInv.treeOk ?_, tableOk_empty, fun hpad => absurd rfl hpad,
    memory_wf_resetBlock s, fun _ => rfl, fun hne => absurd rfl hne, List.mem_cons_self⟩
  · rw [State.resetBlock_freq, symGet_replicate]
    exact ⟨fun hb => (nomatch hb), fun hne => absurd rfl hne⟩
  · exact ⟨.nil, .nil, fun _ hh => (nomatch hh), fun _ hh => (nomatch hh), .nil, Nat.zero_le _⟩

/-! ### The stages -/

/-- A stage keeps the invariant of an unfaulted block, and records no fault of its own. -/
def KeepsInv (f : Stage) : Prop := ∀ ⦃s t : State⦄, Inv s → s.fault = none → f s = .ok t → Inv t ∧ t.fault = none

theorem KeepsInv.andThen {f g : Stage} (hf : KeepsInv f) (hg : KeepsInv g) : KeepsInv (andThen f g) := by
  intro s u h hs hu
  obtain ⟨t, ht, hu⟩ := andThen_ok.mp hu
  obtain ⟨h, hs⟩ := hf h hs ht
  exact hg h hs hu

theorem keepsInv_nop : KeepsInv nopStage := by
  rintro s _ h hs ⟨⟩
  exact ⟨h, hs⟩

theorem keepsInv_inclr : KeepsInv inclrStage := by
  rintro s _ h hs ⟨⟩
  exact ⟨h.setIn (Nat.zero_le _), hs⟩

theorem keepsInv_freq : KeepsInv freqStage := by
  rintro s _ h hs ⟨⟩
  obtain ⟨hin, -⟩ := h.buffers
  exact ⟨h.setFreq (freqOk_setFreq_freqBuild h.bufCap_lt hin _), hs⟩

theorem keepsInv_tinit : KeepsInv tinitStage := by
  rintro s _ h hs ⟨⟩
  obtain ⟨hord, -, hsum⟩ := h.freqOk
  exact ⟨h.setTree (treeInv_tinit hord hsum), hs⟩

theorem keepsInv_tmerge : KeepsInv tmergeStage := by
  rintro s _ h hs ⟨⟩
  exact ⟨h.setTree (h.treeInv.mergeOnce h.bufCap_lt), hs⟩

theorem keepsInv_mergeLoop : KeepsInv mergeLoopStage := by
  rintro s _ h hs ⟨⟩
  exact ⟨h.setTree (h.treeInv.mergeLoop h.bufCap_lt _), hs⟩

theorem keepsInv_assign : KeepsInv assignStage := by
  intro s t h hs ht
  rcases assignStage_cases s with ⟨hdone, hok⟩ | ⟨-, herr⟩
  · cases hok.symm.trans ht
    exact ⟨h.setTable (h.treeInv.tableOk_assignTable hdone), hs⟩
  · cases herr.symm.trans ht

theorem keepsInv_tbuild : KeepsInv tbuildStage := keepsInv_tinit.andThen (keepsInv_mergeLoop.andThen keepsInv_assign)

theorem keepsInv_apply : KeepsInv applyStage := by
  intro s t h hs ht
  obtain ⟨b, hb, rfl⟩ := applyStage_ok ht
  exact ⟨h.setBits (applyScan_length hb (Nat.zero_le _)), hs⟩

theorem keepsInv_decode : KeepsInv decodeStage := by
  intro s t h hs ht
  obtain ⟨o, ho, rfl⟩ := decodeStage_ok ht
  exact ⟨h.setOut hs (decodeScan_length ho (Nat.zero_le _)), hs⟩

theorem keepsInv_pack : KeepsInv packStage := by
  rintro s _ h hs ⟨⟩
  obtain ⟨-, -, -, hbits⟩ := h.buffers
  exact ⟨h.setPay (payOk_packBits s.bits) (packBits_snd_length_le hbits), hs⟩

theorem keepsInv_unpack : KeepsInv unpackStage := by
  rintro s _ h hs ⟨⟩
  obtain ⟨-, hpay, -⟩ := h.buffers
  exact ⟨h.setBits (Nat.le_trans (unpackBits_length_le s.pad s.pay) (Nat.mul_le_mul_left 8 hpay)), hs⟩

theorem keepsInv_ser : KeepsInv serStage := by
  intro s t h hs ht
  obtain ⟨hlen, rfl⟩ := serStage_ok ht
  exact ⟨h.setOut hs hlen, hs⟩

theorem keepsInv_deser : KeepsInv deserStage := by
  intro s t h hs ht
  obtain ⟨d, hd, rfl⟩ := deserStage_ok ht
  obtain ⟨hlen, hpay, htable⟩ := deserialise_parts_ok hd
  obtain ⟨hin, -⟩ := h.buffers
  exact ⟨(h.setPay hpay (Nat.le_trans hlen hin)).setTable htable, hs⟩

theorem keepsInv_bodyOf (i : Instr) : KeepsInv (bodyOf i) := by
  cases i with
  | nop => exact keepsInv_nop
  | rst => exact keepsInv_nop
  | inclr => exact keepsInv_inclr
  | freq => exact keepsInv_freq
  | tinit => exact keepsInv_tinit
  | tmerge => exact keepsInv_tmerge
  | tbuild => exact keepsInv_tbuild
  | assign => exact keepsInv_assign
  | apply => exact keepsInv_apply
  | decode => exact keepsInv_decode
  | pack => exact keepsInv_pack
  | unpack => exact keepsInv_unpack
  | ser => exact keepsInv_ser
  | deser => exact keepsInv_deser
  | compress =>
    exact keepsInv_freq.andThen (keepsInv_tbuild.andThen (keepsInv_apply.andThen (keepsInv_pack.andThen keepsInv_ser)))
  | decompress => exact keepsInv_deser.andThen (keepsInv_unpack.andThen keepsInv_decode)

/-! ### Commands and host accesses -/

theorem Inv.runCommand {s : State} (h : Inv s) {i : Instr} (hi : i ≠ .rst) :
    Inv (s.runCommand (opcode i) (bodyOf i)) := by
  rcases s.runCommand_cases (opcode i) (bodyOf i) with ⟨-, heq⟩ | ⟨t, hs, hbody, heq⟩ | ⟨r, -, -, heq⟩
  · rwa [heq]
  · obtain ⟨ht, htfault⟩ := keepsInv_bodyOf i h hs hbody
    exact heq ▸ ht.complete htfault hi
  · exact heq ▸ h.raise r

theorem Inv.exec {s t : State} (h : Inv s) {i : Instr} (ht : exec i s = .next t) : Inv t := by
  by_cases hi : i = .rst
  · subst hi
    cases ht
    exact inv_resetBlock h.cfg_wellFormed
  · cases (exec_eq_runCommand hi s).symm.trans ht
    exact h.runCommand hi

/-- R61: the four outcomes of an IN_DATA write. -/
theorem Inv.writeInData {s : State} (h : Inv s) (w : Word) : Inv (s.writeInData w) := by
  obtain ⟨hin, -⟩ := h.buffers
  unfold State.writeInData
  split
  · exact h
  split
  · exact h.raise _
  split
  · exact h.raise _
  next hroom =>
  refine h.setIn ?_
  rw [List.length_append, List.length_singleton]
  omega

/-- R62, R73, R74: a command, or a word that is none. -/
theorem Inv.writeCmd {s t : State} (h : Inv s) {w : Word} (ht : s.writeCmd w = .next t) : Inv t := by
  unfold State.writeCmd at ht
  split at ht
  · exact h.exec ht
  · split at ht
    · cases ht
      exact h
    · cases ht
      exact h.raise _

theorem Inv.writePort {s t : State} (h : Inv s) {a : Offset} {w : Word} (ht : s.writePort a w = .next t) : Inv t := by
  unfold State.writePort at ht
  split at ht
  · exact h.writeCmd ht
  split at ht
  · cases ht
    exact h.writeInData w
  · cases ht
    exact h

theorem Inv.hostStep {s t : State} (h : Inv s) {op : HostOp} (ht : hostStep op s = .next t) : Inv t := by
  cases op with
  | write a w => exact h.writePort ht
  | read a =>
    cases ht
    exact h
  | reset =>
    cases ht
    exact inv_resetBlock h.cfg_wellFormed

theorem Inv.step {s t : State} (h : Inv s) (ht : step s = .next t) : Inv t := by
  unfold Machine.step at ht
  split at ht
  · cases ht
    exact h
  · next op rest _ => exact Inv.hostStep (s := { s with pending := rest }) h ht

/-- A run of `n + 1` steps that ends in a state is a step and a run of `n` steps. -/
theorem run_succ_eq_next {M : Host.Core} {n : Nat} {s t : M.State} (h : M.run (n + 1) s = .next t) :
    ∃ u, M.step s = .next u ∧ M.run n u = .next t := by
  rw [Host.Core.run] at h
  split at h
  · next u hu => exact ⟨u, hu, h⟩
  · cases h
  · cases h

/-- A run of any length, ended by no fault and no refusal, keeps the invariant. -/
theorem Inv.run {n : Nat} {s t : State} (h : Inv s) (ht : Sys2Proof.core.run n s = .next t) : Inv t := by
  induction n generalizing s with
  | zero =>
    cases ht
    exact h
  | succ n ih =>
    obtain ⟨u, hu, hrun⟩ := run_succ_eq_next ht
    exact ih (h.step hu) hrun

/-! ### The statements -/

/-- Settles O17: each host access is a command, an IN_DATA write, a read, a reset, or ignored; a command's stages keep the
invariant one by one. -/
theorem stepKeepsTheInvariant : Obligations.StepKeepsTheInvariant := fun _ _ => Inv.step

/-- Settles O18, by induction on the number of steps, from the reset state of the given parameters. -/
theorem everyReachableStateHasTheInvariant : Obligations.EveryReachableStateHasTheInvariant :=
  fun p ops _ _ hp => (inv_resetBlock (s := { State.reset with cfg := p, pending := ops }) hp).run

theorem config_params_wellFormed : Config.params.wellFormed = true := by
  have hlt := Nat.mod_lt Config.bufCapChoice (show 0 < 2 ^ 24 - 63 by decide)
  exact (params_wellFormed_iff _).mpr ⟨Nat.le_add_left _ _, Nat.add_le_of_le_sub (by decide) (Nat.le_of_lt_succ hlt)⟩

/-- Settles O16: the reset state is a reset block, and any value of BUF_CAP that `Config.bufCap` can take is legal. -/
theorem invariantHoldsAtReset : Obligations.InvariantHoldsAtReset :=
  inv_resetBlock (s := State.reset) config_params_wellFormed

end Sys2Proof.Machine
end

section
/-! PROOFS of the family 10_state.md, fifth part: what the host reads in the register file (R19 to R34), in any state and
after reset. -/

namespace Sys2Proof.Machine

/-- The offsets 0x00 to 0x0F are the register file (R19). -/
theorem readPort_of_lt (s : State) {a : Offset} (h : a.toNat < 0x10) : s.readPort a = s.register a.toNat := if_pos h

/-! ### STATUS (R21) -/

theorem register_status (s : State) : s.register (0x01 : Offset).toNat = s.statusWord := rfl

theorem getLsbD_bitAt (b : Bool) {k : Nat} (hk : k < 32) (j : Nat) :
    (bitAt b k).getLsbD j = (decide (j = k) && b) := by
  cases b with
  | false => simp [bitAt]
  | true =>
    rw [show bitAt true k = BitVec.twoPow 32 k from rfl, BitVec.getLsbD_twoPow]
    simp [hk, eq_comm]

/-- Each bit of STATUS, by its number. -/
theorem getLsbD_statusWord (s : State) {j : Nat} (hj : j < 32) :
    s.statusWord.getLsbD j = (decide (j = 1) && s.done || decide (j = 2) && s.err || decide (j = 3) && s.tdone ||
      !decide (j < 8) && s.lastop.getLsbD (j - 8)) := by
  have hshift : ((s.lastop.setWidth 32 <<< 8) : Word).getLsbD j = (!decide (j < 8) && s.lastop.getLsbD (j - 8)) := by
    simp [hj]
  rw [State.statusWord, BitVec.getLsbD_or, BitVec.getLsbD_or, BitVec.getLsbD_or, getLsbD_bitAt _ (by decide),
    getLsbD_bitAt _ (by decide), getLsbD_bitAt _ (by decide), hshift]

/-- Above TDONE there is LASTOP alone. -/
theorem getLsbD_statusWord_of_le {s : State} {j : Nat} (hlow : 4 ≤ j) (hj : j < 32) :
    s.statusWord.getLsbD j = (!decide (j < 8) && s.lastop.getLsbD (j - 8)) := by
  have h1 : j ≠ 1 := by omega
  have h2 : j ≠ 2 := by omega
  have h3 : j ≠ 3 := by omega
  simp [getLsbD_statusWord s hj, h1, h2, h3]

theorem treeDone_iff {arena : List Node} {q : List Nat} :
    treeDone arena q = true ↔ q = [] ∨ ∃ h, q = [h] ∧ isInternalAt arena h = true := by
  match q with
  | [] => simp [treeDone]
  | [h] => simp [treeDone]
  | a :: b :: rest => simp [treeDone]

/-- Settles O22, bit by bit. -/
theorem statusBitsReadAsSpecified : Obligations.StatusBitsReadAsSpecified := by
  intro s
  rw [readPort_of_lt s (by decide), register_status]
  refine ⟨?_, ?_, ?_, ?_, ?_, ?_, ?_⟩
  · rw [getLsbD_statusWord s (by decide)]
    rfl
  · rw [getLsbD_statusWord s (by decide)]
    simp
  · rw [getLsbD_statusWord s (by decide)]
    cases hf : s.fault <;> simp [State.err, hf]
  · rw [getLsbD_statusWord s (by decide), ← treeDone_iff]
    simp [State.tdone]
  · refine BitVec.eq_of_getLsbD_eq fun j hj => ?_
    have h8 : 4 + j < 8 := by omega
    simp [BitVec.getLsbD_extractLsb', getLsbD_statusWord_of_le (Nat.le_add_right 4 j) (by omega), h8]
  · refine BitVec.eq_of_getLsbD_eq fun j hj => ?_
    simp [getLsbD_statusWord_of_le (show 4 ≤ 8 + j by omega) (by omega), hj]
  · refine BitVec.eq_of_getLsbD_eq fun j hj => ?_
    have hlast : s.lastop.getLsbD (16 + j - 8) = false := BitVec.getLsbD_of_ge _ _ (by omega)
    simp [BitVec.getLsbD_extractLsb', getLsbD_statusWord_of_le (show 4 ≤ 16 + j by omega) (by omega), hlast]

/-! ### The other registers (R22 to R34) -/

theorem register_root (s : State) : s.register (0x0D : Offset).toNat = handleWord (treeRoot s.node s.pq) := rfl

theorem toNat_countWord {n : Nat} (hn : n < 2 ^ 32) : (countWord n).toNat = n := by
  rw [countWord, BitVec.toNat_ofNat]
  exact Nat.mod_eq_of_lt hn

theorem toNat_byteWord (b : Byte) : (byteWord b).toNat = b.toNat :=
  BitVec.toNat_setWidth_of_le (by decide)

theorem toNat_handleWord {h : Nat} (hh : h < 512) : (handleWord (some h)).toNat = h := by
  rw [handleWord, BitVec.toNat_setWidth_of_le (by decide), BitVec.toNat_ofNat]
  exact Nat.mod_eq_of_lt hh

theorem treeRoot_eq_none {arena : List Node} {q : List Nat} (h : ∀ g, q = [g] → isInternalAt arena g = false) :
    treeRoot arena q = none := by
  match q, h with
  | [], _ => rfl
  | [g], h => rw [treeRoot, h g rfl]; rfl
  | a :: b :: rest, _ => rfl

/-- Settles O23: the length registers are exact because the invariant bounds what they count. -/
theorem registersReadTheirElements : Obligations.RegistersReadTheirElements := by
  intro s h
  obtain ⟨hin, hpay, hout, hbits⟩ := h.buffers
  obtain ⟨hord, -⟩ := h.freqOk
  obtain ⟨hctOrd, -⟩ := h.tableOk
  obtain ⟨hnode, hpq⟩ := h.treeInv.length_le
  have hcap := h.bufCap_le
  have hordLen := length_le_256 hord
  have hctOrdLen := length_le_256 hctOrd
  refine ⟨rfl, rfl, rfl, ?_, rfl, toNat_countWord (by omega), toNat_countWord (by omega), ?_,
    toNat_countWord (by omega), toNat_countWord (by omega), toNat_countWord (by omega), toNat_countWord (by omega),
    toNat_countWord (by omega), fun g hg hint => ?_, fun hnone => ?_, toNat_countWord (by omega)⟩
  · refine (toNat_byteWord (faultCode s.fault)).trans ?_
    match s.fault with
    | none => rfl
    | some c => cases c <;> rfl
  · exact BitVec.toNat_setWidth_of_le (b := s.pad) (by decide)
  · have hlt := h.treeInv.lt_length (hg ▸ List.mem_cons_self)
    rw [readPort_of_lt s (by decide), register_root, hg, treeRoot_singleton hint]
    exact toNat_handleWord (by omega)
  · rw [readPort_of_lt s (by decide), register_root, treeRoot_eq_none hnone]
    rfl

/-! ### Reset (R46) -/

/-- The registers of a reset block: STATUS has TDONE alone, ROOT reads NONE, the others 0. -/
theorem atReset_resetBlock (s : State) : AtReset s.resetBlock := by
  refine ⟨rfl, symGet_replicate 0, rfl, rfl, rfl, symGet_replicate [], rfl, rfl, rfl, rfl, rfl, rfl, rfl, rfl, rfl,
    ?_, rfl, by simp [State.readPort, State.register, countWord, byteWord, faultCode]⟩
  rw [readPort_of_lt s.resetBlock (by decide), register_status]
  simp [State.statusWord, bitAt, State.err, State.tdone, treeDone]

/-- Settles O8: RST and hardware reset both answer the reset block, and `State.reset` is one. -/
theorem resetLeavesEverythingEmpty : Obligations.ResetLeavesEverythingEmpty := by
  refine ⟨atReset_resetBlock State.reset, fun s => ⟨⟨_, exec_rst s, atReset_resetBlock s⟩, fun rest hp => ?_⟩⟩
  refine ⟨State.resetBlock { s with pending := rest }, ?_, atReset_resetBlock _, rfl⟩
  rw [step, hp]
  rfl

end Sys2Proof.Machine
end


section
/-! PROOFS of the family 20_memory.md, first part: the host's accesses (R56, R61, R62, R65) and the script operation LOAD
(R76). -/

namespace Sys2Proof.Machine

/-! ### A step takes the oldest access (R65) -/

theorem step_of_pending {s : State} {op : HostOp} {rest : List HostOp} (h : s.pending = op :: rest) :
    step s = hostStep op { s with pending := rest } := by
  rw [step, h]

/-- A step that answers a next state, then a run from there. -/
theorem run_succ_of_step {M : Host.Core} {s u : M.State} (n : Nat) (h : M.step s = .next u) :
    M.run (n + 1) s = M.run n u := by
  rw [Host.Core.run, h]

/-! ### Writes to CMD (R62) -/

theorem decode_encode (i : Instr) : decode (encode i) = .ok i := by
  cases i <;> rfl

theorem State.writeCmd_of_decode {w : Word} {i : Instr} (h : decode w = .ok i) (s : State) :
    s.writeCmd w = exec i s := by
  rw [State.writeCmd, h]

/-- Settles O3: the access taken is a write to CMD, and the word written there decodes to the command. -/
theorem stepRunsTheDecodedCommand : Obligations.StepRunsTheDecodedCommand :=
  fun _ _ _ _ hpending hdecode => (step_of_pending hpending).trans (State.writeCmd_of_decode hdecode _)

/-- A command's word fills no more than its 32 bits, so `withFetchWord` places it whole. -/
theorem withFetchWord_encode (s : State) (i : Instr) :
    s.withFetchWord 32 (encode i).toNat = { s with pending := scriptCmd i :: s.pending } := by
  rw [State.withFetchWord, Nat.mod_eq_of_lt (encode i).isLt, BitVec.ofNat_toNat, BitVec.setWidth_eq, scriptCmd]

/-- Settles O7: the placed word is the command's own encoding, and taking it leaves the state it was placed in. -/
theorem placedWordRunsItsCommand : Obligations.PlacedWordRunsItsCommand := by
  intro s i
  rw [withFetchWord_encode]
  exact stepRunsTheDecodedCommand _ _ _ _ rfl (decode_encode i)

/-! ### Reads and ignored writes (R56) -/

theorem State.writePort_of_ignored {a : Offset} (hcmd : a ≠ 0x00) (hdata : a ≠ 0x04) (s : State) (w : Word) :
    s.writePort a w = .next s := by
  rw [State.writePort, if_neg hcmd, if_neg hdata]

/-- Settles O20: what the host reads depends on no field that an access or a read changes. -/
theorem readsAndOtherWritesHaveNoEffect : Obligations.ReadsAndOtherWritesHaveNoEffect :=
  fun s _ rest => ⟨step_of_pending, fun _ _ => rfl, fun w hpending hcmd hdata =>
    (step_of_pending hpending).trans (State.writePort_of_ignored hcmd hdata { s with pending := rest } w)⟩

/-! ### Writes to IN_DATA (R61) -/

/-- Bits 31:8 of a word are 0 exactly when it is a byte. -/
theorem extractLsb'_high_eq_zero_iff (w : Word) : w.extractLsb' 8 24 = 0 ↔ w.toNat < 256 := by
  have hw := w.isLt
  change w.extractLsb' 8 24 = 0#24 ↔ w.toNat < 256
  rw [← BitVec.toNat_inj, BitVec.extractLsb'_toNat, Nat.shiftRight_eq_div_pow, BitVec.toNat_ofNat]
  omega

section
variable {s : State} {w : Word}

theorem State.writeInData_of_fault (h : s.fault ≠ none) : s.writeInData w = s := by
  obtain ⟨c, hc⟩ := Option.ne_none_iff_exists'.mp h
  rw [State.writeInData, hc]

theorem State.writeInData_of_not_byte (h : s.fault = none) (hw : 256 ≤ w.toNat) :
    s.writeInData w = s.raise { cause := .invalidInput, info := w } := by
  have hhigh : w.extractLsb' 8 24 ≠ 0 := mt (extractLsb'_high_eq_zero_iff w).mp (Nat.not_lt.mpr hw)
  rw [State.writeInData, h]
  exact if_pos hhigh

theorem State.writeInData_of_byte (h : s.fault = none) (hw : w.toNat < 256) :
    s.writeInData w =
      if s.inBuf.length = s.cfg.bufCap then s.raise (raiseCapacity 0)
      else s.setIn (s.inBuf ++ [BitVec.ofNat 8 w.toNat]) := by
  have hhigh : ¬ w.extractLsb' 8 24 ≠ 0 := Classical.not_not.mpr ((extractLsb'_high_eq_zero_iff w).mpr hw)
  rw [State.writeInData, h]
  exact if_neg hhigh

end

theorem step_of_inData {s : State} {w : Word} {rest : List HostOp} (h : s.pending = .write 0x04 w :: rest) :
    step s = .next (State.writeInData { s with pending := rest } w) :=
  step_of_pending h

/-- Settles O19: the write is taken from `pending`, then its checks are passed in the order of R61. -/
theorem inDataWriteAppendsOrFaults : Obligations.InDataWriteAppendsOrFaults := by
  intro s w rest hpending
  rw [step_of_inData hpending]
  refine ⟨fun hfault => ?_, fun hfault hw => ?_, fun hfault hw hfull => ?_, fun hfault hw hroom => ?_⟩
  · rw [State.writeInData_of_fault (s := { s with pending := rest }) hfault]
  · rw [State.writeInData_of_not_byte (s := { s with pending := rest }) hfault hw]
    rfl
  · rw [State.writeInData_of_byte (s := { s with pending := rest }) hfault hw, if_pos hfull]
    rfl
  · rw [State.writeInData_of_byte (s := { s with pending := rest }) hfault hw, if_neg hroom]
    rfl

/-! ### LOAD (R76) -/

/-- H_PUSH of a byte for which IN has room. -/
theorem step_of_push {s : State} {b : Byte} {rest : List HostOp} (h : s.pending = scriptPush b :: rest)
    (hfault : s.fault = none) (hroom : s.inBuf.length < s.cfg.bufCap) :
    step s = .next { s with pending := rest, inBuf := s.inBuf ++ [b] } := by
  obtain ⟨-, -, -, happend⟩ := inDataWriteAppendsOrFaults s (b.setWidth 32) rest h
  have hb : (b.setWidth 32).toNat = b.toNat := toNat_byteWord b
  rw [happend hfault (hb ▸ b.isLt) (Nat.ne_of_lt hroom), hb, BitVec.ofNat_toNat, BitVec.setWidth_eq]

/-- A PUSH for each of the bytes appends them to IN in order. -/
theorem run_of_pushes {s : State} {bs : List Byte} {rest : List HostOp} (h : s.pending = bs.map scriptPush ++ rest)
    (hfault : s.fault = none) (hroom : s.inBuf.length + bs.length ≤ s.cfg.bufCap) :
    Sys2Proof.core.run bs.length s = .next { s with pending := rest, inBuf := s.inBuf ++ bs } := by
  induction bs generalizing s with
  | nil =>
    rw [List.append_nil]
    exact congrArg (fun p => Host.Outcome.next { s with pending := p }) h
  | cons b bs ih =>
    rw [List.length_cons] at hroom
    have hroom' : (s.inBuf ++ [b]).length + bs.length ≤ s.cfg.bufCap := by
      rw [List.length_append, List.length_singleton]
      omega
    have hpush := step_of_push h hfault (by omega)
    have hbs := ih (s := { s with pending := bs.map scriptPush ++ rest, inBuf := s.inBuf ++ [b] }) rfl hfault
      hroom'
    rw [List.append_assoc, List.singleton_append] at hbs
    exact (run_succ_of_step (M := Sys2Proof.core) _ hpush).trans hbs

/-- INCLR empties IN and sets the completion flags (R157). -/
theorem exec_inclr {s : State} (h : s.fault = none) : exec .inclr s = .next ((s.setIn []).complete 0x02) :=
  congrArg Host.Outcome.next (State.runCommand_ok (t := s.setIn []) h rfl)

/-- Settles O21: INCLR, then the bytes one by one, by induction on them. -/
theorem loadPutsItsBytesIntoIn : Obligations.LoadPutsItsBytesIntoIn := by
  intro s bs rest hfault hlen hpending
  have hinclr : step s = .next ((State.setIn { s with pending := bs.map scriptPush ++ rest } []).complete 0x02) :=
    (stepRunsTheDecodedCommand s _ _ _ hpending (decode_encode .inclr)).trans (exec_inclr hfault)
  have hbytes := run_of_pushes (s := (State.setIn { s with pending := bs.map scriptPush ++ rest } []).complete 0x02)
    rfl hfault (by simpa using hlen)
  exact (run_succ_of_step (M := Sys2Proof.core) _ hinclr).trans hbytes

end Sys2Proof.Machine
end


section
/-! PROOFS of the family 20_memory.md, second part: the windows of the host port (R58 to R60, R63). -/

namespace Sys2Proof.Machine

/-! ### Which element an offset reads (R58) -/

theorem toNat_offset {n : Nat} (h : n < 2 ^ 26) : (BitVec.ofNat 26 n : Offset).toNat = n := by
  rw [BitVec.toNat_ofNat, Nat.mod_eq_of_lt h]

theorem toNat_offset_add_byte (base : Offset) (b : Byte) (h : base.toNat < 0x400) :
    (base + b.setWidth 26).toNat = base.toNat + b.toNat := by
  have hb := b.isLt
  rw [BitVec.toNat_add, BitVec.toNat_setWidth_of_le (by decide), Nat.mod_eq_of_lt (by omega)]

section
variable (s : State) {a : Offset} {i : Nat}

theorem readPort_freq (h : a.toNat = 0x100 + i) (hi : i < 256) : s.readPort a = symGet s.freq (symOfNat i) := by
  simp (disch := omega) only [State.readPort, h, if_pos, if_neg, Nat.add_sub_cancel_left]

theorem readPort_ord (h : a.toNat = 0x200 + i) (hi : i < 256) : s.readPort a = seqWord s.ord i := by
  simp (disch := omega) only [State.readPort, h, if_pos, if_neg, Nat.add_sub_cancel_left]

theorem readPort_ctLen (h : a.toNat = 0x300 + i) (hi : i < 256) :
    s.readPort a = byteWord (BitVec.ofNat 8 (symGet s.ct (symOfNat i)).length) := by
  simp (disch := omega) only [State.readPort, h, if_pos, if_neg, Nat.add_sub_cancel_left]

theorem readPort_ctOrd (h : a.toNat = 0x400 + i) (hi : i < 256) : s.readPort a = seqWord s.ctOrd i := by
  simp (disch := omega) only [State.readPort, h, if_pos, if_neg, Nat.add_sub_cancel_left]

theorem readPort_ctBits {w : Nat} (h : a.toNat = 0x800 + (8 * i + w)) (hi : i < 256) (hw : w < 8) :
    s.readPort a = codeWord (symGet s.ct (symOfNat i)) w := by
  have hdiv : (8 * i + w) / 8 = i := by omega
  have hmod : (8 * i + w) % 8 = w := by omega
  simp (disch := omega) only [State.readPort, h, if_pos, if_neg, Nat.add_sub_cancel_left, hdiv, hmod]

theorem readPort_node {f : Nat} (h : a.toNat = 0x1000 + (4 * i + f)) (hi : i < 511) (hf : f < 4) :
    s.readPort a = nodeWord s.node i f := by
  have hdiv : (4 * i + f) / 4 = i := by omega
  have hmod : (4 * i + f) % 4 = f := by omega
  simp (disch := omega) only [State.readPort, h, if_pos, if_neg, Nat.add_sub_cancel_left, hdiv, hmod]

theorem readPort_pq (h : a.toNat = 0x1800 + i) (hi : i < 256) :
    s.readPort a = (s.pq[i]?.map fun g => handleWord (some g)).getD 0 := by
  simp (disch := omega) only [State.readPort, h, if_pos, if_neg, Nat.add_sub_cancel_left]
  cases s.pq[i]? <;> rfl

theorem readPort_out (h : a.toNat = 0x1000000 + i) (hi : i < 2 ^ 24) : s.readPort a = seqWord s.out i := by
  simp (disch := omega) only [State.readPort, h, if_pos, if_neg, Nat.add_sub_cancel_left]

theorem readPort_pay (h : a.toNat = 0x2000000 + i) (hi : i < 2 ^ 24) : s.readPort a = seqWord s.pay i := by
  simp (disch := omega) only [State.readPort, h, if_pos, if_neg, Nat.add_sub_cancel_left]

/-- The gaps between the windows, and all above PAY. -/
theorem readPort_reserved
    (h : 0x10 ≤ a.toNat ∧ a.toNat ≤ 0xFF ∨ 0x500 ≤ a.toNat ∧ a.toNat ≤ 0x7FF ∨
      0x17FC ≤ a.toNat ∧ a.toNat ≤ 0x17FF ∨ 0x1900 ≤ a.toNat ∧ a.toNat ≤ 0xFFFFFF ∨ 0x3000000 ≤ a.toNat) :
    s.readPort a = 0 := by
  rcases h with ⟨hlo, hhi⟩ | ⟨hlo, hhi⟩ | ⟨hlo, hhi⟩ | ⟨hlo, hhi⟩ | hlo <;>
    simp (disch := omega) only [State.readPort, if_pos, if_neg]

end

/-! ### The words of the windows (R59) -/

theorem symOfNat_toNat (b : Byte) : symOfNat b.toNat = b := by
  rw [symOfNat, BitVec.ofNat_toNat, BitVec.setWidth_eq]

theorem toNat_seqWord (l : List Byte) (i : Nat) : (seqWord l i).toNat = (l[i]?.map BitVec.toNat).getD 0 := by
  rw [seqWord]
  cases l[i]? with
  | none => rfl
  | some b => exact toNat_byteWord b

/-- Bit `31 - k` of CTBITS word `w` is bit `32 w + k` of the code (D28). -/
theorem getLsbD_codeWord (c : BitString) (w : Nat) {k : Nat} (hk : k < 32) :
    (codeWord c w).getLsbD (31 - k) = c.getD (32 * w + k) false := by
  have hbit : 31 - k < 32 := by omega
  have hidx : 32 - 1 - (31 - k) = k := by omega
  rw [codeWord, BitVec.getLsbD_ofNat, testBit_bitsVal, List.getD_eq_getElem?_getD, List.getElem?_reverse (by simpa),
    List.length_map, List.length_range, hidx, List.getElem?_map, List.getElem?_range hk]
  simp [hbit]

theorem toNat_pqWord {q : List Nat} (hq : ∀ h ∈ q, h < 512) (i : Nat) :
    ((q[i]?.map fun g => handleWord (some g)).getD 0).toNat = q.getD i 0 := by
  rw [List.getD_eq_getElem?_getD]
  cases hi : q[i]? with
  | none => rfl
  | some g => exact toNat_handleWord (hq g (List.mem_of_getElem? hi))

/-- Settles O24: code lengths and handles fit their fields by the invariant; everything else is read as it stands. -/
theorem windowsReadTheirElements : Obligations.WindowsReadTheirElements := by
  intro s hinv
  obtain ⟨-, -, hlen, -⟩ := hinv.tableOk
  obtain ⟨hnodes, -⟩ := hinv.treeInv.length_le
  have hpq : ∀ h ∈ s.pq, h < 512 := fun h hh =>
    Nat.lt_of_lt_of_le (hinv.treeInv.lt_length hh) (by omega)
  refine ⟨fun b => ?_, fun i hi => ?_, fun b => ?_, fun i hi => ?_, fun b w hw k hk => ?_, fun i hi => ?_,
    fun i hi => ?_, fun j hj => ?_, fun _ => readPort_reserved s⟩
  · rw [readPort_freq s (toNat_offset_add_byte _ b (by decide)) b.isLt, symOfNat_toNat]
  · rw [readPort_ord s (toNat_offset (by omega)) hi, toNat_seqWord]
  · have hb := hlen b
    rw [readPort_ctLen s (toNat_offset_add_byte _ b (by decide)) b.isLt, symOfNat_toNat, toNat_byteWord,
      BitVec.toNat_ofNat, Nat.mod_eq_of_lt (by omega)]
  · rw [readPort_ctOrd s (toNat_offset (by omega)) hi, toNat_seqWord]
  · have hb := b.isLt
    rw [Nat.add_assoc, readPort_ctBits s (toNat_offset (by omega)) b.isLt hw, symOfNat_toNat, getLsbD_codeWord _ w hk]
  · rw [readPort_pq s (toNat_offset (by omega)) hi, toNat_pqWord hpq]
  · rw [readPort_out s (toNat_offset (by omega)) hi, toNat_seqWord]
  · rw [readPort_pay s (toNat_offset (by omega)) hj, toNat_seqWord]

/-! ### The node window (R60) -/

/-- Bit 31, the symbol in bits 15:8 and bit 0 do not overlap. -/
theorem toNat_kindWord_leaf (b : Byte) (f : Word) : (kindWord (.leaf b f)).toNat = 2 ^ 31 + 256 * b.toNat + 1 := by
  have hb := b.isLt
  have hshift : (byteWord b <<< 8).toNat = 2 ^ 8 * b.toNat := by
    rw [BitVec.toNat_shiftLeft, toNat_byteWord, Nat.shiftLeft_eq, Nat.mod_eq_of_lt (by omega), Nat.mul_comm]
  have hhigh : (0x80000001 : Word).toNat = 2 ^ 31 * 1 ||| 1 := rfl
  calc (kindWord (.leaf b f)).toNat
    _ = 2 ^ 31 * 1 ||| 1 ||| 2 ^ 8 * b.toNat := by
      rw [← hshift, ← hhigh, ← BitVec.toNat_or]
      rfl
    _ = 2 ^ 31 * 1 ||| (2 ^ 8 * b.toNat ||| 1) := by
      rw [Nat.or_assoc, Nat.or_comm 1]
    _ = 2 ^ 31 + 256 * b.toNat + 1 := by
      rw [← Nat.two_pow_add_eq_or_of_lt (show 1 < 2 ^ 8 by decide), ← Nat.two_pow_add_eq_or_of_lt (by omega)]
      omega

theorem nodeWord_absent {arena : List Node} {h : Nat} (hlen : arena.length ≤ h) (k : Nat) : nodeWord arena h k = 0 := by
  rw [nodeWord, List.getElem?_eq_none hlen]

/-- R45 (f): the children named by an internal record come before it in the arena. -/
theorem children_lt_of_nodeOkAt {arena : List Node} {h l : Nat} {r : Option Nat} {f : Word}
    (hh : arena[h]? = some (.internal l r f)) (hok : nodeOkAt arena h = true) : l < h ∧ ∀ c, r = some c → c < h := by
  refine ⟨child_lt_of_nodeOkAt hh hok ?_, ?_⟩
  · cases r <;> exact List.mem_cons_self
  · rintro c rfl
    exact child_lt_of_nodeOkAt hh hok (List.mem_cons_of_mem l List.mem_cons_self)

theorem toNat_handleWord_getD {r : Option Nat} (hr : ∀ c, r = some c → c < 512) :
    (handleWord r).toNat = r.getD 0x1FF := by
  cases r with
  | none => rfl
  | some c => exact toNat_handleWord (hr c rfl)

/-- Settles O25: a leaf's words as they stand, an internal record's handles by the invariant, which bounds the arena. -/
theorem nodeWindowReadsTheRecord : Obligations.NodeWindowReadsTheRecord := by
  intro s hinv h hh word
  have hword : ∀ f < 4, word f = nodeWord s.node h f := fun f hf =>
    readPort_node s ((toNat_offset (by omega)).trans (Nat.add_assoc _ _ _)) hh hf
  rw [hword 0 (by decide), hword 1 (by decide), hword 2 (by decide), hword 3 (by decide)]
  refine ⟨fun hlen => ?_, fun b f hrec => ?_, fun l r f hrec => ?_⟩
  · exact ⟨nodeWord_absent hlen 0, nodeWord_absent hlen 1, nodeWord_absent hlen 2, nodeWord_absent hlen 3⟩
  · simp only [nodeWord, hrec]
    exact ⟨toNat_kindWord_leaf b f, rfl, rfl, rfl⟩
  · obtain ⟨hl, hr⟩ := children_lt_of_nodeOkAt hrec (hinv.treeInv.nodes h (List.getElem?_eq_some_iff.mp hrec).1)
    simp only [nodeWord, hrec]
    exact ⟨rfl, rfl, toNat_handleWord (by omega), toNat_handleWord_getD fun c hc =>
      Nat.lt_trans (hr c hc) (by omega)⟩

end Sys2Proof.Machine
end

section
/-! PROOFS of the family 30_encoding.md, first part: the decoder and the completion of a command (R70 to R74). -/

namespace Sys2Proof.Machine

/-! ### The decoder (R70 to R73) -/

/-- Settles O1: the sixteen words are the encodings of the commands. -/
theorem decodeReadsTheOpcodeMap : Obligations.DecodeReadsTheOpcodeMap :=
  ⟨decode_encode .nop, decode_encode .rst, decode_encode .inclr, decode_encode .freq, decode_encode .tinit,
    decode_encode .tmerge, decode_encode .tbuild, decode_encode .assign, decode_encode .apply, decode_encode .decode,
    decode_encode .pack, decode_encode .unpack, decode_encode .ser, decode_encode .deser, decode_encode .compress,
    decode_encode .decompress⟩

/-- A command word is its two fields, one after the other (R70). -/
theorem rsvField_append_opField (w : Word) : rsvField w ++ opField w = w :=
  BitVec.extractLsb'_append_extractLsb'_eq_extractLsb' (start₁ := 0) rfl |>.trans BitVec.extractLsb'_eq_self

/-- Each row of the opcode map pairs a command with its own opcode (R72). -/
theorem opcode_of_mem_opcodeMap {row : Byte × Instr} (h : row ∈ opcodeMap) : opcode row.2 = row.1 := by
  revert row
  decide

/-- Only a word with no reserved bit set and a command's opcode is that command (R73). -/
theorem fields_of_decode {w : Word} {i : Instr} (h : decode w = .ok i) : rsvField w = 0 ∧ opField w = opcode i := by
  unfold decode at h
  split at h
  · cases h
  · next hrsv =>
    split at h
    · next row hrow =>
      cases h
      have hop : row.1 = opField w := by simpa using List.find?_some hrow
      have hopcode : opcode row.2 = row.1 := opcode_of_mem_opcodeMap (List.mem_of_find?_eq_some hrow)
      exact ⟨Decidable.not_not.mp hrsv, (hopcode.trans hop).symm⟩
    · cases h

/-- Settles O2: the decoder's two fields give the whole word back. -/
theorem decodeAcceptsExactlyTheEncodings : Obligations.DecodeAcceptsExactlyTheEncodings := by
  intro w i
  constructor
  · intro h
    obtain ⟨hrsv, hop⟩ := fields_of_decode h
    rw [← rsvField_append_opField w, hrsv, hop, encode]
  · rintro rfl
    exact decode_encode i

/-! ### Every step answers a next state (R74, R210) -/

theorem State.writeCmd_next (s : State) (w : Word) : ∃ t, s.writeCmd w = .next t := by
  unfold State.writeCmd
  split
  · exact exec_next _ s
  · split
    · exact ⟨_, rfl⟩
    · exact ⟨_, rfl⟩

theorem State.writePort_next (s : State) (a : Offset) (w : Word) : ∃ t, s.writePort a w = .next t := by
  unfold State.writePort
  split
  · exact s.writeCmd_next w
  · split
    · exact ⟨_, rfl⟩
    · exact ⟨_, rfl⟩

theorem hostStep_next (op : HostOp) (s : State) : ∃ t, hostStep op s = .next t := by
  cases op with
  | write a w => exact s.writePort_next a w
  | read a => exact ⟨_, rfl⟩
  | reset => exact ⟨_, rfl⟩

theorem step_of_idle {s : State} (h : s.pending = []) : step s = .next s := by
  rw [step, h]

/-- Settles O4: a pending access is one total host operation, and without one nothing is done. -/
theorem stepAlwaysAnswersANextState : Obligations.StepAlwaysAnswersANextState := by
  intro s
  refine ⟨?_, step_of_idle⟩
  cases h : s.pending with
  | nil => exact ⟨s, step_of_idle h⟩
  | cons op rest =>
    rw [step_of_pending h]
    exact hostStep_next op _

/-! ### The stages leave FAULT and FINFO to the end of the command (R74, R183) -/

/-- A stage that succeeds has not touched FAULT or FINFO. -/
def KeepsFault (f : Stage) : Prop := ∀ ⦃s t : State⦄, f s = .ok t → t.fault = s.fault ∧ t.finfo = s.finfo

theorem KeepsFault.andThen {f g : Stage} (hf : KeepsFault f) (hg : KeepsFault g) : KeepsFault (andThen f g) := by
  intro s u h
  obtain ⟨t, hft, hgu⟩ := andThen_ok.mp h
  obtain ⟨hfault, hfinfo⟩ := hf hft
  obtain ⟨hfault', hfinfo'⟩ := hg hgu
  exact ⟨hfault'.trans hfault, hfinfo'.trans hfinfo⟩

theorem keepsFault_freq : KeepsFault freqStage := by
  intro s t h
  cases (freqStage_eq s).symm.trans h
  exact ⟨rfl, rfl⟩

theorem keepsFault_tbuild : KeepsFault tbuildStage := by
  intro s t h
  obtain ⟨_, _, _, _, rfl⟩ := tbuildStage_ok h
  exact ⟨rfl, rfl⟩

theorem keepsFault_assign : KeepsFault assignStage := by
  intro s t h
  rcases assignStage_cases s with ⟨-, hok⟩ | ⟨-, herror⟩
  · cases hok.symm.trans h
    exact ⟨rfl, rfl⟩
  · cases herror.symm.trans h

theorem keepsFault_apply : KeepsFault applyStage := by
  intro s t h
  obtain ⟨_, -, rfl⟩ := applyStage_ok h
  exact ⟨rfl, rfl⟩

theorem keepsFault_decode : KeepsFault decodeStage := by
  intro s t h
  obtain ⟨_, -, rfl⟩ := decodeStage_ok h
  exact ⟨rfl, rfl⟩

theorem keepsFault_pack : KeepsFault packStage := by
  intro s t h
  cases (packStage_eq s).symm.trans h
  exact ⟨rfl, rfl⟩

theorem keepsFault_unpack : KeepsFault unpackStage := by
  intro s t h
  cases (unpackStage_eq s).symm.trans h
  exact ⟨rfl, rfl⟩

theorem keepsFault_ser : KeepsFault serStage := by
  intro s t h
  obtain ⟨-, rfl⟩ := serStage_ok h
  exact ⟨rfl, rfl⟩

theorem keepsFault_deser : KeepsFault deserStage := by
  intro s t h
  obtain ⟨_, -, rfl⟩ := deserStage_ok h
  exact ⟨rfl, rfl⟩

theorem keepsFault_bodyOf (i : Instr) : KeepsFault (bodyOf i) := by
  cases i with
  | nop | rst | inclr | tinit | tmerge =>
    intro s t h
    cases h
    exact ⟨rfl, rfl⟩
  | freq => exact keepsFault_freq
  | tbuild => exact keepsFault_tbuild
  | assign => exact keepsFault_assign
  | apply => exact keepsFault_apply
  | decode => exact keepsFault_decode
  | pack => exact keepsFault_pack
  | unpack => exact keepsFault_unpack
  | ser => exact keepsFault_ser
  | deser => exact keepsFault_deser
  | compress =>
    exact keepsFault_freq.andThen (keepsFault_tbuild.andThen (keepsFault_apply.andThen
      (keepsFault_pack.andThen keepsFault_ser)))
  | decompress => exact keepsFault_deser.andThen (keepsFault_unpack.andThen keepsFault_decode)

/-- Settles O12: of the three things a command can do, only completing leaves no fault recorded. -/
theorem completionSetsDoneAndLastop : Obligations.CompletionSetsDoneAndLastop := by
  intro i s t hi hs h ht
  rw [exec_eq_runCommand hi] at h
  cases h
  rcases s.runCommand_cases (opcode i) (bodyOf i) with ⟨hfault, -⟩ | ⟨u, -, hbody, hrun⟩ | ⟨r, -, -, hrun⟩
  · exact absurd hs hfault
  · rw [hrun]
    exact ⟨rfl, rfl, (keepsFault_bodyOf i hbody).2⟩
  · rw [hrun] at ht
    cases ht

end Sys2Proof.Machine
end

section
/-! PROOFS of the family 30_encoding.md, second part: the table reader and the grammar of R87.  The reader forgets
nothing: each of its states but `bad` is entered by exactly one text, which `ReadUpTo` states.  Kept byte by byte, this
gives soundness; completeness runs the reader over the sentence of a list of entries. -/

namespace Sys2Proof.Machine

/-! ### Joined entries (R140) -/

theorem joinComma_cons {l : List (List Byte)} (h : l ≠ []) (e : List Byte) :
    joinComma (e :: l) = e ++ [chComma] ++ joinComma l := by
  cases l with
  | nil => exact absurd rfl h
  | cons => rfl

/-- All but the last of the joined texts are followed by a comma. -/
theorem joinComma_concat (l : List (List Byte)) (e : List Byte) :
    joinComma (l ++ [e]) = l.flatMap (· ++ [chComma]) ++ e := by
  induction l with
  | nil => rfl
  | cons d l ih =>
    rw [List.cons_append, joinComma_cons (List.concat_ne_nil _ _), ih, List.flatMap_cons, List.append_assoc (d ++ _)]

theorem joinComma_append_comma {l : List (List Byte)} (h : l ≠ []) :
    joinComma l ++ [chComma] = l.flatMap (· ++ [chComma]) := by
  rw [← List.dropLast_concat_getLast h, joinComma_concat, List.flatMap_append, List.flatMap_singleton,
    List.append_assoc]

/-! ### What each state has read -/

/-- The text of a table that has its entries `es` behind it and stands before a further one. -/
def textBeforeEntry (es : List RawEntry) : List Byte :=
  [chOpen] ++ (es.map rawEntryText).flatMap (· ++ [chComma])

/-- The text of a table that has its entries `es` behind it and stands in the key of a further one. -/
def textInKey (es : List RawEntry) (ds : List Byte) : List Byte := textBeforeEntry es ++ [chQuote] ++ ds

/-- The text of a table up to and with its entries `es`. -/
def textThroughEntries (es : List RawEntry) : List Byte := [chOpen] ++ joinComma (es.map rawEntryText)

theorem textThroughEntries_concat (es : List RawEntry) (e : RawEntry) :
    textThroughEntries (es ++ [e]) = textBeforeEntry es ++ rawEntryText e := by
  rw [textThroughEntries, textBeforeEntry, List.map_append, List.map_singleton, joinComma_concat, List.append_assoc]

theorem textThroughEntries_append_comma {es : List RawEntry} (h : es ≠ []) :
    textThroughEntries es ++ [chComma] = textBeforeEntry es := by
  rw [textThroughEntries, textBeforeEntry, List.append_assoc, joinComma_append_comma (by simpa using h)]

/-- `t` is the text by which the reader comes to a state, and what the state holds of it obeys R87. -/
def ReadUpTo (t : List Byte) : ParseState → Prop
  | .start => t = []
  | .opened => t = [chOpen]
  | .key es ds => (∀ e ∈ es, RawEntryOk e) ∧ (∀ b ∈ ds, isDigit b = true) ∧ t = textInKey es ds
  | .colon es ds => (∀ e ∈ es, RawEntryOk e) ∧ RawEntryOk (ds, []) ∧ t = textInKey es ds ++ [chQuote]
  | .quote es ds => (∀ e ∈ es, RawEntryOk e) ∧ RawEntryOk (ds, []) ∧ t = textInKey es ds ++ [chQuote, chColon]
  | .code es ds bs =>
    (∀ e ∈ es, RawEntryOk e) ∧ RawEntryOk (ds, bs) ∧ t = textInKey es ds ++ [chQuote, chColon, chQuote] ++ bs
  | .entryEnd es => (∀ e ∈ es, RawEntryOk e) ∧ es ≠ [] ∧ t = textThroughEntries es
  | .comma es => (∀ e ∈ es, RawEntryOk e) ∧ t = textBeforeEntry es
  | .closed es => TableSentence t es
  | .bad => True

/-! ### Soundness -/

theorem forall_mem_concat {α : Type} {p : α → Prop} {l : List α} {a : α} (hl : ∀ x ∈ l, p x) (ha : p a) :
    ∀ x ∈ l ++ [a], p x :=
  List.forall_mem_append.mpr ⟨hl, List.forall_mem_singleton.mpr ha⟩

/-- One more byte read. -/
theorem readUpTo_parseByte {t : List Byte} {st : ParseState} (h : ReadUpTo t st) (b : Byte) :
    ReadUpTo (t ++ [b]) (parseByte st b) := by
  cases st with
  | start =>
    obtain rfl : t = [] := h
    simp only [parseByte]
    split
    · next hb => exact congrArg ([·]) hb
    · trivial
  | opened =>
    obtain rfl : t = [chOpen] := h
    simp only [parseByte]
    split
    · next hb => exact ⟨List.forall_mem_nil _, by rw [hb]; rfl⟩
    · split
      · next hb => exact ⟨List.forall_mem_nil _, List.forall_mem_nil _, by rw [hb]; rfl⟩
      · trivial
  | key es ds =>
    obtain ⟨hes, hds, rfl⟩ := h
    simp only [parseByte]
    split
    · next hb => exact ⟨hes, forall_mem_concat hds hb, List.append_assoc ..⟩
    · split
      · next hb => exact ⟨hes, ⟨hb.2, hds, List.forall_mem_nil _⟩, by rw [hb.1]⟩
      · trivial
  | colon es ds =>
    obtain ⟨hes, hds, rfl⟩ := h
    simp only [parseByte]
    split
    · next hb => exact ⟨hes, hds, by rw [hb, List.append_assoc]; rfl⟩
    · trivial
  | quote es ds =>
    obtain ⟨hes, hds, rfl⟩ := h
    simp only [parseByte]
    split
    · next hb => exact ⟨hes, hds, by rw [hb, List.append_nil, List.append_assoc]; rfl⟩
    · trivial
  | code es ds bs =>
    obtain ⟨hes, ⟨hne, hds, hbs⟩, rfl⟩ := h
    simp only [parseByte]
    split
    · next hb => exact ⟨hes, ⟨hne, hds, forall_mem_concat hbs hb⟩, List.append_assoc ..⟩
    · split
      · next hb =>
        refine ⟨forall_mem_concat hes ⟨hne, hds, hbs⟩, List.concat_ne_nil _ _, ?_⟩
        rw [textThroughEntries_concat, hb, textInKey]
        simp only [rawEntryText, List.append_assoc]
      · trivial
  | entryEnd es =>
    obtain ⟨hes, hne, rfl⟩ := h
    simp only [parseByte]
    split
    · next hb => exact ⟨hes, by rw [hb, textThroughEntries_append_comma hne]⟩
    · split
      · next hb => exact ⟨hes, by rw [hb, textThroughEntries]⟩
      · trivial
  | comma es =>
    obtain ⟨hes, rfl⟩ := h
    simp only [parseByte]
    split
    · next hb => exact ⟨hes, List.forall_mem_nil _, by rw [hb, textInKey, List.append_nil]⟩
    · trivial
  | closed es => trivial
  | bad => trivial

theorem readUpTo_foldl {t : List Byte} {st : ParseState} (h : ReadUpTo t st) (u : List Byte) :
    ReadUpTo (t ++ u) (u.foldl parseByte st) := by
  induction u generalizing t st with
  | nil => rwa [List.append_nil]
  | cons b u ih =>
    have hnext := ih (readUpTo_parseByte h b)
    rwa [List.append_assoc, List.singleton_append] at hnext

theorem parseTable_eq_some_iff {t : List Byte} {es : List RawEntry} :
    parseTable t = some es ↔ t.foldl parseByte .start = .closed es := by
  unfold parseTable
  split
  · next h => simp [h]
  · next h => simpa using h es

theorem tableSentence_of_parseTable {t : List Byte} {es : List RawEntry} (h : parseTable t = some es) :
    TableSentence t es := by
  have hread : ReadUpTo t (t.foldl parseByte .start) := readUpTo_foldl (t := []) (st := .start) rfl t
  rwa [parseTable_eq_some_iff.mp h] at hread

/-! ### Completeness -/

theorem foldl_parseByte_digits {ds : List Byte} (h : ∀ b ∈ ds, isDigit b = true) (es : List RawEntry)
    (ds₀ : List Byte) : ds.foldl parseByte (.key es ds₀) = .key es (ds₀ ++ ds) := by
  induction ds generalizing ds₀ with
  | nil => rw [List.append_nil, List.foldl_nil]
  | cons b ds ih =>
    obtain ⟨hb, hds⟩ := List.forall_mem_cons.mp h
    rw [List.foldl_cons, parseByte, if_pos hb, ih hds, List.append_assoc, List.singleton_append]

theorem foldl_parseByte_bits {bs : List Byte} (h : ∀ b ∈ bs, b = 0x30 ∨ b = 0x31) (es : List RawEntry)
    (ds bs₀ : List Byte) : bs.foldl parseByte (.code es ds bs₀) = .code es ds (bs₀ ++ bs) := by
  induction bs generalizing bs₀ with
  | nil => rw [List.append_nil, List.foldl_nil]
  | cons b bs ih =>
    obtain ⟨hb, hbs⟩ := List.forall_mem_cons.mp h
    rw [List.foldl_cons, parseByte, if_pos hb, ih hbs, List.append_assoc, List.singleton_append]

theorem parseByte_key_quote (es : List RawEntry) {ds : List Byte} (h : ds ≠ []) :
    parseByte (.key es ds) chQuote = .colon es ds := by
  have hquote : isDigit chQuote = false := by decide
  simp [parseByte, hquote, h]

theorem parseByte_code_quote (es : List RawEntry) (ds bs : List Byte) :
    parseByte (.code es ds bs) chQuote = .entryEnd (es ++ [(ds, bs)]) := rfl

/-- A whole entry, from a state that takes its opening quote. -/
theorem foldl_parseByte_entry {st : ParseState} {es : List RawEntry} (hst : parseByte st chQuote = .key es [])
    {e : RawEntry} (he : RawEntryOk e) : (rawEntryText e).foldl parseByte st = .entryEnd (es ++ [e]) := by
  obtain ⟨hne, hds, hbs⟩ := he
  calc (rawEntryText e).foldl parseByte st
    _ = parseByte (e.2.foldl parseByte ([chQuote, chColon, chQuote].foldl parseByte
          (e.1.foldl parseByte (parseByte st chQuote)))) chQuote := by
      simp only [rawEntryText, List.foldl_append, List.foldl_cons, List.foldl_nil]
    _ = parseByte (e.2.foldl parseByte ([chColon, chQuote].foldl parseByte (.colon es e.1))) chQuote := by
      rw [hst, foldl_parseByte_digits hds, List.nil_append, List.foldl_cons, parseByte_key_quote es hne]
    _ = parseByte (e.2.foldl parseByte (.code es e.1 [])) chQuote := rfl
    _ = .entryEnd (es ++ [e]) := by
      rw [foldl_parseByte_bits hbs, List.nil_append, parseByte_code_quote]

/-- One or more entries joined by commas. -/
theorem foldl_parseByte_entries {st : ParseState} {es : List RawEntry} (hst : parseByte st chQuote = .key es [])
    {e : RawEntry} {rest : List RawEntry} (hok : ∀ d ∈ e :: rest, RawEntryOk d) :
    (joinComma ((e :: rest).map rawEntryText)).foldl parseByte st = .entryEnd (es ++ e :: rest) := by
  induction rest generalizing st es e with
  | nil => exact foldl_parseByte_entry hst (hok e List.mem_cons_self)
  | cons d rest ih =>
    obtain ⟨he, hrest⟩ := List.forall_mem_cons.mp hok
    have hcomma : parseByte (parseByte (.entryEnd (es ++ [e])) chComma) chQuote = .key (es ++ [e]) [] := rfl
    have hne : (d :: rest).map rawEntryText ≠ [] := List.cons_ne_nil _ _
    rw [List.map_cons, joinComma_cons hne, List.foldl_append, List.foldl_append,
      foldl_parseByte_entry hst he, List.foldl_cons, List.foldl_nil, ih hcomma hrest, List.append_assoc,
      List.singleton_append]

theorem parseTable_of_tableSentence {t : List Byte} {es : List RawEntry} (h : TableSentence t es) :
    parseTable t = some es := by
  obtain ⟨hok, rfl⟩ := h
  rw [parseTable_eq_some_iff, List.foldl_append, List.foldl_append]
  cases es with
  | nil => rfl
  | cons e rest =>
    have hopened : parseByte ([chOpen].foldl parseByte .start) chQuote = .key [] [] := rfl
    rw [foldl_parseByte_entries hopened hok]
    rfl

/-- Settles O45: a state of the reader tells the text read, and every sentence of the grammar is read to its end. -/
theorem readerAcceptsExactlyTheGrammar : Obligations.ReaderAcceptsExactlyTheGrammar :=
  fun _ _ => ⟨tableSentence_of_parseTable, parseTable_of_tableSentence⟩

end Sys2Proof.Machine
end

section
/-! PROOFS of the family 40_freq.md: the counters and the order of ORD that FREQ leaves (R95 to R97). -/

namespace Sys2Proof.Machine

/-! ### The order of ORD (R37, R95, R96) -/

/-- One byte more is listed last when it is new, and changes nothing when it is not. -/
theorem firstOccurrences_concat (seen : List Byte) (s : Byte) :
    firstOccurrences (seen ++ [s]) = if s ∈ seen then firstOccurrences seen else firstOccurrences seen ++ [s] := by
  induction seen with
  | nil => rfl
  | cons b seen ih =>
    rw [List.cons_append, firstOccurrences, firstOccurrences, ih]
    by_cases hs : s ∈ seen
    · rw [if_pos hs, if_pos (List.mem_cons_of_mem b hs)]
    · rw [if_neg hs, List.filter_append]
      by_cases hb : s = b <;> simp [hb, hs]

/-- The scan goes on with the list of first occurrences that it has begun. -/
theorem freqScan_snd {data seen : List Byte} {f : SymTab Word} (hc : Counted seen f (firstOccurrences seen))
    (hlen : seen.length + data.length < 2 ^ 32) :
    (freqScan data f (firstOccurrences seen)).2 = firstOccurrences (seen ++ data) := by
  induction data generalizing seen f with
  | nil => rw [List.append_nil, freqScan]
  | cons s rest ih =>
    rw [List.length_cons] at hlen
    have hnext : (if symGet f s = 0 then firstOccurrences seen ++ [s] else firstOccurrences seen) =
        firstOccurrences (seen ++ [s]) := by
      simp only [firstOccurrences_concat, hc.symGet_eq_zero_iff, ite_not]
    have hpush := hc.push s (by omega)
    rw [hnext] at hpush
    rw [freqScan, hnext, ih hpush (by rw [List.length_append, List.length_singleton]; omega), List.append_assoc,
      List.singleton_append]

theorem freqBuild_firstOccurrence_snd {data : List Byte} (hlen : data.length < 2 ^ 32) :
    (freqBuild .firstOccurrence data).2 = firstOccurrences data :=
  freqScan_snd (seen := []) counted_nil (by simpa using hlen)

theorem freqBuild_ascending_snd {data : List Byte} (hlen : data.length < 2 ^ 32) :
    (freqBuild .ascending data).2 = allSyms.filter fun b => data.contains b := by
  have hc := counted_freqBuild .ascending hlen
  have hpresent (b : Byte) : (symGet (freqBuild .ascending data).1 b != 0) = data.contains b := by
    rw [Bool.eq_iff_iff, bne_iff_ne, ← hc.mem_ord_iff, hc.mem, List.contains_iff_mem]
  exact List.filter_congr fun b _ => hpresent b

/-! ### What the counters and ORD have in common with the input (R97) -/

section
variable {seen : List Byte} {f : SymTab Word} {o : List Byte} (hc : Counted seen f o)
include hc

theorem Counted.sum_allSyms : (allSyms.map fun b => (symGet f b).toNat).sum = seen.length := by
  rw [List.map_congr_left fun b _ => hc.count b]
  exact sum_count_eq_length nodup_allSyms fun b _ => mem_allSyms b

/-- The list and the symbols with a count are the same symbols, each once. -/
theorem Counted.length_ord : o.length = (allSyms.filter fun b => symGet f b != 0).length := by
  refine List.Perm.length_eq ((List.perm_ext_iff_of_nodup hc.nodup (nodup_allSyms.filter _)).mpr fun b => ?_)
  rw [hc.mem_ord_iff, List.mem_filter, bne_iff_ne]
  exact (and_iff_right (mem_allSyms b)).symm

theorem Counted.length_ord_le : o.length ≤ min 256 seen.length :=
  Nat.le_min.mpr ⟨length_le_256 hc.nodup, hc.nodup.length_le_of_subset fun b => (hc.mem b).mp⟩

theorem Counted.ord_eq_nil_iff : o = [] ↔ seen = [] := by
  simp only [List.eq_nil_iff_forall_not_mem, hc.mem]

end

/-! ### The command -/

/-- FREQ replaces FREQ and ORD and sets the completion flags (R95). -/
theorem exec_freq {s : State} (h : s.fault = none) :
    exec .freq s = .next ((s.setFreq (freqBuild s.cfg.symOrder s.inBuf).1
      (freqBuild s.cfg.symOrder s.inBuf).2).complete 0x10) :=
  congrArg Host.Outcome.next (State.runCommand_ok h (freqStage_eq s))

/-- IN is too short for a counter to wrap (R36). -/
theorem inBuf_length_lt {s : State} (hcfg : s.cfg.wellFormed = true) (hmem : Memory.wf s = true) :
    s.inBuf.length < 2 ^ 32 := by
  obtain ⟨-, hcap⟩ := (params_wellFormed_iff s.cfg).mp hcfg
  obtain ⟨hin, -⟩ := (memory_wf_iff s).mp hmem
  omega

/-- Settles O28: the counters count and ORD lists the first occurrences by induction along the scan; the ascending ORD
keeps the symbols of non-zero count, which are those of IN. -/
theorem freqCountsTheInput : Obligations.FreqCountsTheInput := by
  intro s hcfg hmem hs
  have hlen := inBuf_length_lt hcfg hmem
  refine ⟨_, _, exec_freq hs, (counted_freqBuild _ hlen).count, fun horder => ?_, fun horder => ?_⟩
  · rw [State.setFreq_ord, horder, freqBuild_firstOccurrence_snd hlen]
  · rw [State.setFreq_ord, horder, freqBuild_ascending_snd hlen]

/-- Settles O29: each clause holds of any counters and list that are those of IN. -/
theorem freqCountsSumToTheInputLength : Obligations.FreqCountsSumToTheInputLength := by
  intro s t hcfg hmem hs h
  have hc := counted_freqBuild s.cfg.symOrder (inBuf_length_lt hcfg hmem)
  cases (exec_freq hs).symm.trans h
  exact ⟨hc.sum_allSyms, hc.length_ord, hc.length_ord_le, hc.ord_eq_nil_iff, hc.nodup⟩

end Sys2Proof.Machine
end

section
/-! PROOFS of the family 41_tree.md, first part: what TINIT and TMERGE leave (R103 to R105), and how many merges the loop of
TBUILD takes, which makes TBUILD its step commands (R108). -/

namespace Sys2Proof.Machine

/-- A command whose body succeeds completes, when no fault is recorded (R74). -/
theorem exec_of_body {i : Instr} (hi : i ≠ .rst) {s t : State} (hs : s.fault = none) (hbody : bodyOf i s = .ok t) :
    exec i s = .next (t.complete (opcode i)) := by
  rw [exec_eq_runCommand hi, State.runCommand_ok hs hbody]

/-! ### TINIT (R103) -/

/-- Settles O30: inserting the handles one by one sorts them, and no handle is lost. -/
theorem tinitBuildsLeavesAndQueue : Obligations.TinitBuildsLeavesAndQueue := by
  intro s hs
  refine ⟨initialQueue (treeLeaves s.freq s.ord), exec_of_body (i := .tinit) nofun hs (tinitStage_eq s),
    initialQueue_treeLeaves_perm s.freq s.ord, (queueSort_sorted _ List.nodup_range).imp fun hbefore => ?_⟩
  obtain hlt | ⟨heq, hlt⟩ := (queueBefore_iff _ _ _).mp hbefore
  · exact .inl hlt
  · exact .inr ⟨BitVec.eq_of_toNat_eq heq, hlt⟩

/-! ### TMERGE (R104, R105) -/

/-- R105: a handle above all of a sorted queue goes after the entries of frequency less than or equal to its own. -/
theorem queueInsert_eq_filter {arena : List Node} {q : List Nat} {h : Nat} (hlt : ∀ g ∈ q, g < h)
    (hq : q.Pairwise fun a b => queueBefore arena a b = true) :
    queueInsert arena q h = q.filter (fun g => (freqAt arena g).toNat ≤ (freqAt arena h).toNat) ++ [h] ++
      q.filter (fun g => (freqAt arena h).toNat < (freqAt arena g).toNat) := by
  induction q with
  | nil => rfl
  | cons g q ih =>
    obtain ⟨hg, hlt⟩ := List.forall_mem_cons.mp hlt
    obtain ⟨hfirst, hq⟩ := List.pairwise_cons.mp hq
    rw [queueInsert]
    split
    · next hbefore =>
      rw [queueBefore_iff] at hbefore
      have hle : (freqAt arena g).toNat ≤ (freqAt arena h).toNat := by omega
      rw [List.filter_cons_of_pos (by simpa using hle), List.filter_cons_of_neg (by simpa using hle), ih hlt hq]
      rfl
    · next hbefore =>
      rw [queueBefore_iff] at hbefore
      have habove : ∀ k ∈ g :: q, (freqAt arena h).toNat < (freqAt arena k).toNat :=
        List.forall_mem_cons.mpr ⟨by omega, fun k hk => by
          have := (queueBefore_iff _ _ _).mp (hfirst k hk)
          omega⟩
      rw [List.filter_eq_nil_iff.mpr fun k hk => by simpa using habove k hk,
        List.filter_eq_self.mpr fun k hk => by simpa using habove k hk]
      rfl

/-- The queue after a merge of the two lowest, its frequencies read in the arena before the merge (R105). -/
theorem TreeInv.mergeOnce_queue {cap : Nat} {arena : List Node} {a b : Nat} {rest : List Nat}
    (hi : TreeInv cap arena (a :: b :: rest)) :
    (Machine.mergeOnce arena (a :: b :: rest)).2 =
      rest.filter (fun g => (freqAt arena g).toNat ≤ (freqAt arena a + freqAt arena b).toNat) ++ [arena.length] ++
        rest.filter (fun g => (freqAt arena a + freqAt arena b).toNat < (freqAt arena g).toNat) := by
  have hlt : ∀ g ∈ rest, g < arena.length := fun g hg =>
    hi.lt_length (List.mem_cons_of_mem a (List.mem_cons_of_mem b hg))
  have hsorted := (List.pairwise_cons.mp (List.pairwise_cons.mp hi.sorted).2).2
  rw [mergeOnce_cons_cons]
  generalize freqAt arena a + freqAt arena b = f
  have hold : ∀ g ∈ rest, freqAt (arena ++ [Node.internal a (some b) f]) g = freqAt arena g := fun g hg =>
    freqAt_append_of_lt (hlt g hg)
  have hsorted' : rest.Pairwise fun g h => queueBefore (arena ++ [.internal a (some b) f]) g h = true :=
    hsorted.imp_of_mem fun hg hh hbefore => by rwa [queueBefore_append (hlt _ hg) (hlt _ hh)]
  simp only [queueInsert_eq_filter hlt hsorted', freqAt_append_last, nodeFreq]
  rw [List.filter_congr fun g hg => congrArg (fun k => decide (k.toNat ≤ f.toNat)) (hold g hg),
    List.filter_congr fun g hg => congrArg (fun k => decide (f.toNat < k.toNat)) (hold g hg)]

theorem mergeOnce_lone_leaf {arena : List Node} {a : Nat} {b : Byte} {f : Word} (ha : arena[a]? = some (.leaf b f)) :
    mergeOnce arena [a] = (arena ++ [.internal a none f], [arena.length]) := by
  rw [mergeOnce, ha]

/-- R104: a merge of a complete tree changes nothing. -/
theorem mergeOnce_of_treeDone {arena : List Node} {q : List Nat} (hd : treeDone arena q = true) :
    mergeOnce arena q = (arena, q) := by
  obtain rfl | ⟨h, rfl, hint⟩ := treeDone_iff.mp hd
  · rfl
  · obtain ⟨l, r, f, hh⟩ := isInternalAt_iff.mp hint
    rw [mergeOnce, hh]

theorem exec_tmerge {s : State} (hs : s.fault = none) :
    exec .tmerge s = .next ((s.setTree (mergeOnce s.node s.pq).1 (mergeOnce s.node s.pq).2).complete 0x21) :=
  exec_of_body (i := .tmerge) nofun hs (tmergeStage_eq s)

/-- Settles O31, case by case of R104. -/
theorem tmergeMergesTheTwoLowest : Obligations.TmergeMergesTheTwoLowest := by
  intro s htree hs
  have hi := htree.treeInv
  rw [exec_tmerge hs]
  refine ⟨fun hq => ?_, fun a b f hq ha => ?_, fun a l r f hq ha => ?_, fun a b rest hq => ?_⟩
  · rw [mergeOnce_of_treeDone (treeDone_iff.mpr (.inl hq))]
    rfl
  · rw [hq, mergeOnce_lone_leaf ha]
    rfl
  · rw [mergeOnce_of_treeDone (treeDone_iff.mpr (.inr ⟨a, hq, isInternalAt_iff.mpr ⟨l, r, f, ha⟩⟩))]
    rfl
  · rw [hq] at hi ⊢
    rw [hi.mergeOnce_queue]
    rfl

/-! ### The merging loop, merge by merge (R108) -/

theorem mergeLoop_succ (k : Nat) (arena : List Node) (q : List Nat) :
    mergeLoop (k + 1) arena q = mergeLoop k (mergeOnce arena q).1 (mergeOnce arena q).2 := by
  cases hd : treeDone arena q with
  | true => rw [mergeOnce_of_treeDone hd, mergeLoop_of_treeDone hd, mergeLoop_of_treeDone hd]
  | false => exact mergeLoop_succ_of_not_treeDone hd k

theorem mergeLoop_add (j k : Nat) (arena : List Node) (q : List Nat) :
    mergeLoop (j + k) arena q = mergeLoop k (mergeLoop j arena q).1 (mergeLoop j arena q).2 := by
  induction j generalizing arena q with
  | zero => rw [Nat.zero_add, mergeLoop]
  | succ j ih => rw [Nat.succ_add, mergeLoop_succ, ih, ← mergeLoop_succ]

/-- More merges than a complete tree takes are harmless (R104). -/
theorem mergeLoop_of_le {j k : Nat} (hjk : j ≤ k) {arena : List Node} {q : List Nat}
    (hd : treeDone (mergeLoop j arena q).1 (mergeLoop j arena q).2 = true) :
    mergeLoop k arena q = mergeLoop j arena q := by
  obtain ⟨i, rfl⟩ := Nat.exists_eq_add_of_le hjk
  rw [mergeLoop_add, mergeLoop_of_treeDone hd]

/-- The merges that a queue of `n` leaves takes: the one-symbol tree takes one, and otherwise each takes one entry from
the queue (R108). -/
def mergesNeeded (n : Nat) : Nat := if n = 1 then 1 else n - 1

theorem mergesNeeded_of_ne_one {n : Nat} (hn : n ≠ 1) : mergesNeeded n = n - 1 := if_neg hn

/-- The arena of a complete tree that `k` merges made from an arena: `k` records more. -/
def GrownBy (k : Nat) (arena : List Node) (r : List Node × List Nat) : Prop :=
  treeDone r.1 r.2 = true ∧ ∃ ext, ext.length = k ∧ r.1 = arena ++ ext

/-- A queue of two or more entries becomes a complete tree, whatever the arena holds. -/
theorem grownBy_mergeLoop_pair (a b : Nat) (rest : List Nat) (arena : List Node) :
    GrownBy (rest.length + 1) arena (mergeLoop (rest.length + 1) arena (a :: b :: rest)) := by
  generalize hlen : rest.length = k
  induction k generalizing arena a b rest with
  | zero =>
    obtain rfl := List.length_eq_zero_iff.mp hlen
    rw [mergeLoop_succ, mergeLoop, mergeOnce_cons_cons]
    exact ⟨isInternalAt_iff.mpr ⟨a, some b, _, List.getElem?_concat_length⟩, _, rfl, rfl⟩
  | succ k ih =>
    have hqueue := mergeOnce_cons_cons_queue_length arena a b rest
    rw [mergeLoop_succ]
    match hq : (mergeOnce arena (a :: b :: rest)).2 with
    | [] | [_] =>
      rw [hq, hlen] at hqueue
      cases hqueue
    | c :: d :: rest' =>
      rw [hq, hlen] at hqueue
      obtain ⟨hdone, ext, hext, harena⟩ := ih c d rest' (mergeOnce arena (a :: b :: rest)).1
        (Nat.succ.inj (Nat.succ.inj hqueue))
      refine ⟨hdone, Node.internal a (some b) (freqAt arena a + freqAt arena b) :: ext, congrArg Nat.succ hext, ?_⟩
      rw [harena, mergeOnce_cons_cons, List.append_assoc]
      rfl

theorem grownBy_mergeLoop_needed {arena : List Node} {q : List Nat} (hleaves : ∀ h ∈ q, isLeafAt arena h = true) :
    GrownBy (mergesNeeded q.length) arena (mergeLoop (mergesNeeded q.length) arena q) := by
  match q with
  | [] => exact ⟨rfl, [], rfl, (List.append_nil _).symm⟩
  | [h] =>
    obtain ⟨b, f, hh⟩ := isLeafAt_iff.mp (hleaves h List.mem_cons_self)
    rw [List.length_singleton, show mergesNeeded 1 = 0 + 1 from rfl, mergeLoop_succ, mergeLoop, mergeOnce_lone_leaf hh]
    exact ⟨isInternalAt_iff.mpr ⟨h, none, f, List.getElem?_concat_length⟩, _, rfl, rfl⟩
  | a :: b :: rest =>
    rw [mergesNeeded_of_ne_one (by simp)]
    exact grownBy_mergeLoop_pair a b rest arena

/-! ### The tree of TINIT and the merges after it (R108) -/

/-- NODE and PQ after TINIT and `k` merges. -/
def treeAfter (s : State) (k : Nat) : List Node × List Nat :=
  mergeLoop k (treeLeaves s.freq s.ord) (initialQueue (treeLeaves s.freq s.ord))

/-- NODE and PQ after TBUILD. -/
def builtTree (s : State) : List Node × List Nat := treeAfter s s.ord.length

theorem grownBy_treeAfter_needed (s : State) :
    GrownBy (mergesNeeded s.ord.length) (treeLeaves s.freq s.ord) (treeAfter s (mergesNeeded s.ord.length)) := by
  have hperm := initialQueue_treeLeaves_perm s.freq s.ord
  have hlen : (initialQueue (treeLeaves s.freq s.ord)).length = s.ord.length := by
    rw [hperm.length_eq, List.length_range]
  have hgrown := grownBy_mergeLoop_needed fun h (hh : h ∈ initialQueue (treeLeaves s.freq s.ord)) =>
    isLeafAt_iff.mpr ⟨_, _, treeLeaves_getElem? s.freq (List.mem_range.mp (hperm.mem_iff.mp hh))⟩
  rwa [hlen] at hgrown

theorem mergesNeeded_le (n : Nat) : mergesNeeded n ≤ n := by
  rw [mergesNeeded]
  split <;> omega

/-- Any number of merges from the needed one on gives the tree of TBUILD, whose loop makes at most `|ORD|`. -/
theorem treeAfter_eq_builtTree (s : State) {k : Nat} (hk : mergesNeeded s.ord.length ≤ k) :
    treeAfter s k = builtTree s := by
  obtain ⟨hdone, -⟩ := grownBy_treeAfter_needed s
  exact (mergeLoop_of_le hk hdone).trans (mergeLoop_of_le (mergesNeeded_le _) hdone).symm

theorem grownBy_builtTree (s : State) :
    GrownBy (mergesNeeded s.ord.length) (treeLeaves s.freq s.ord) (builtTree s) := by
  rw [← treeAfter_eq_builtTree s (Nat.le_refl _)]
  exact grownBy_treeAfter_needed s

/-- The tree of TBUILD is complete over ORD, and its leaves stand in the order of ORD. -/
theorem finished_builtTree (s : State) :
    Finished (builtTree s).1 (builtTree s).2 s.ord ∧ (builtTree s).1.filterMap leafSym = s.ord := by
  obtain ⟨arena, q, hloop, hfin⟩ := mergeLoop_tinit s.freq s.ord
  rwa [builtTree, treeAfter, hloop]

/-- NODE, PQ, CT and CT_ORD written from a tree, as ASSIGN does after the tree's merges. -/
def State.setTreeTable (s : State) (r : List Node × List Nat) : State :=
  (s.setTree r.1 r.2).setTable (assignTable r.1 r.2).1 (assignTable r.1 r.2).2

theorem exec_tbuild {s : State} (hs : s.fault = none) :
    exec .tbuild s = .next ((s.setTreeTable (builtTree s)).complete 0x22) := by
  obtain ⟨hfin, -⟩ := finished_builtTree s
  have hmerge := mergeLoopStage_eq (s.setTree (treeLeaves s.freq s.ord) (initialQueue (treeLeaves s.freq s.ord)))
  have hassign := assignStage_of_treeDone (s := s.setTree (builtTree s).1 (builtTree s).2) hfin.treeDone_eq_true
  exact exec_of_body (i := .tbuild) nofun hs
    (andThen_ok.mpr ⟨_, tinitStage_eq s, andThen_ok.mpr ⟨_, hmerge, hassign⟩⟩)

theorem Finished.assignTable_snd {arena : List Node} {q : List Nat} {syms : List Byte} (hd : Finished arena q syms)
    (harena : arena.filterMap leafSym = syms) : (assignTable arena q).2 = syms := by
  cases hroot : treeRoot arena q with
  | none => rw [assignTable_of_treeRoot_eq_none hroot, hd.eq_nil_of_treeRoot_eq_none hroot]
  | some root => rw [assignTable_of_treeRoot hroot, harena]

theorem length_builtTree (s : State) : (builtTree s).1.length =
    if s.ord.length = 0 then 0 else if s.ord.length = 1 then 2 else 2 * s.ord.length - 1 := by
  obtain ⟨-, ext, hext, harena⟩ := grownBy_builtTree s
  rw [harena, List.length_append, hext, treeLeaves, List.length_map, mergesNeeded]
  repeat' split
  all_goals omega

/-- Settles O32: the loop grows the leaves by one record per merge, and ASSIGN lists the leaves in their order. -/
theorem tbuildCompletesTheTree : Obligations.TbuildCompletesTheTree := by
  intro s hs
  obtain ⟨hfin, hsyms⟩ := finished_builtTree s
  obtain ⟨-, ext, -, harena⟩ := grownBy_builtTree s
  refine ⟨(builtTree s).1, (builtTree s).2, (assignTable (builtTree s).1 (builtTree s).2).1, ?_, hfin.treeDone_eq_true,
    length_builtTree s, ?_⟩
  · rw [exec_tbuild hs, State.setTreeTable, hfin.assignTable_snd hsyms]
    rfl
  · rw [harena]
    exact List.take_left' (List.length_map _)

/-! ### TBUILD by its step commands (R108, R203) -/

theorem execSeq_cons {i : Instr} {s t : State} (h : exec i s = .next t) (is : List Instr) :
    execSeq (i :: is) s = execSeq is t := by
  rw [execSeq, h]

/-- TMERGEs between a command and the next: the tree is merged as often, and the block has completed a command. -/
theorem execSeq_tmerges (k : Nat) (is : List Instr) {s : State} (hs : s.fault = none) (op : Byte) :
    ∃ op', execSeq (List.replicate k .tmerge ++ is) (s.complete op) =
      execSeq is ((s.setTree (mergeLoop k s.node s.pq).1 (mergeLoop k s.node s.pq).2).complete op') := by
  induction k generalizing s op with
  | zero => exact ⟨op, rfl⟩
  | succ k ih =>
    obtain ⟨op', hrest⟩ := ih (s := s.setTree (mergeOnce s.node s.pq).1 (mergeOnce s.node s.pq).2) hs 0x21
    refine ⟨op', ?_⟩
    rw [List.replicate_succ, List.cons_append, execSeq_cons (exec_tmerge (s := s.complete op) hs), mergeLoop_succ]
    exact hrest

theorem exec_assign_of_treeDone {s : State} (hs : s.fault = none) (hd : treeDone s.node s.pq = true) :
    exec .assign s = .next ((s.setTable (assignTable s.node s.pq).1 (assignTable s.node s.pq).2).complete 0x23) :=
  exec_of_body (i := .assign) nofun hs (assignStage_of_treeDone hd)

/-- Settles O33: from the needed number of merges on, the tree before ASSIGN is that of TBUILD's loop. -/
theorem tbuildIsItsStepCommands : Obligations.TbuildIsItsStepCommands := by
  intro s t k hs ht hk
  cases (exec_tbuild hs).symm.trans ht
  obtain ⟨hfin, -⟩ := finished_builtTree s
  have htree := treeAfter_eq_builtTree s hk
  obtain ⟨op, hmerges⟩ := execSeq_tmerges k [.assign]
    (s := s.setTree (treeLeaves s.freq s.ord) (initialQueue (treeLeaves s.freq s.ord))) hs 0x20
  rw [treeAfter] at htree
  rw [State.setTree_node, State.setTree_pq, htree] at hmerges
  calc execSeq ([.tinit] ++ List.replicate k .tmerge ++ [.assign]) s
    _ = execSeq (List.replicate k .tmerge ++ [.assign])
          ((s.setTree (treeLeaves s.freq s.ord) (initialQueue (treeLeaves s.freq s.ord))).complete 0x20) :=
      execSeq_cons (exec_of_body (i := .tinit) nofun hs (tinitStage_eq s)) _
    _ = execSeq [.assign] ((s.setTree (builtTree s).1 (builtTree s).2).complete op) := hmerges
    _ = some ((s.setTreeTable (builtTree s)).complete 0x23) :=
      execSeq_cons (exec_assign_of_treeDone (s := (s.setTree (builtTree s).1 (builtTree s).2).complete op) hs
        hfin.treeDone_eq_true) []

end Sys2Proof.Machine
end

section
/-! PROOFS of the family 41_tree.md, second part: the codes that ASSIGN takes from a complete tree are the paths of R107,
and what follows for the table of TBUILD (R106, R109). -/

namespace Sys2Proof.Machine

/-! ### Keys and paths of a tree in the arena (R101, R107) -/

theorem TreeAt.filterMap_leavesBelow {arena : List Node} {h : Nat} {t : CodeTree} (ht : TreeAt arena h t) {fuel : Nat}
    (hfuel : h < fuel) : (leavesBelow fuel arena h).filterMap (fun g => arena[g]?.bind leafSym) = t.syms := by
  induction ht generalizing fuel with
  | leaf hh =>
    obtain ⟨fuel, rfl⟩ := Nat.exists_eq_succ_of_ne_zero (Nat.ne_zero_of_lt hfuel)
    simp [leavesBelow, hh, leafSym, CodeTree.syms]
  | node hh hl hr _ _ ihl ihr =>
    obtain ⟨fuel, rfl⟩ := Nat.exists_eq_succ_of_ne_zero (Nat.ne_zero_of_lt hfuel)
    simp only [leavesBelow, hh, List.filterMap_append, CodeTree.syms]
    rw [ihl (by omega), ihr (by omega)]

theorem TreeAt.keyOf_eq {arena : List Node} {h : Nat} {t : CodeTree} (ht : TreeAt arena h t) :
    keyOf arena h = t.syms :=
  ht.filterMap_leavesBelow ht.lt_length

theorem pathTo_of_leaf {arena : List Node} {h : Nat} {s : Byte} {f : Word} (hh : arena[h]? = some (.leaf s f))
    (fuel : Nat) (b : Byte) : pathTo fuel arena h b = [] := by
  cases fuel with
  | zero => rfl
  | succ fuel => rw [pathTo, hh]

/-- R107: the path by keys is the path in the tree. -/
theorem TreeAt.pathTo_eq {arena : List Node} {h : Nat} {t : CodeTree} (ht : TreeAt arena h t) {b : Byte}
    (hb : b ∈ t.syms) {fuel : Nat} (hfuel : h < fuel) : pathTo fuel arena h b = t.path b := by
  induction ht generalizing fuel with
  | leaf hh => exact pathTo_of_leaf hh fuel b
  | @node h l r f tl tr hh hl hr htl htr ihl ihr =>
    obtain ⟨fuel, rfl⟩ := Nat.exists_eq_succ_of_ne_zero (Nat.ne_zero_of_lt hfuel)
    simp only [pathTo, hh, htl.keyOf_eq, htr.keyOf_eq]
    by_cases hbl : b ∈ tl.syms
    · rw [if_pos hbl, ihl hbl (by omega), CodeTree.path_node_of_mem hbl]
    · have hbr : b ∈ tr.syms := (List.mem_append.mp hb).resolve_left hbl
      rw [if_neg hbl, if_pos hbr, ihr hbr (by omega), CodeTree.path_node_of_not_mem hbl]

/-- In the one-symbol tree the path by keys is `0`. -/
theorem pathTo_single {arena : List Node} {h a : Nat} {s : Byte} {f g : Word}
    (hh : arena[h]? = some (.internal a none f)) (ha : arena[a]? = some (.leaf s g)) :
    pathTo arena.length arena h s = [false] := by
  have hlt := (List.getElem?_eq_some_iff.mp hh).1
  obtain ⟨fuel, hfuel⟩ := Nat.exists_eq_succ_of_ne_zero (Nat.ne_zero_of_lt hlt)
  have hkey : s ∈ keyOf arena a := (TreeAt.leaf ha).keyOf_eq ▸ List.mem_singleton_self s
  rw [hfuel, pathTo, hh]
  simp only [if_pos hkey, pathTo_of_leaf ha]

/-! ### The table of a complete tree (R106) -/

theorem symGet_assignTable_of_not_mem {arena : List Node} (q : List Nat) {b : Byte} (hb : b ∉ arena.filterMap leafSym) :
    symGet (assignTable arena q).1 b = [] := by
  cases hroot : treeRoot arena q with
  | none => rw [assignTable_of_treeRoot_eq_none hroot, symGet_replicate]
  | some root => rw [assignTable_of_treeRoot hroot, symGet_assignCodes, if_neg hb]

theorem TreeAt.symGet_assignTable {arena : List Node} {h : Nat} {l r : CodeTree} (ht : TreeAt arena h (.node l r))
    {b : Byte} (hleaf : b ∈ arena.filterMap leafSym) (hb : b ∈ (CodeTree.node l r).syms) :
    symGet (assignTable arena [h]).1 b = (CodeTree.node l r).path b := by
  rw [assignTable_of_treeRoot (treeRoot_singleton ht.isInternalAt_node), symGet_assignCodes, if_pos hleaf,
    ht.codesBelow_eq ht.lt_length, CodeTree.codeIn_codes hb, List.nil_append]

theorem symGet_assignTable_single {arena : List Node} {h a : Nat} {s : Byte} {f g : Word}
    (hh : arena[h]? = some (.internal a none f)) (ha : arena[a]? = some (.leaf s g)) (hlt : a < h) :
    symGet (assignTable arena [h]).1 s = [false] := by
  have hleaf : s ∈ arena.filterMap leafSym := List.mem_filterMap.mpr ⟨_, List.mem_of_getElem? ha, rfl⟩
  rw [assignTable_of_treeRoot (treeRoot_singleton (isInternalAt_iff.mpr ⟨_, _, _, hh⟩)), symGet_assignCodes,
    if_pos hleaf, codesBelow_single hh ha hlt, codeIn_cons, if_pos rfl]

theorem Finished.symGet_assignTable {arena : List Node} {root : Nat} {syms : List Byte}
    (hd : Finished arena [root] syms) (harena : arena.filterMap leafSym = syms) {b : Byte} (hb : b ∈ syms) :
    symGet (assignTable arena [root]).1 b = pathTo arena.length arena root b := by
  cases hd with
  | single hh ha hlt =>
    obtain rfl := List.mem_singleton.mp hb
    rw [symGet_assignTable_single hh ha hlt, pathTo_single hh ha]
  | tree ht hperm =>
    have hbt := hperm.mem_iff.mpr hb
    rw [ht.symGet_assignTable (harena ▸ hb) hbt, ht.pathTo_eq hbt ht.lt_length]

/-- Settles O34: ASSIGN walks the tree, and the walk gives each symbol its path by keys. -/
theorem assignRecordsThePaths : Obligations.AssignRecordsThePaths := by
  intro s htree hs
  refine ⟨fun hdone => ?_, fun hdone => ?_⟩
  · have hfin := htree.treeInv.finished hdone
    refine ⟨(assignTable s.node s.pq).1, ?_, fun b hb => symGet_assignTable_of_not_mem s.pq hb, fun root hq b hb => ?_⟩
    · rw [exec_assign_of_treeDone hs hdone, hfin.assignTable_snd rfl]
      rfl
    · rw [hq] at hfin ⊢
      exact hfin.symGet_assignTable rfl hb
  · obtain ⟨hnot, -⟩ | ⟨-, herror⟩ := assignStage_cases s
    · rw [hdone] at hnot
      cases hnot
    · rw [exec_eq_runCommand (i := .assign) nofun, State.runCommand_error (body := bodyOf .assign) hs herror]
      rfl

/-! ### The table of TBUILD (R109) -/

/-- The elements that TBUILD writes, but for PQ (R108). -/
theorem tbuild_elements {s t : State} (hs : s.fault = none) (ht : exec .tbuild s = .next t) :
    t.node = (builtTree s).1 ∧ t.ct = (assignTable (builtTree s).1 (builtTree s).2).1 ∧ t.ctOrd = s.ord := by
  cases (exec_tbuild hs).symm.trans ht
  obtain ⟨hfin, hsyms⟩ := finished_builtTree s
  exact ⟨rfl, rfl, hfin.assignTable_snd hsyms⟩

/-- Settles O35: the tree of TBUILD is complete, and the table of any complete tree obeys R45 (b) and (c). -/
theorem tbuildGivesAPrefixFreeTable : Obligations.TbuildGivesAPrefixFreeTable := by
  intro s t _ hfreq hs ht
  obtain ⟨-, hct, hctOrd⟩ := tbuild_elements hs ht
  obtain ⟨hfin, hsyms⟩ := finished_builtTree s
  obtain ⟨-, hentry, hlen, hprefix⟩ := hfin.tableOk hsyms hfreq.1
  rw [hfin.assignTable_snd hsyms] at hentry hprefix
  rw [hct]
  exact ⟨hctOrd, hentry, fun b hb => ⟨List.length_pos_iff.mpr ((hentry b).mp hb), hlen b⟩,
    fun b hb c hc hne => isprefix_eq_false_iff.mp (hprefix b hb c hc hne)⟩

/-- A complete tree over two or more symbols is a full binary tree, whose paths are the codes. -/
theorem Finished.exists_tree {arena : List Node} {q : List Nat} {syms : List Byte} (hd : Finished arena q syms)
    (harena : arena.filterMap leafSym = syms) (htwo : 2 ≤ syms.length) :
    ∃ root t, q = [root] ∧ TreeAt arena root t ∧ t.syms.Perm syms ∧
      ∀ b ∈ syms, symGet (assignTable arena q).1 b = t.path b := by
  cases hd with
  | empty => cases htwo
  | single => exact absurd htwo (Nat.lt_irrefl 1)
  | tree ht hperm =>
    exact ⟨_, _, rfl, ht, hperm, fun b hb => ht.symGet_assignTable (harena ▸ hb) (hperm.mem_iff.mpr hb)⟩

/-- Follow the bits of `w` from the root: each leads to a child, until a leaf is reached. -/
theorem CodeTree.exists_path_prefix {t : CodeTree} (hnodup : t.syms.Nodup) {w : BitString}
    (hw : t.syms.length ≤ w.length + 1) : ∃ b ∈ t.syms, t.path b <+: w := by
  induction t generalizing w with
  | leaf s => exact ⟨s, List.mem_singleton_self s, List.nil_prefix⟩
  | node l r ihl ihr =>
    obtain ⟨hl, hr, hdisjoint⟩ := List.nodup_append.mp hnodup
    have hlpos := l.syms_length_pos
    have hrpos := r.syms_length_pos
    rw [syms, List.length_append] at hw
    match w with
    | [] => exact absurd hw (by simp only [List.length_nil]; omega)
    | false :: w =>
      rw [List.length_cons] at hw
      obtain ⟨b, hb, hprefix⟩ := ihl hl (w := w) (by omega)
      refine ⟨b, List.mem_append_left _ hb, ?_⟩
      rw [path_node_of_mem hb]
      exact List.cons_prefix_cons.mpr ⟨rfl, hprefix⟩
    | true :: w =>
      rw [List.length_cons] at hw
      obtain ⟨b, hb, hprefix⟩ := ihr hr (w := w) (by omega)
      refine ⟨b, List.mem_append_right _ hb, ?_⟩
      rw [path_node_of_not_mem fun hbl => hdisjoint b hbl b hb rfl]
      exact List.cons_prefix_cons.mpr ⟨rfl, hprefix⟩

/-- The tree of TBUILD satisfies R45. -/
theorem treeInv_builtTree {s : State} (hcfg : s.cfg.wellFormed = true) (hfreq : FreqOk s) :
    TreeInv s.cfg.bufCap (builtTree s).1 (builtTree s).2 := by
  obtain ⟨-, hcap⟩ := (params_wellFormed_iff s.cfg).mp hcfg
  obtain ⟨hord, -, hsum⟩ := hfreq
  exact (treeInv_tinit hord hsum).mergeLoop (Nat.lt_of_le_of_lt hcap (by decide)) s.ord.length

theorem TreeInv.paired_of_two_leaves {cap : Nat} {arena : List Node} {q : List Nat} (hi : TreeInv cap arena q)
    (htwo : 2 ≤ (arena.filterMap leafSym).length) : Paired arena := by
  refine hi.paired_or_single.resolve_right ?_
  rintro ⟨s, g, f, rfl, -⟩
  exact absurd htwo (by simp [leafSym])

/-- Settles O36: in a full binary tree every bit leads on to a child, so 255 bits pass a leaf of at most 256. -/
theorem tbuildGivesACompleteCode : Obligations.TbuildGivesACompleteCode := by
  intro s t hcfg hfreq hs ht
  obtain ⟨hnode, hct, hctOrd⟩ := tbuild_elements hs ht
  obtain ⟨hfin, hsyms⟩ := finished_builtTree s
  rw [hnode, hct, hctOrd]
  refine ⟨fun htwo => ⟨fun l r f hmem hr => ?_, fun w hw => ?_⟩, fun b hb => ?_⟩
  · have hpaired := (treeInv_builtTree hcfg hfreq).paired_of_two_leaves (hsyms.symm ▸ htwo)
    exact hpaired l f (hr ▸ hmem)
  · obtain ⟨root, tree, -, -, hperm, hcode⟩ := hfin.exists_tree hsyms htwo
    have hlen := length_le_256 hfreq.1
    obtain ⟨b, hb, hprefix⟩ := CodeTree.exists_path_prefix (hperm.nodup_iff.mpr hfreq.1) (w := w)
      (by rw [hperm.length_eq]; omega)
    have hbord := hperm.mem_iff.mp hb
    exact ⟨b, hbord, (hcode b hbord).symm ▸ hprefix⟩
  · rw [hb] at hfin
    generalize (builtTree s).1 = arena, (builtTree s).2 = q at hfin
    cases hfin with
    | single hh ha hlt => exact symGet_assignTable_single hh ha hlt
    | @tree _ l r _ _ hperm =>
      have hlen := hperm.length_eq
      have hl := l.syms_length_pos
      have hr := r.syms_length_pos
      rw [CodeTree.syms, List.length_append, List.length_singleton] at hlen
      omega

end Sys2Proof.Machine
end

section
/-! PROOFS of the family 41_tree.md, third part: a symbol of higher frequency gets no longer code (R110).  Take the merges
backwards, from the root alone to the leaves, with the depth in the finished tree of each handle in the queue.  In the
order of the queue the depths never increase, and the first of the queue is at most one deeper than any handle that is no
heavier than the two first together. -/

namespace Sys2Proof.Machine

/-- `d h` is the depth in the finished tree `t` of each handle `h` of the queue, and follows the order of the queue. -/
structure Depths (t : CodeTree) (arena : List Node) (q : List Nat) (d : Nat → Nat) : Prop where
  path : ∀ h ∈ q, ∀ u, TreeAt arena h u → ∀ b ∈ u.syms, (t.path b).length = d h + (u.path b).length
  antitone : ∀ g ∈ q, ∀ h ∈ q, queueBefore arena g h = true → d h ≤ d g
  spread : ∀ a b rest, q = a :: b :: rest → ∀ n ∈ q,
    (freqAt arena n).toNat ≤ (freqAt arena a).toNat + (freqAt arena b).toNat → d a ≤ d n + 1

theorem queueBefore_irrefl (arena : List Node) (h : Nat) : queueBefore arena h h = false := by
  simp [queueBefore]

theorem queueBefore_asymm {arena : List Node} {g h : Nat} (hbefore : queueBefore arena g h = true) :
    queueBefore arena h g = false := by
  rw [← Bool.not_eq_true]
  intro hafter
  have hself := queueBefore_trans hbefore hafter
  rw [queueBefore_irrefl] at hself
  cases hself

/-- The finished tree is at depth 0. -/
theorem depths_root {arena : List Node} {root : Nat} {t : CodeTree} (ht : TreeAt arena root t) :
    Depths t arena [root] fun _ => 0 where
  path h hh u hu b _ := by
    obtain rfl := List.mem_singleton.mp hh
    rw [ht.unique hu, Nat.zero_add]
  antitone _ _ _ _ _ := Nat.le_refl 0
  spread _ _ _ hq := nomatch hq

/-! ### One merge taken back -/

/-- The depths before the merge of `a` and `b` to the handle `n`. -/
def splitDepth (d : Nat → Nat) (n a b h : Nat) : Nat := if h = a ∨ h = b then d n + 1 else d h

theorem splitDepth_merged (d : Nat → Nat) (n : Nat) {a b h : Nat} (hh : h = a ∨ h = b) :
    splitDepth d n a b h = d n + 1 := if_pos hh

theorem mem_merged_queue {arena : List Node} {a b : Nat} {rest : List Nat} {h : Nat} :
    h ∈ (mergeOnce arena (a :: b :: rest)).2 ↔ h = arena.length ∨ h ∈ rest := by
  rw [mergeOnce_cons_cons, mem_queueInsert]

section
variable {cap : Nat} {arena : List Node} {a b : Nat} {rest : List Nat}
  (hi : TreeInv cap arena (a :: b :: rest))
include hi

theorem TreeInv.lt_length_of_mem_rest {h : Nat} (hh : h ∈ rest) : h < arena.length :=
  hi.lt_length (List.mem_cons_of_mem a (List.mem_cons_of_mem b hh))

theorem TreeInv.before_rest {g h : Nat} (hg : g = a ∨ g = b) (hh : h ∈ rest) : queueBefore arena g h = true := by
  obtain ⟨ha, hsorted⟩ := List.pairwise_cons.mp hi.sorted
  obtain rfl | rfl := hg
  · exact ha h (List.mem_cons_of_mem b hh)
  · exact (List.pairwise_cons.mp hsorted).1 h hh

theorem TreeInv.splitDepth_rest (d : Nat → Nat) (n : Nat) {h : Nat} (hh : h ∈ rest) : splitDepth d n a b h = d h := by
  refine if_neg fun hab => ?_
  have hself := hi.before_rest hab hh
  rw [queueBefore_irrefl] at hself
  cases hself

theorem TreeInv.freqAt_merged_rest {h : Nat} (hh : h ∈ rest) :
    freqAt (Machine.mergeOnce arena (a :: b :: rest)).1 h = freqAt arena h :=
  freqAt_append_of_lt (hi.lt_length_of_mem_rest hh)

/-- The merged frequency is the sum of the two, without wrapping (R38). -/
theorem TreeInv.freqAt_merged_new (hcap : cap < 2 ^ 32) :
    (freqAt (Machine.mergeOnce arena (a :: b :: rest)).1 arena.length).toNat =
      (freqAt arena a).toNat + (freqAt arena b).toNat := by
  have hfreqs := hi.freqs
  rw [List.map_cons, List.map_cons, List.sum_cons, List.sum_cons] at hfreqs
  rw [mergeOnce_cons_cons, freqAt_append_last, nodeFreq, BitVec.toNat_add]
  exact Nat.mod_eq_of_lt (by omega)

/-- The two merged were the lowest: no handle of the queue after the merge is lighter than either. -/
theorem TreeInv.merged_freq_ge (hcap : cap < 2 ^ 32) {h : Nat}
    (hh : h ∈ (Machine.mergeOnce arena (a :: b :: rest)).2) :
    (freqAt arena a).toNat ≤ (freqAt (Machine.mergeOnce arena (a :: b :: rest)).1 h).toNat ∧
      (freqAt arena b).toNat ≤ (freqAt (Machine.mergeOnce arena (a :: b :: rest)).1 h).toNat := by
  obtain rfl | hh := mem_merged_queue.mp hh
  · have hnew := hi.freqAt_merged_new hcap
    omega
  · have ha := (queueBefore_iff _ _ _).mp (hi.before_rest (.inl rfl) hh)
    have hb := (queueBefore_iff _ _ _).mp (hi.before_rest (.inr rfl) hh)
    rw [hi.freqAt_merged_rest hh]
    omega

end

theorem TreeInv.first_before {cap : Nat} {arena : List Node} {c : Nat} {q : List Nat}
    (hi : TreeInv cap arena (c :: q)) {h : Nat} (hh : h ∈ c :: q) : h = c ∨ queueBefore arena c h = true :=
  (List.mem_cons.mp hh).imp_right fun hh => (List.pairwise_cons.mp hi.sorted).1 h hh

/-- The spread in the queue after a merge: no entry is more than one deeper than the merged handle, which is no heavier
than the two first together. -/
theorem Depths.le_merged {t : CodeTree} {cap : Nat} {arena : List Node} {a b : Nat} {rest : List Nat} {d : Nat → Nat}
    (hd : Depths t (mergeOnce arena (a :: b :: rest)).1 (mergeOnce arena (a :: b :: rest)).2 d)
    (hi : TreeInv cap arena (a :: b :: rest)) (hcap : cap < 2 ^ 32) {h : Nat} (hh : h ∈ rest) :
    d h ≤ d arena.length + 1 := by
  have hmerged := hi.mergeOnce hcap
  have hqueue := mergeOnce_cons_cons_queue_length arena a b rest
  have hmem : h ∈ (mergeOnce arena (a :: b :: rest)).2 := mem_merged_queue.mpr (.inr hh)
  have hnew : arena.length ∈ (mergeOnce arena (a :: b :: rest)).2 := mem_merged_queue.mpr (.inl rfl)
  have hsum := hi.freqAt_merged_new hcap
  have hlow := fun g (hg : g ∈ (mergeOnce arena (a :: b :: rest)).2) => hi.merged_freq_ge hcap hg
  generalize (mergeOnce arena (a :: b :: rest)).1 = arena', (mergeOnce arena (a :: b :: rest)).2 = q' at *
  match q' with
  | [] => cases hmem
  | [_] => exact absurd (Nat.succ.inj hqueue).symm (Nat.ne_of_gt (List.length_pos_of_mem hh))
  | c :: e :: rest' =>
    have hc := hlow c List.mem_cons_self
    have he := hlow e (List.mem_cons_of_mem c List.mem_cons_self)
    have hspread := hd.spread c e rest' rfl arena.length hnew (by omega)
    obtain rfl | hbefore := hmerged.first_before hmem
    · exact hspread
    · exact Nat.le_trans (hd.antitone c List.mem_cons_self h hmem hbefore) hspread

/-- The two merged trees lie one below the merged one. -/
theorem Depths.path_of_merge {t : CodeTree} {cap : Nat} {arena : List Node} {a b : Nat} {rest : List Nat}
    {d : Nat → Nat} (hd : Depths t (mergeOnce arena (a :: b :: rest)).1 (mergeOnce arena (a :: b :: rest)).2 d)
    (hi : TreeInv cap arena (a :: b :: rest)) : ∀ h ∈ a :: b :: rest, ∀ u, TreeAt arena h u → ∀ s ∈ u.syms,
      (t.path s).length = splitDepth d arena.length a b h + (u.path s).length := by
  have hp : Paired arena := hi.paired_or_single.resolve_right fun ⟨_, _, _, _, hq⟩ => nomatch hq
  obtain ⟨tree, htree, hsyms⟩ := hi.forest hp
  have hnodup := hsyms.nodup_iff.mpr hi.symsNodup
  rw [List.flatMap_cons, List.flatMap_cons] at hnodup
  obtain ⟨-, -, hdisjoint⟩ := List.nodup_append.mp hnodup
  obtain ⟨ha, htree⟩ := List.forall_mem_cons.mp htree
  obtain ⟨hb, -⟩ := List.forall_mem_cons.mp htree
  have hnew : TreeAt (mergeOnce arena (a :: b :: rest)).1 arena.length (.node (tree a) (tree b)) :=
    .node List.getElem?_concat_length ha.lt_length hb.lt_length (ha.append _) (hb.append _)
  have hpath := hd.path _ (mem_merged_queue.mpr (.inl rfl)) _ hnew
  refine List.forall_mem_cons.mpr ⟨fun u hu s hs => ?_, List.forall_mem_cons.mpr ⟨fun u hu s hs => ?_,
    fun h hh u hu s hs => ?_⟩⟩
  · obtain rfl := hu.unique ha
    rw [hpath s (List.mem_append_left _ hs), CodeTree.path_node_of_mem hs, splitDepth_merged d _ (.inl rfl),
      List.length_cons]
    omega
  · obtain rfl := hu.unique hb
    have hleft : s ∉ (tree a).syms := fun hs' => hdisjoint s hs' s (List.mem_append_left _ hs) rfl
    rw [hpath s (List.mem_append_right _ hs), CodeTree.path_node_of_not_mem hleft, splitDepth_merged d _ (.inr rfl),
      List.length_cons]
    omega
  · rw [hi.splitDepth_rest d _ hh]
    exact hd.path h (mem_merged_queue.mpr (.inr hh)) u (hu.append _) s hs

/-- A merge taken back keeps the order of the depths. -/
theorem Depths.split {t : CodeTree} {cap : Nat} {arena : List Node} {a b : Nat} {rest : List Nat} {d : Nat → Nat}
    (hd : Depths t (mergeOnce arena (a :: b :: rest)).1 (mergeOnce arena (a :: b :: rest)).2 d)
    (hi : TreeInv cap arena (a :: b :: rest)) (hcap : cap < 2 ^ 32) :
    Depths t arena (a :: b :: rest) (splitDepth d arena.length a b) := by
  have hmem : ∀ h ∈ a :: b :: rest, (h = a ∨ h = b) ∨ h ∈ rest := fun h hh => by
    rwa [List.mem_cons, List.mem_cons, ← or_assoc] at hh
  have hkept : ∀ h ∈ rest, h ∈ (mergeOnce arena (a :: b :: rest)).2 := fun h hh => mem_merged_queue.mpr (.inr hh)
  refine ⟨hd.path_of_merge hi, fun g hg h hh hbefore => ?_, fun a' b' rest' hq n hn hle => ?_⟩
  · rcases hmem g hg with hg | hg <;> rcases hmem h hh with hh | hh
    · exact Nat.le_of_eq ((splitDepth_merged d _ hh).trans (splitDepth_merged d _ hg).symm)
    · rw [splitDepth_merged d _ hg, hi.splitDepth_rest d _ hh]
      exact hd.le_merged hi hcap hh
    · have hafter := queueBefore_asymm hbefore
      rw [hi.before_rest hh hg] at hafter
      cases hafter
    · rw [hi.splitDepth_rest d _ hg, hi.splitDepth_rest d _ hh]
      refine hd.antitone g (hkept g hg) h (hkept h hh) ?_
      rwa [mergeOnce_cons_cons, queueBefore_append (hi.lt_length_of_mem_rest hg) (hi.lt_length_of_mem_rest hh)]
  · cases hq
    rw [splitDepth_merged d _ (.inl rfl)]
    rcases hmem n hn with hn | hn
    · rw [splitDepth_merged d _ hn]
      exact Nat.le_succ _
    · have hnew := hi.freqAt_merged_new hcap
      have hbefore : queueBefore (mergeOnce arena (a :: b :: rest)).1 n arena.length = true := by
        have hlt := hi.lt_length_of_mem_rest hn
        rw [queueBefore_iff, hi.freqAt_merged_rest hn]
        omega
      rw [hi.splitDepth_rest d _ hn]
      exact Nat.succ_le_succ (hd.antitone n (hkept n hn) _ (mem_merged_queue.mpr (.inl rfl)) hbefore)

/-! ### All merges -/

/-- The depths in the finished tree of the handles of a queue of `k + 1` entries, by induction on the merges left. -/
theorem exists_depths {cap : Nat} (hcap : cap < 2 ^ 32) {k : Nat} {arena : List Node} {q : List Nat}
    (hi : TreeInv cap arena q) (hlen : q.length = k + 1) {root : Nat} {t : CodeTree}
    (hroot : (mergeLoop k arena q).2 = [root]) (ht : TreeAt (mergeLoop k arena q).1 root t) :
    ∃ d, Depths t arena q d := by
  induction k generalizing arena q with
  | zero =>
    obtain rfl : q = [root] := hroot
    exact ⟨_, depths_root ht⟩
  | succ k ih =>
    rw [mergeLoop_succ] at hroot ht
    match q, hlen with
    | a :: b :: rest, hlen =>
      have hqueue := mergeOnce_cons_cons_queue_length arena a b rest
      obtain ⟨d, hd⟩ := ih (hi.mergeOnce hcap) (hqueue.trans (Nat.succ.inj hlen)) hroot ht
      exact ⟨_, hd.split hi hcap⟩

theorem two_le_length_of_mem_of_ne {l : List Byte} {a b : Byte} (ha : a ∈ l) (hb : b ∈ l) (hne : a ≠ b) :
    2 ≤ l.length := by
  match l, ha, hb with
  | [c], ha, hb => exact absurd ((List.mem_singleton.mp ha).trans (List.mem_singleton.mp hb).symm) hne
  | _ :: _ :: rest, _, _ => exact Nat.le_add_left 2 rest.length

/-- The leaf of a symbol of ORD, with its handle in the queue of TINIT (R103). -/
theorem exists_leaf_in_initialQueue (freq : SymTab Word) {ord : List Byte} {b : Byte} (hb : b ∈ ord) :
    ∃ h ∈ initialQueue (treeLeaves freq ord), (treeLeaves freq ord)[h]? = some (.leaf b (symGet freq b)) := by
  obtain ⟨h, hh, rfl⟩ := List.getElem_of_mem hb
  refine ⟨h, (initialQueue_treeLeaves_perm freq ord).mem_iff.mpr (List.mem_range.mpr hh), ?_⟩
  rw [treeLeaves, List.getElem?_map, List.getElem?_eq_getElem hh]
  rfl

/-- Settles O37: the leaf of the higher frequency comes later in the queue of TINIT, so it is no deeper in the tree. -/
theorem higherFrequencyNeverGetsALongerCode : Obligations.HigherFrequencyNeverGetsALongerCode := by
  intro s t hcfg hfreq hs ht a ha b hb hlt
  obtain ⟨-, hct, -⟩ := tbuild_elements hs ht
  obtain ⟨hfin, hsyms⟩ := finished_builtTree s
  obtain ⟨-, hcap⟩ := (params_wellFormed_iff s.cfg).mp hcfg
  obtain ⟨hord, -, hsum⟩ := hfreq
  have htwo : 2 ≤ s.ord.length := two_le_length_of_mem_of_ne ha hb fun hab => by
    subst hab
    exact Nat.lt_irrefl _ hlt
  obtain ⟨root, tree, hroot, htree, -, hcode⟩ := hfin.exists_tree hsyms htwo
  have hneeded : mergesNeeded s.ord.length = s.ord.length - 1 := mergesNeeded_of_ne_one (by omega)
  rw [← treeAfter_eq_builtTree s (Nat.le_of_eq hneeded)] at hroot htree
  have hlen : (initialQueue (treeLeaves s.freq s.ord)).length = s.ord.length - 1 + 1 := by
    rw [(initialQueue_treeLeaves_perm s.freq s.ord).length_eq, List.length_range]
    omega
  obtain ⟨d, hd⟩ := exists_depths (Nat.lt_of_le_of_lt hcap (by decide)) (treeInv_tinit hord hsum) hlen hroot htree
  obtain ⟨i, hi, hleafa⟩ := exists_leaf_in_initialQueue s.freq ha
  obtain ⟨j, hj, hleafb⟩ := exists_leaf_in_initialQueue s.freq hb
  have hbefore : queueBefore (treeLeaves s.freq s.ord) j i = true := by
    rw [queueBefore_iff, freqAt_of_eq_some hleafa, freqAt_of_eq_some hleafb]
    exact .inl hlt
  rw [hct, hcode a ha, hcode b hb, hd.path i hi _ (.leaf hleafa) a (List.mem_singleton_self a),
    hd.path j hj _ (.leaf hleafb) b (List.mem_singleton_self b)]
  exact hd.antitone j hj i hi hbefore

end Sys2Proof.Machine
end

section
/-! PROOFS of the family 42_codetable.md: what APPLY and DECODE make of a sequence of codes (R120, R122), and that the one
inverts the other (R124). -/

namespace Sys2Proof.Machine

/-- A command whose body raises a fault faults, when no fault is recorded yet (R74, R183). -/
theorem exec_of_body_error {i : Instr} (hi : i ≠ .rst) {s : State} {r : Raise} (hs : s.fault = none)
    (hbody : bodyOf i s = .error r) : exec i s = .next (s.raise r) := by
  rw [exec_eq_runCommand hi, State.runCommand_error hs hbody]

@[simp] theorem codesOf_nil (ct : SymTab BitString) : codesOf ct [] = [] := rfl

@[simp] theorem codesOf_cons (ct : SymTab BitString) (b : Byte) (data : List Byte) :
    codesOf ct (b :: data) = symGet ct b ++ codesOf ct data := List.flatMap_cons

/-! ### APPLY (R120) -/

section
variable {cap : Nat} {ct : SymTab BitString}

theorem applyScan_cons_of_ne_nil {s : Byte} (hs : symGet ct s ≠ []) {b : BitString}
    (hfit : b.length + (symGet ct s).length ≤ 8 * cap) (i : Nat) (rest : List Byte) :
    applyScan cap ct i (s :: rest) b = applyScan cap ct (i + 1) rest (b ++ symGet ct s) := by
  rw [applyScan, if_neg (by rwa [List.length_eq_zero_iff]), if_neg (Nat.not_lt.mpr hfit)]

theorem applyScan_cons_of_eq_nil {s : Byte} (hs : symGet ct s = []) (i : Nat) (rest : List Byte) (b : BitString) :
    applyScan cap ct i (s :: rest) b = .error (raiseLookup i) := by
  rw [applyScan, if_pos (List.length_eq_zero_iff.mpr hs)]

theorem applyScan_cons_of_not_fit {s : Byte} (hs : symGet ct s ≠ []) {b : BitString}
    (hfit : 8 * cap < b.length + (symGet ct s).length) (i : Nat) (rest : List Byte) :
    applyScan cap ct i (s :: rest) b = .error (raiseCapacity 1) := by
  rw [applyScan, if_neg (by rwa [List.length_eq_zero_iff]), if_pos hfit]

/-- The scan passes over bytes that have codes which fit, appending the codes. -/
theorem applyScan_append {pre : List Byte} (hpre : ∀ c ∈ pre, symGet ct c ≠ []) {b : BitString}
    (hfit : b.length + (codesOf ct pre).length ≤ 8 * cap) (i : Nat) (rest : List Byte) :
    applyScan cap ct i (pre ++ rest) b = applyScan cap ct (i + pre.length) rest (b ++ codesOf ct pre) := by
  induction pre generalizing i b with
  | nil => simp
  | cons s pre ih =>
    rw [codesOf_cons, List.length_append, ← Nat.add_assoc] at hfit
    rw [List.cons_append, applyScan_cons_of_ne_nil (hpre s List.mem_cons_self) (Nat.le_of_add_right_le hfit),
      ih (fun c hc => hpre c (List.mem_cons_of_mem s hc)) (by rwa [List.length_append]), codesOf_cons,
      List.append_assoc, List.length_cons, Nat.add_right_comm, Nat.add_assoc i]

theorem applyCodes_append {pre : List Byte} (hpre : ∀ c ∈ pre, symGet ct c ≠ [])
    (hfit : (codesOf ct pre).length ≤ 8 * cap) (rest : List Byte) :
    applyCodes cap ct (pre ++ rest) = applyScan cap ct pre.length rest (codesOf ct pre) := by
  rw [applyCodes, applyScan_append hpre (by simpa using hfit), Nat.zero_add, List.nil_append]

/-- A scan that succeeds met only bytes that have a code, and appended their codes. -/
theorem applyScan_ok {data : List Byte} {i : Nat} {b r : BitString} (h : applyScan cap ct i data b = .ok r) :
    (∀ c ∈ data, symGet ct c ≠ []) ∧ r = b ++ codesOf ct data := by
  induction data generalizing i b with
  | nil =>
    cases h
    exact ⟨nofun, (List.append_nil _).symm⟩
  | cons s rest ih =>
    rw [applyScan] at h
    split at h
    · cases h
    · next hs =>
      split at h
      · cases h
      · obtain ⟨hrest, rfl⟩ := ih h
        refine ⟨List.forall_mem_cons.mpr ⟨fun hnil => hs (List.length_eq_zero_iff.mpr hnil), hrest⟩, ?_⟩
        rw [codesOf_cons, List.append_assoc]

end

theorem exec_apply_of_ok {s : State} (hs : s.fault = none) {b : BitString}
    (h : applyCodes s.cfg.bufCap s.ct s.inBuf = .ok b) : exec .apply s = .next ((s.setBits b).complete 0x30) :=
  exec_of_body (i := .apply) nofun hs (by rw [bodyOf, applyStage, h])

theorem exec_apply_of_error {s : State} (hs : s.fault = none) {r : Raise}
    (h : applyCodes s.cfg.bufCap s.ct s.inBuf = .error r) : exec .apply s = .next (s.raise r) :=
  exec_of_body_error (i := .apply) nofun hs (by rw [bodyOf, applyStage, h])

/-- What APPLY has done when it raised no fault: every input byte has a code, and BITS holds their codes. -/
theorem exec_apply_ok {s t : State} (hs : s.fault = none) (h : exec .apply s = .next t) (ht : t.fault = none) :
    (∀ b ∈ s.inBuf, symGet s.ct b ≠ []) ∧ t = (s.setBits (codesOf s.ct s.inBuf)).complete 0x30 := by
  cases hcodes : applyCodes s.cfg.bufCap s.ct s.inBuf with
  | error r =>
    cases h.symm.trans (exec_apply_of_error hs hcodes)
    cases ht
  | ok b =>
    cases h.symm.trans (exec_apply_of_ok hs hcodes)
    obtain ⟨hpresent, rfl⟩ := applyScan_ok hcodes
    exact ⟨hpresent, rfl⟩

/-- Settles O38: the scan passes over the bytes before the first fault, and then meets the end of IN or the fault. -/
theorem applyEncodesTheInput : Obligations.ApplyEncodesTheInput := by
  intro s hs
  refine ⟨fun hin hfit => ?_, fun pre b post hsplit hpre hfit => ?_⟩
  · have hscan := applyCodes_append hin hfit []
    rw [List.append_nil] at hscan
    exact exec_apply_of_ok hs hscan
  · have hscan := applyCodes_append hpre hfit (b :: post)
    rw [← hsplit] at hscan
    exact ⟨fun hb => exec_apply_of_error hs (hscan.trans (applyScan_cons_of_eq_nil hb _ _ _)),
      fun hb hover => exec_apply_of_error hs (hscan.trans (applyScan_cons_of_not_fit hb hover _ _))⟩

/-! ### The reverse map (R123) -/

theorem revLookup_eq_none_iff {ct : SymTab BitString} {c : BitString} :
    revLookup ct c = none ↔ ∀ b, symGet ct b ≠ [] → symGet ct b ≠ c := by
  simp [revLookup, mem_allSyms]

theorem symGet_of_revLookup {ct : SymTab BitString} {c : BitString} {b : Byte} (h : revLookup ct c = some b) :
    symGet ct b ≠ [] ∧ symGet ct b = c := by
  simpa using List.find?_some h

/-- With a `PrefixFree` table, a code that begins a symbol's code is that symbol's own. -/
theorem PrefixFree.eq_of_prefix {ct : SymTab BitString} (hct : PrefixFree ct) {b c : Byte} (hb : symGet ct b ≠ [])
    (hc : symGet ct c ≠ []) (h : symGet ct b <+: symGet ct c) : b = c :=
  Decidable.byContradiction fun hne => isprefix_eq_false_iff.mp (hct b c hb hc hne) h

theorem PrefixFree.revLookup_symGet {ct : SymTab BitString} (hct : PrefixFree ct) {b : Byte} (hb : symGet ct b ≠ []) :
    revLookup ct (symGet ct b) = some b := by
  cases h : revLookup ct (symGet ct b) with
  | none => exact absurd rfl (revLookup_eq_none_iff.mp h b hb)
  | some c =>
    obtain ⟨hc, hcode⟩ := symGet_of_revLookup h
    rw [PrefixFree.eq_of_prefix hct hc hb (hcode ▸ List.prefix_rfl)]

/-- With a `PrefixFree` table, no code begins what is left of a code without its last bit. -/
theorem PrefixFree.not_prefix_dropLast {ct : SymTab BitString} (hct : PrefixFree ct) {b c : Byte}
    (hb : symGet ct b ≠ []) (hc : symGet ct c ≠ []) : ¬ symGet ct b <+: (symGet ct c).dropLast := by
  intro h
  obtain rfl := PrefixFree.eq_of_prefix hct hb hc (h.trans (List.dropLast_prefix _))
  have hlen := h.length_le
  have hpos := List.length_pos_iff.mpr hb
  rw [List.length_dropLast] at hlen
  omega

/-! ### DECODE (R122) -/

section
variable {cap : Nat} {ct : SymTab BitString}

/-- Bits are only accumulated as long as no code begins the string accumulated. -/
theorem decodeScan_of_no_code {w acc : BitString} (hnone : ∀ b, symGet ct b ≠ [] → ¬ symGet ct b <+: acc ++ w)
    (rest : BitString) (k : Nat) (o : List Byte) (start : Nat) :
    decodeScan cap ct (w ++ rest) k o acc start = decodeScan cap ct rest (k + w.length) o (acc ++ w) start := by
  induction w generalizing acc k with
  | nil => simp
  | cons x w ih =>
    rw [List.append_cons] at hnone
    have hlookup : revLookup ct (acc ++ [x]) = none :=
      revLookup_eq_none_iff.mpr fun b hb hcode => hnone b hb (hcode ▸ List.prefix_append _ _)
    rw [List.cons_append, decodeScan, hlookup]
    exact (ih hnone (k + 1)).trans (by rw [← List.append_cons, List.length_cons, Nat.add_right_comm, Nat.add_assoc])

/-- The scan over one code: its symbol is emitted with its last bit, if it fits. -/
theorem decodeScan_code (hct : PrefixFree ct) {b : Byte} (hb : symGet ct b ≠ []) (rest : BitString) (k : Nat)
    (o : List Byte) (start : Nat) :
    decodeScan cap ct (symGet ct b ++ rest) k o [] start =
      if o.length = cap then .error (raiseCapacity 2)
      else decodeScan cap ct rest (k + (symGet ct b).length) (o ++ [b]) [] (k + (symGet ct b).length) := by
  have hlast := List.dropLast_concat_getLast hb
  have hlookup := PrefixFree.revLookup_symGet hct hb
  have hlen : k + (symGet ct b).dropLast.length + 1 = k + (symGet ct b).length := by
    rw [List.length_dropLast, Nat.add_assoc, Nat.sub_add_cancel (List.length_pos_iff.mpr hb)]
  rw [← hlast] at hlookup
  calc decodeScan cap ct (symGet ct b ++ rest) k o [] start
    _ = decodeScan cap ct ((symGet ct b).dropLast ++ (symGet ct b).getLast hb :: rest) k o [] start := by
      rw [List.append_cons, hlast]
    _ = decodeScan cap ct ((symGet ct b).getLast hb :: rest) (k + (symGet ct b).dropLast.length) o
          (symGet ct b).dropLast start :=
      decodeScan_of_no_code (fun c hc => PrefixFree.not_prefix_dropLast hct hc hb) _ _ _ _
    _ = _ := by rw [decodeScan, hlookup]; simp only [hlen]

/-- The scan over the codes of a sequence that fits emits the sequence. -/
theorem decodeScan_codesOf (hct : PrefixFree ct) {x : List Byte} (hx : ∀ b ∈ x, symGet ct b ≠ []) {o : List Byte}
    (hfit : o.length + x.length ≤ cap) (rest : BitString) (k : Nat) :
    decodeScan cap ct (codesOf ct x ++ rest) k o [] k =
      decodeScan cap ct rest (k + (codesOf ct x).length) (o ++ x) [] (k + (codesOf ct x).length) := by
  induction x generalizing k o with
  | nil => simp
  | cons b x ih =>
    rw [List.length_cons] at hfit
    rw [codesOf_cons, List.append_assoc, decodeScan_code hct (hx b List.mem_cons_self), if_neg (by omega),
      ih (fun c hc => hx c (List.mem_cons_of_mem b hc)) (by simp; omega), List.length_append, Nat.add_assoc,
      ← List.append_cons]

theorem decodeBits_codesOf_append (hct : PrefixFree ct) {x : List Byte} (hx : ∀ b ∈ x, symGet ct b ≠ [])
    (hfit : x.length ≤ cap) (rest : BitString) :
    decodeBits cap ct (codesOf ct x ++ rest) =
      decodeScan cap ct rest (codesOf ct x).length x [] (codesOf ct x).length := by
  rw [decodeBits, decodeScan_codesOf hct hx (by simpa using hfit), Nat.zero_add, List.nil_append]

theorem decodeBits_codesOf (hct : PrefixFree ct) {x : List Byte} (hx : ∀ b ∈ x, symGet ct b ≠ [])
    (hfit : x.length ≤ cap) : decodeBits cap ct (codesOf ct x) = .ok x := by
  rw [← List.append_nil (codesOf ct x), decodeBits_codesOf_append hct hx hfit]
  rfl

/-- A tail that no code begins is reported from where it starts. -/
theorem decodeScan_tail {tail : BitString} (hne : tail ≠ []) (hnone : ∀ b, symGet ct b ≠ [] → ¬ symGet ct b <+: tail)
    (k : Nat) (o : List Byte) (start : Nat) : decodeScan cap ct tail k o [] start = .error (raiseLookup start) := by
  rw [← List.append_nil tail, decodeScan_of_no_code hnone, decodeScan, List.nil_append, if_pos hne]

end

theorem exec_decode_of_ok {s : State} (hs : s.fault = none) {o : List Byte}
    (h : decodeBits s.cfg.bufCap s.ct s.bits = .ok o) : exec .decode s = .next ((s.setOut o).complete 0x31) :=
  exec_of_body (i := .decode) nofun hs (by rw [bodyOf, decodeStage, h])

theorem exec_decode_of_error {s : State} (hs : s.fault = none) {r : Raise}
    (h : decodeBits s.cfg.bufCap s.ct s.bits = .error r) : exec .decode s = .next (s.raise r) :=
  exec_of_body_error (i := .decode) nofun hs (by rw [bodyOf, decodeStage, h])

/-- Settles O39: the scan emits the symbols of the codes, and then meets the end of BITS, the tail, or the code that does
not fit. -/
theorem decodeRecoversTheSymbols : Obligations.DecodeRecoversTheSymbols := by
  intro s x hct hs hx hfit
  refine ⟨fun hbits => ?_, fun tail hbits hne hnone => ?_, fun b rest hbits hb hfull => ?_⟩
  · exact exec_decode_of_ok hs (hbits ▸ decodeBits_codesOf hct hx hfit)
  · have hscan := decodeBits_codesOf_append hct hx hfit tail
    rw [← hbits, decodeScan_tail hne hnone] at hscan
    exact exec_decode_of_error hs hscan
  · have hscan := decodeBits_codesOf_append hct hx hfit (symGet s.ct b ++ rest)
    rw [← List.append_assoc, ← hbits, decodeScan_code hct hb, if_pos hfull] at hscan
    exact exec_decode_of_error hs hscan

/-- Settles O40: APPLY without a fault leaves the codes of IN in BITS, and DECODE finds the symbols in them. -/
theorem decodeInvertsApply : Obligations.DecodeInvertsApply := by
  intro s t hct hfit hs happly ht
  obtain ⟨hpresent, rfl⟩ := exec_apply_ok hs happly ht
  exact exec_decode_of_ok (s := (s.setBits (codesOf s.ct s.inBuf)).complete 0x30) hs
    (decodeBits_codesOf hct hpresent hfit)

end Sys2Proof.Machine
end

section
/-! PROOFS of the family 43_bitpack.md: the payload read bit by bit, PACK and UNPACK in those bits (R130, R132), and
each after the other (R133).  Everything is said of the bits of the payload, `pay.flatMap bits8`: PACK leaves BITS and
the padding in them, UNPACK takes all but the padding. -/

namespace Sys2Proof.Machine

/-! ### The bits of a payload (R12, R43) -/

@[simp] theorem length_bits8 (v : Byte) : (bits8 v).length = 8 := rfl

@[simp] theorem length_flatMap_bits8 (pay : List Byte) : (pay.flatMap bits8).length = 8 * pay.length := by
  induction pay with
  | nil => rfl
  | cons v pay ih =>
    rw [List.flatMap_cons, List.length_append, length_bits8, ih, List.length_cons]
    omega

theorem getElem?_bits8 (v : Byte) {k : Nat} (hk : k < 8) : (bits8 v)[k]? = some (v.getMsbD k) := by
  rw [bits8_eq_map_range, List.getElem?_map, List.getElem?_range hk, Option.map_some]

/-- Bit `8j + k` of a payload is bit `k` of its byte `j`, most significant first. -/
theorem getElem?_flatMap_bits8 (pay : List Byte) (j : Nat) {k : Nat} (hk : k < 8) :
    (pay.flatMap bits8)[8 * j + k]? = pay[j]?.map fun v => v.getMsbD k := by
  induction pay generalizing j with
  | nil => rfl
  | cons v pay ih =>
    rw [List.flatMap_cons]
    cases j with
    | zero =>
      rw [Nat.mul_zero, Nat.zero_add, List.getElem?_append_left hk, getElem?_bits8 v hk, List.getElem?_cons_zero,
        Option.map_some]
    | succ j =>
      rw [List.getElem?_append_right (by rw [length_bits8]; omega), length_bits8,
        show 8 * (j + 1) + k - 8 = 8 * j + k by omega, ih, List.getElem?_cons_succ]

theorem getD_flatMap_bits8 {pay : List Byte} {j : Nat} (hj : j < pay.length) {k : Nat} (hk : k < 8) :
    (pay.flatMap bits8).getD (8 * j + k) false = pay[j].getMsbD k := by
  rw [List.getD_eq_getElem?_getD, getElem?_flatMap_bits8 pay j hk, List.getElem?_eq_getElem hj, Option.map_some,
    Option.getD_some]

/-- Cutting whole bytes loses no bit. -/
theorem flatMap_bits8_chunks8 {b : BitString} (hb : 8 ∣ b.length) : (chunks8 b).flatMap bits8 = b := by
  induction b using chunks8.induct with
  | case1 a b c d e f g h rest ih =>
    rw [chunks8, List.flatMap_cons, bits8_val8 rfl, ih ((Nat.dvd_add_iff_left (Nat.dvd_refl 8)).mpr hb)]
    rfl
  | case2 b hshort =>
    have hnil : chunks8 b = [] := by rw [chunks8]; exact hshort
    have hlen := chunks8_length b
    rw [hnil, List.length_nil] at hlen
    have hempty : b = [] := List.length_eq_zero_iff.mp (by omega)
    rw [hnil, hempty, List.flatMap_nil]

/-! ### PACK (R130) -/

theorem toNat_packBits_fst (bits : BitString) : (packBits bits).1.toNat = padCount bits.length := by
  rw [packBits, BitVec.toNat_ofNat, padCount]
  omega

/-- The bits of PACK's payload are BITS and as many zeros as PAD says. -/
theorem flatMap_bits8_packBits (bits : BitString) :
    (packBits bits).2.flatMap bits8 = bits ++ List.replicate (packBits bits).1.toNat false := by
  rw [toNat_packBits_fst]
  refine flatMap_bits8_chunks8 (b := padded bits) ?_
  rw [padded, List.length_append, List.length_replicate, padCount]
  omega

/-- Zeros after a bit string change no bit that is read past its end as zero. -/
theorem getD_append_replicate_false (b : BitString) (n i : Nat) :
    (b ++ List.replicate n false).getD i false = b.getD i false := by
  rw [List.getD_eq_getElem?_getD, List.getD_eq_getElem?_getD]
  obtain hi | hi := Nat.lt_or_ge i b.length
  · rw [List.getElem?_append_left hi]
  · rw [List.getElem?_append_right hi, List.getElem?_eq_none hi, List.getElem?_replicate]
    split
    · rfl
    · rfl

theorem getMsbD_packBits {bits : BitString} {j : Nat} (hj : j < (packBits bits).2.length) {k : Nat} (hk : k < 8) :
    (packBits bits).2[j].getMsbD k = bits.getD (8 * j + k) false := by
  rw [← getD_flatMap_bits8 hj hk, flatMap_bits8_packBits, getD_append_replicate_false]

theorem exec_pack {s : State} (hs : s.fault = none) :
    exec .pack s = .next ((s.setPay (packBits s.bits).1 (packBits s.bits).2).complete 0x40) :=
  exec_of_body (i := .pack) nofun hs (packStage_eq s)

/-- Settles O41: PAY is BITS with its padding, cut into whole bytes and read back bit by bit. -/
theorem packPadsAndCutsIntoBytes : Obligations.PackPadsAndCutsIntoBytes := by
  intro s hs
  refine ⟨(packBits s.bits).1, (packBits s.bits).2, exec_pack hs, toNat_packBits_fst s.bits, ?_,
    fun j hj k hk => getMsbD_packBits hj hk⟩
  rw [toNat_packBits_fst, packBits_snd_length]

/-! ### UNPACK (R132) -/

section
variable {pad : BitVec 3} {pay : List Byte}

/-- A payload that may be padded has at least as many bits as PAD can say. -/
theorem PayOk.toNat_pad_le (h : PayOk pad pay) : pad.toNat ≤ 8 * pay.length := by
  by_cases hpad : pad = 0
  · rw [hpad]
    exact Nat.zero_le _
  · have hpay := List.length_pos_iff.mpr (h hpad)
    have hlt := pad.isLt
    omega

theorem unpackBits_length : (unpackBits pad pay).length = 8 * pay.length - pad.toNat := by
  rw [unpackBits, List.length_take, length_flatMap_bits8]
  omega

theorem getD_unpackBits {j : Nat} (hj : j < pay.length) {k : Nat} (hk : k < 8)
    (hlt : 8 * j + k < (unpackBits pad pay).length) :
    (unpackBits pad pay).getD (8 * j + k) false = pay[j].getMsbD k := by
  rw [unpackBits_length] at hlt
  rw [← getD_flatMap_bits8 hj hk, unpackBits, List.getD_eq_getElem?_getD, List.getElem?_take_of_lt hlt,
    ← List.getD_eq_getElem?_getD]

end

theorem exec_unpack {s : State} (hs : s.fault = none) :
    exec .unpack s = .next ((s.setBits (unpackBits s.pad s.pay)).complete 0x41) :=
  exec_of_body (i := .unpack) nofun hs (unpackStage_eq s)

/-- Settles O42: BITS is the payload's bits up to the last PAD of them, whatever their values. -/
theorem unpackStripsThePadding : Obligations.UnpackStripsThePadding := by
  intro s hpay hs
  refine ⟨unpackBits s.pad s.pay, exec_unpack hs, ?_, fun j hj k hk hlt => getD_unpackBits hj hk hlt⟩
  rw [unpackBits_length, Nat.sub_add_cancel (PayOk.toNat_pad_le hpay)]

/-! ### One after the other (R133) -/

theorem unpackBits_packBits (bits : BitString) : unpackBits (packBits bits).1 (packBits bits).2 = bits := by
  rw [unpackBits, flatMap_bits8_packBits, packBits_snd_length, toNat_packBits_fst, Nat.add_sub_cancel,
    List.take_left]

/-- Unpacked bits need the padding that was stripped from them. -/
theorem packBits_unpackBits_fst {pad : BitVec 3} {pay : List Byte} (h : PayOk pad pay) :
    (packBits (unpackBits pad pay)).1 = pad := by
  have hle := PayOk.toNat_pad_le h
  have hlt := pad.isLt
  refine BitVec.eq_of_toNat_eq ?_
  rw [toNat_packBits_fst, unpackBits_length, padCount]
  omega

theorem execSeq_pack_unpack {s : State} (hs : s.fault = none) : execSeq [.pack, .unpack] s =
    some (((s.setPay (packBits s.bits).1 (packBits s.bits).2).setBits s.bits).complete 0x41) := by
  rw [execSeq_cons (exec_pack hs),
    execSeq_cons (exec_unpack (s := (s.setPay (packBits s.bits).1 (packBits s.bits).2).complete 0x40) hs),
    State.complete_pad, State.complete_pay, State.setPay_pad, State.setPay_pay, unpackBits_packBits]
  rfl

theorem execSeq_unpack_pack {s : State} (hs : s.fault = none) : execSeq [.unpack, .pack] s =
    some (((s.setBits (unpackBits s.pad s.pay)).setPay (packBits (unpackBits s.pad s.pay)).1
      (packBits (unpackBits s.pad s.pay)).2).complete 0x40) := by
  rw [execSeq_cons (exec_unpack hs),
    execSeq_cons (exec_pack (s := (s.setBits (unpackBits s.pad s.pay)).complete 0x41) hs)]
  rfl

/-- Settles O43: in the bits of the payload, PACK appends the zeros that UNPACK strips, and the stripped bits come back
as zeros. -/
theorem unpackInvertsPack : Obligations.UnpackInvertsPack := by
  intro s hs
  refine ⟨⟨_, execSeq_pack_unpack hs, rfl, hs⟩, fun hpay => ⟨_, execSeq_unpack_pack hs, ?_, ?_⟩⟩
  · exact packBits_unpackBits_fst hpay
  · have hbits := flatMap_bits8_packBits (unpackBits s.pad s.pay)
    rwa [packBits_unpackBits_fst hpay] at hbits

end Sys2Proof.Machine
end

section
/-! PROOFS of the family 44_container.md, first part: the container SER writes (R140), its table as a sentence of the grammar
with one closing brace (R91, R141), and where DESER cuts a container (R143 to R145). -/

namespace Sys2Proof.Machine

/-! ### SER (R140) -/

theorem serStage_of_fits {s : State} (h : (containerOf s.pad s.pay s.ct s.ctOrd).length ≤ s.cfg.bufCap) :
    serStage s = .ok (s.setOut (containerOf s.pad s.pay s.ct s.ctOrd)) :=
  if_neg (Nat.not_lt.mpr h)

theorem serStage_of_not_fits {s : State} (h : s.cfg.bufCap < (containerOf s.pad s.pay s.ct s.ctOrd).length) :
    serStage s = .error (raiseCapacity 2) :=
  if_pos h

/-- What SER has done when it raised no fault. -/
theorem exec_ser_ok {s t : State} (hs : s.fault = none) (h : exec .ser s = .next t) (ht : t.fault = none) :
    t = (s.setOut (containerOf s.pad s.pay s.ct s.ctOrd)).complete 0x50 := by
  obtain hover | hfit := Nat.lt_or_ge s.cfg.bufCap (containerOf s.pad s.pay s.ct s.ctOrd).length
  · cases h.symm.trans (exec_of_body_error (i := .ser) nofun hs (serStage_of_not_fits hover))
    cases ht
  · cases h.symm.trans (exec_of_body (i := .ser) nofun hs (serStage_of_fits hfit))
    rfl

theorem padByte_eq (pad : BitVec 3) : (pad.setWidth 8 : Byte) = BitVec.ofNat 8 pad.toNat :=
  BitVec.eq_of_toNat_eq (by rw [BitVec.toNat_setWidth, BitVec.toNat_ofNat])

/-- Settles O46: the container written out is `containerOf`, and BUF_CAP decides between the two outcomes. -/
theorem serWritesTheContainer : Obligations.SerWritesTheContainer := by
  intro s hs
  rw [← padByte_eq]
  exact ⟨fun hfit => exec_of_body (i := .ser) nofun hs (serStage_of_fits hfit),
    fun hover => exec_of_body_error (i := .ser) nofun hs (serStage_of_not_fits hover)⟩

/-! ### The table as a sentence (R83, R87) -/

/-- The entries SER writes, as the reader returns them. -/
def rawEntries (ct : SymTab BitString) (ord : List Byte) : List RawEntry :=
  ord.map fun b => (dec b.toNat, codestr (symGet ct b))

theorem bitByte_eq_or (x : Bool) : bitByte x = 0x30 ∨ bitByte x = 0x31 := by
  cases x
  · exact .inl rfl
  · exact .inr rfl

theorem tableSentence_tableText (ct : SymTab BitString) (ord : List Byte) :
    TableSentence (tableText ct ord) (rawEntries ct ord) := by
  refine ⟨List.forall_mem_map.mpr fun b _ => ⟨dec_ne_nil _, isDigit_of_mem_dec, ?_⟩, ?_⟩
  · exact List.forall_mem_map.mpr fun x _ => bitByte_eq_or x
  · rw [rawEntries, List.map_map]
    rfl

/-! ### The closing brace (R91, R141) -/

theorem chClose_not_mem_of_digits {ds : List Byte} (h : ∀ b ∈ ds, isDigit b = true) : chClose ∉ ds :=
  fun hmem => absurd (h chClose hmem) (by decide)

theorem mem_joinComma {b : Byte} {l : List (List Byte)} (h : b ∈ joinComma l) : b = chComma ∨ ∃ e ∈ l, b ∈ e := by
  induction l with
  | nil => cases h
  | cons e l ih =>
    cases l with
    | nil => exact .inr ⟨e, List.mem_cons_self, h⟩
    | cons d l =>
      rw [joinComma_cons (List.cons_ne_nil d l), List.mem_append, List.mem_append, List.mem_singleton] at h
      obtain (he | hcomma) | hrest := h
      · exact .inr ⟨e, List.mem_cons_self, he⟩
      · exact .inl hcomma
      · exact (ih hrest).imp_right fun ⟨f, hf, hb⟩ => ⟨f, List.mem_cons_of_mem e hf, hb⟩

theorem chClose_not_mem_rawEntryText {e : RawEntry} (he : RawEntryOk e) : chClose ∉ rawEntryText e := by
  obtain ⟨-, hkey, hcode⟩ := he
  have hcode' : chClose ∉ e.2 := fun hmem => absurd (hcode chClose hmem) (by decide)
  have hpunct : chClose ≠ chQuote ∧ chClose ≠ chColon := by decide
  simp [rawEntryText, chClose_not_mem_of_digits hkey, hcode', hpunct]

/-- A sentence of the grammar ends with its only closing brace and has both braces. -/
theorem TableSentence.closing_brace {text : List Byte} {es : List RawEntry} (h : TableSentence text es) :
    ∃ body, text = body ++ [chClose] ∧ chClose ∉ body ∧ 2 ≤ text.length := by
  obtain ⟨hes, rfl⟩ := h
  refine ⟨_, rfl, fun hmem => ?_, by simp⟩
  obtain hopen | hjoin := List.mem_cons.mp hmem
  · exact absurd hopen (by decide)
  · obtain hcomma | ⟨text, htext, hb⟩ := mem_joinComma hjoin
    · exact absurd hcomma (by decide)
    · obtain ⟨e, he, rfl⟩ := List.mem_map.mp htext
      exact chClose_not_mem_rawEntryText (hes e he) hb

/-- Settles O47: the table is a sentence of the grammar, and its length field is decimal. -/
theorem serTableHasOneClosingBrace : Obligations.SerTableHasOneClosingBrace := by
  intro ct ord
  obtain ⟨body, htext, hbody, hlen⟩ := (tableSentence_tableText ct ord).closing_brace
  exact ⟨body, htext, hbody, chClose_not_mem_of_digits isDigit_of_mem_dec, hlen, undec_dec _⟩

/-! ### The length field (R143) -/

theorem lastBrace_append (c d : List Byte) (i : Nat) (best : Option Nat) :
    lastBrace (c ++ d) i best = lastBrace d (i + c.length) (lastBrace c i best) := by
  induction c generalizing i best with
  | nil => rfl
  | cons b c ih => rw [List.cons_append, lastBrace, ih, lastBrace, List.length_cons, Nat.add_assoc, Nat.add_comm 1]

theorem lastBrace_of_not_mem {c : List Byte} (h : chClose ∉ c) (i : Nat) (best : Option Nat) :
    lastBrace c i best = best := by
  induction c generalizing i with
  | nil => rfl
  | cons b c ih =>
    obtain ⟨hne, hc⟩ := List.ne_and_not_mem_of_not_mem_cons h
    rw [lastBrace, if_neg hne.symm, ih hc]

theorem lastBrace_of_last {digits : List Byte} (h : chClose ∉ digits) (pre : List Byte) :
    lastBrace (pre ++ [chClose] ++ digits) 0 none = some pre.length := by
  rw [lastBrace_append, lastBrace_of_not_mem h, lastBrace_append, Nat.zero_add]
  rfl

theorem lengthField_of_no_brace {c : List Byte} (h : chClose ∉ c) : lengthField c = .error (raiseMalformed 1) := by
  rw [lengthField, lastBrace_of_not_mem h]

theorem lengthField_of_last {digits : List Byte} (h : chClose ∉ digits) (pre : List Byte) :
    lengthField (pre ++ [chClose] ++ digits) =
      if digits = [] then .error (raiseMalformed 2)
      else if digits.all isDigit then .ok (pre.length, undec digits) else .error (raiseMalformed 3) := by
  have hdrop : (pre ++ [chClose] ++ digits).drop (pre.length + 1) = digits := List.drop_left' (by simp)
  rw [lengthField, lastBrace_of_last h]
  simp only [hdrop]

theorem lengthField_of_digits {digits : List Byte} (hne : digits ≠ []) (hdigits : ∀ d ∈ digits, isDigit d = true)
    (pre : List Byte) : lengthField (pre ++ [chClose] ++ digits) = .ok (pre.length, undec digits) := by
  rw [lengthField_of_last (chClose_not_mem_of_digits hdigits), if_neg hne, if_pos (List.all_eq_true.mpr hdigits)]

/-! ### The cut into sections (R144, R145) -/

theorem deserialise_of_lengthField_error {c : List Byte} {r : Raise} (h : lengthField c = .error r) :
    deserialise c = .error r := by
  rw [deserialise, h]

theorem deserialise_of_tableStart_error {c : List Byte} {p len : Nat} {r : Raise} (hlen : lengthField c = .ok (p, len))
    (h : tableStart p len = .error r) : deserialise c = .error r := by
  simp only [deserialise, hlen, h]

/-- The checks of R145 to R147 on a container that is cut into padding byte, payload and table. -/
def checkSections (pad : Byte) (pay text : List Byte) : Except Raise Parts := do
  let es ← tableEntries text
  let table ← tableValues es
  let pad ← padCheck pad pay
  return { pad := pad, pay := pay, ct := table.1, ctOrd := table.2 }

theorem deserialise_of_tableStart {c : List Byte} {p len t : Nat} (hlen : lengthField c = .ok (p, len))
    (ht : tableStart p len = .ok t) :
    deserialise c = checkSections (c.headD 0) (slice c 1 (t - 1)) (slice c t p) := by
  simp only [deserialise, hlen, ht, checkSections, bind, Except.bind, pure, Except.pure]
  cases tableEntries (slice c t p) with
  | error r => rfl
  | ok es =>
    dsimp only
    cases tableValues es with
    | error r => rfl
    | ok table =>
      dsimp only
      cases padCheck (c.headD 0) (slice c 1 (t - 1)) <;> rfl

/-- The stretch from the end of `a` to the last byte of `b`. -/
theorem slice_append {a b : List Byte} (c : List Byte) {i j : Nat} (hi : i = a.length) (hj : j + 1 = (a ++ b).length) :
    slice (a ++ b ++ c) i j = b := by
  rw [slice, hj, List.take_left, hi, List.drop_left]

theorem deserialise_eq_checkSections {pad : Byte} {pay text digits pre : List Byte}
    (hlast : pad :: pay ++ text = pre ++ [chClose]) (hne : digits ≠ []) (hdigits : ∀ d ∈ digits, isDigit d = true)
    (hlen : undec digits = text.length) (htwo : 2 ≤ text.length) :
    deserialise (pad :: pay ++ text ++ digits) = checkSections pad pay text := by
  have hcount : pay.length + text.length = pre.length := by simpa using congrArg List.length hlast
  have hfield : lengthField (pad :: pay ++ text ++ digits) = .ok (pre.length, text.length) := by
    rw [hlast, lengthField_of_digits hne hdigits, hlen]
  have hstart : tableStart pre.length text.length = .ok (pay.length + 1) := by
    rw [tableStart, if_neg (by omega)]
    exact congrArg Except.ok (by omega)
  rw [deserialise_of_tableStart hfield hstart]
  have htext : slice (pad :: pay ++ text ++ digits) (pay.length + 1) pre.length = text :=
    slice_append digits rfl (by rw [hlast]; simp)
  have hpay : slice (pad :: pay ++ text ++ digits) 1 (pay.length + 1 - 1) = pay := by
    rw [List.append_assoc]
    exact slice_append (a := [pad]) _ rfl rfl
  rw [htext, hpay]
  rfl

end Sys2Proof.Machine
end

section
/-! PROOFS of the family 44_container.md, second part: what the value checks of R146 and the padding check of R147 answer,
which container DESER takes apart, and with which sub-cause it refuses every other (R142 to R147). -/

namespace Sys2Proof.Machine

/-! ### The value checks (R146) -/

/-- Key and code of an entry that passes the checks. -/
def entryValue (e : RawEntry) : Byte × BitString := (BitVec.ofNat 8 (undec e.1), codeOfStr e.2)

theorem entryValue_toNat {e : RawEntry} (h : undec e.1 ≤ 255) : (entryValue e).1.toNat = undec e.1 := by
  rw [entryValue, BitVec.toNat_ofNat]
  exact Nat.mod_eq_of_lt (by omega)

@[simp] theorem length_codeOfStr (b : List Byte) : (codeOfStr b).length = b.length := List.length_map ..

/-- The checks on one entry alone: key range, empty code, code length. -/
abbrev EntryInRange (e : RawEntry) : Prop := undec e.1 ≤ 255 ∧ e.2 ≠ [] ∧ e.2.length ≤ 255

/-- The keys accepted so far. -/
def keysOf (done : List (Byte × BitString)) : List Nat := done.map fun d => d.1.toNat

theorem keysOf_concat_entryValue (done : List (Byte × BitString)) {e : RawEntry} (h : undec e.1 ≤ 255) :
    keysOf (done ++ [entryValue e]) = keysOf done ++ [undec e.1] := by
  rw [keysOf, List.map_append, List.map_singleton, entryValue_toNat h]
  rfl

theorem any_key_iff {done : List (Byte × BitString)} {k : Nat} :
    done.any (fun d => d.1.toNat == k) = true ↔ k ∈ keysOf done := by
  simp [keysOf]

/-- An entry in range with a new key is accepted. -/
theorem entryValues_cons_of_ok {e : RawEntry} {done : List (Byte × BitString)} (he : EntryInRange e)
    (hnew : undec e.1 ∉ keysOf done) (rest : List RawEntry) :
    entryValues (e :: rest) done = entryValues rest (done ++ [entryValue e]) := by
  obtain ⟨hkey, hne, hlen⟩ := he
  have hpos : (codeOfStr e.2).length ≠ 0 := by simpa using hne
  simp only [entryValues]
  rw [if_neg (by omega), if_neg (by rwa [any_key_iff]), if_neg hpos, if_neg (by rw [length_codeOfStr]; omega)]
  rfl

/-- Any other entry is refused. -/
theorem entryValues_cons_of_refused {e : RawEntry} {done : List (Byte × BitString)}
    (h : ¬ EntryInRange e ∨ undec e.1 ∈ keysOf done) (rest : List RawEntry) :
    entryValues (e :: rest) done = .error (raiseMalformed 6) := by
  simp only [entryValues]
  split
  · rfl
  next hkey =>
  split
  · rfl
  next hnew =>
  split
  · rfl
  next hpos =>
  split
  · rfl
  next hlen =>
  rw [any_key_iff] at hnew
  rw [length_codeOfStr] at hpos hlen
  have hne : e.2 ≠ [] := fun hnil => hpos (congrArg List.length hnil)
  exact absurd ⟨Nat.le_of_not_lt hkey, hne, Nat.le_of_not_lt hlen⟩ (h.resolve_right hnew)

/-- The entries pass when each is in range and no key comes twice, among them or among those accepted before. -/
theorem entryValues_eq (es : List RawEntry) {done : List (Byte × BitString)} (hdone : (keysOf done).Nodup) :
    entryValues es done =
      if (∀ e ∈ es, EntryInRange e) ∧ (keysOf done ++ es.map fun e => undec e.1).Nodup then
        .ok (done ++ es.map entryValue) else .error (raiseMalformed 6) := by
  induction es generalizing done with
  | nil => rw [if_pos ⟨nofun, by simpa using hdone⟩, List.map_nil, List.append_nil]; rfl
  | cons e rest ih =>
    simp only [List.forall_mem_cons, List.map_cons]
    by_cases he : EntryInRange e
    case neg => rw [entryValues_cons_of_refused (.inl he), if_neg fun h => he h.1.1]
    by_cases hnew : undec e.1 ∈ keysOf done
    case pos =>
      rw [entryValues_cons_of_refused (.inr hnew), if_neg fun h => ?_]
      exact (List.nodup_append.mp h.2).2.2 _ hnew _ List.mem_cons_self rfl
    have hkeys := keysOf_concat_entryValue done he.1
    rw [entryValues_cons_of_ok he hnew, ih (by rw [hkeys]; exact nodup_concat hdone hnew), hkeys]
    simp only [List.append_assoc, List.singleton_append, and_iff_right he]

theorem codesPrefixFree_entries (es : List RawEntry) :
    codesPrefixFree ((es.map entryValue).map (·.2)) = true ↔
      es.Pairwise fun d e => isprefix (codeOfStr d.2) (codeOfStr e.2) = false ∧
        isprefix (codeOfStr e.2) (codeOfStr d.2) = false := by
  rw [codesPrefixFree_iff, List.pairwise_map, List.pairwise_map]
  rfl

/-- CT of a list of entries that pass the checks. -/
def tableOf (es : List RawEntry) : SymTab BitString :=
  (es.map entryValue).foldl (fun t v => symSet t v.1 v.2) (Vector.replicate 256 [])

/-- CT_ORD of a list of entries that pass the checks. -/
def ordOf (es : List RawEntry) : List Byte := es.map fun e => BitVec.ofNat 8 (undec e.1)

theorem tableValues_of_valuesOk {es : List RawEntry} (h : ValuesOk es) : tableValues es = .ok (tableOf es, ordOf es) := by
  obtain ⟨hrange, hkeys, hprefix⟩ := h
  rw [tableValues, entryValues_eq es (done := []) .nil, if_pos ⟨hrange, hkeys⟩]
  dsimp only
  rw [List.nil_append, if_pos ((codesPrefixFree_entries es).mpr hprefix), List.map_map]
  rfl

theorem tableValues_of_not_valuesOk {es : List RawEntry} (h : ¬ ValuesOk es) :
    tableValues es = .error (raiseMalformed 6) := by
  rw [tableValues, entryValues_eq es (done := []) .nil]
  by_cases hentries : (∀ e ∈ es, EntryInRange e) ∧ (keysOf [] ++ es.map fun e => undec e.1).Nodup
  case neg => rw [if_neg hentries]
  rw [if_pos hentries]
  dsimp only
  rw [List.nil_append, if_neg fun hprefix => ?_]
  exact h ⟨hentries.1, hentries.2, (codesPrefixFree_entries es).mp hprefix⟩

/-- The keys that pass the checks stay different as bytes. -/
theorem ValuesOk.keys_nodup {es : List RawEntry} (h : ValuesOk es) : ((es.map entryValue).map Prod.fst).Nodup := by
  obtain ⟨hrange, hkeys, -⟩ := h
  have hmap : (es.map entryValue).map (fun v => v.1.toNat) = es.map fun e => undec e.1 :=
    List.map_map.trans (List.map_congr_left fun e he => entryValue_toNat (hrange e he).1)
  rw [← hmap] at hkeys
  exact List.pairwise_map.mpr ((List.pairwise_map.mp hkeys).imp fun hne heq => hne (congrArg BitVec.toNat heq))

theorem symGet_tableOf {es : List RawEntry} (h : ValuesOk es) {e : RawEntry} (he : e ∈ es) :
    symGet (tableOf es) (BitVec.ofNat 8 (undec e.1)) = codeOfStr e.2 :=
  (symGet_foldl_symSet_entries h.keys_nodup _).1 (entryValue e) (List.mem_map_of_mem he)

theorem symGet_tableOf_of_no_entry {es : List RawEntry} (h : ValuesOk es) {b : Byte}
    (hb : ∀ e ∈ es, undec e.1 ≠ b.toNat) : symGet (tableOf es) b = [] := by
  have hnot : b ∉ (es.map entryValue).map Prod.fst := fun hmem => by
    obtain ⟨v, hv, rfl⟩ := List.mem_map.mp hmem
    obtain ⟨e, he, rfl⟩ := List.mem_map.mp hv
    exact hb e he (entryValue_toNat (h.1 e he).1).symm
  exact ((symGet_foldl_symSet_entries h.keys_nodup _).2 b hnot).trans (symGet_replicate [] b)

/-! ### The padding (R147) -/

theorem padCheck_of_in_range {pad : Byte} {pay : List Byte} (hpad : pad.toNat ≤ 7) (hpay : pad ≠ 0 → pay ≠ []) :
    padCheck pad pay = .ok (pad.setWidth 3) := by
  have hempty : ¬ (pad.toNat > 0 ∧ pay = []) := fun ⟨hpos, hnil⟩ => hpay (by rintro rfl; cases hpos) hnil
  rw [padCheck, if_neg (Nat.not_lt.mpr hpad), if_neg hempty]

theorem padCheck_of_out_of_range {pad : Byte} {pay : List Byte} (h : 7 < pad.toNat ∨ pad ≠ 0 ∧ pay = []) :
    padCheck pad pay = .error (raiseMalformed 7) := by
  rw [padCheck]
  split
  · rfl
  next hle =>
  obtain ⟨hne, hnil⟩ := h.resolve_left hle
  rw [if_pos ⟨Nat.pos_of_ne_zero fun hzero => hne (BitVec.eq_of_toNat_eq hzero), hnil⟩]

/-! ### The sections checked in order (R142) -/

section
variable {pad : Byte} {pay text : List Byte}

theorem checkSections_of_not_sentence (h : ∀ es, ¬ TableSentence text es) :
    checkSections pad pay text = .error (raiseMalformed 5) := by
  have hnone : parseTable text = none :=
    Option.eq_none_iff_forall_not_mem.mpr fun es hes => h es (tableSentence_of_parseTable hes)
  rw [checkSections, tableEntries, hnone]
  rfl

variable {es : List RawEntry} (htext : TableSentence text es)
include htext

theorem checkSections_of_sentence :
    checkSections pad pay text = (do
      let table ← tableValues es
      let pad ← padCheck pad pay
      return { pad := pad, pay := pay, ct := table.1, ctOrd := table.2 }) := by
  rw [checkSections, tableEntries, parseTable_of_tableSentence htext]
  rfl

theorem checkSections_of_bad_values (hvalues : ¬ ValuesOk es) :
    checkSections pad pay text = .error (raiseMalformed 6) := by
  rw [checkSections_of_sentence htext, tableValues_of_not_valuesOk hvalues]
  rfl

theorem checkSections_of_bad_padding (hvalues : ValuesOk es) (hpad : 7 < pad.toNat ∨ pad ≠ 0 ∧ pay = []) :
    checkSections pad pay text = .error (raiseMalformed 7) := by
  rw [checkSections_of_sentence htext, tableValues_of_valuesOk hvalues, padCheck_of_out_of_range hpad]
  rfl

theorem checkSections_of_good (hvalues : ValuesOk es) (hpad : pad.toNat ≤ 7) (hpay : pad ≠ 0 → pay ≠ []) :
    checkSections pad pay text = .ok { pad := pad.setWidth 3, pay := pay, ct := tableOf es, ctOrd := ordOf es } := by
  rw [checkSections_of_sentence htext, tableValues_of_valuesOk hvalues, padCheck_of_in_range hpad hpay]
  rfl

end

/-! ### DESER (R142) -/

theorem exec_deser_of_ok {s : State} (hs : s.fault = none) {d : Parts} (h : deserialise s.inBuf = .ok d) :
    exec .deser s = .next (((s.setPay d.pad d.pay).setTable d.ct d.ctOrd).complete 0x51) :=
  exec_of_body (i := .deser) nofun hs (by rw [bodyOf, deserStage, h])

theorem exec_deser_of_error {s : State} (hs : s.fault = none) {r : Raise} (h : deserialise s.inBuf = .error r) :
    exec .deser s = .next (s.raise r) :=
  exec_of_body_error (i := .deser) nofun hs (by rw [bodyOf, deserStage, h])

/-- A container whose table is a sentence and whose length field is right is cut at the table. -/
theorem deserialise_of_sentence {pad : Byte} {pay text digits : List Byte} {es : List RawEntry}
    (htext : TableSentence text es) (hne : digits ≠ []) (hdigits : ∀ d ∈ digits, isDigit d = true)
    (hlen : undec digits = text.length) :
    deserialise ([pad] ++ pay ++ text ++ digits) = checkSections pad pay text := by
  obtain ⟨body, hbody, -, htwo⟩ := htext.closing_brace
  have hlast : pad :: pay ++ text = (pad :: pay ++ body) ++ [chClose] := by rw [hbody, List.append_assoc]
  exact deserialise_eq_checkSections hlast hne hdigits hlen htwo

/-- Settles O48: the length field gives the cut, and the table and the padding pass their checks. -/
theorem deserTakesTheContainerApart : Obligations.DeserTakesTheContainerApart := by
  intro s pad pay text digits es hs hin htext hvalues hne hdigits hlen hpad hpay
  have hparts : deserialise s.inBuf = .ok { pad := pad.setWidth 3, pay := pay, ct := tableOf es, ctOrd := ordOf es } := by
    rw [hin, deserialise_of_sentence htext hne hdigits hlen, checkSections_of_good htext hvalues hpad hpay]
  refine ⟨pad.setWidth 3, tableOf es, exec_deser_of_ok hs hparts, ?_, fun e he => symGet_tableOf hvalues he,
    fun b hb => symGet_tableOf_of_no_entry hvalues hb⟩
  rw [BitVec.toNat_setWidth]
  exact Nat.mod_eq_of_lt (by omega)

/-- Settles O49: the checks in the order of R142, each on what the ones before it let pass. -/
theorem deserRefusesInOrder : Obligations.DeserRefusesInOrder := by
  intro s hs
  refine ⟨fun hbrace => exec_deser_of_error hs (deserialise_of_lengthField_error (lengthField_of_no_brace hbrace)),
    fun pre digits hin hdigits => ?_⟩
  have hfield := hin ▸ lengthField_of_last hdigits pre
  refine ⟨fun hnil => ?_, fun ⟨d, hd, hnot⟩ => ?_, fun hne hall => ⟨fun hrange => ?_, ?_⟩⟩
  · rw [if_pos hnil] at hfield
    exact exec_deser_of_error hs (deserialise_of_lengthField_error hfield)
  · have hall : ¬ digits.all isDigit = true := fun h => by simp [List.all_eq_true.mp h d hd] at hnot
    rw [if_neg (List.ne_nil_of_mem hd), if_neg hall] at hfield
    exact exec_deser_of_error hs (deserialise_of_lengthField_error hfield)
  · rw [if_neg hne, if_pos (List.all_eq_true.mpr hall)] at hfield
    exact exec_deser_of_error hs (deserialise_of_tableStart_error hfield (if_pos hrange))
  · intro front text hsplit hlen htwo hfront
    have hcut (pad : Byte) (pay : List Byte) (hcons : front = pad :: pay) :
        deserialise s.inBuf = checkSections pad pay text := by
      rw [hin, hsplit, hcons]
      exact deserialise_eq_checkSections (by rw [← hcons, hsplit]) hne hall hlen.symm (by omega)
    obtain ⟨pad, pay, rfl⟩ := List.exists_cons_of_ne_nil hfront
    refine ⟨fun hsyntax => ?_, fun es htext => ⟨fun hvalues => ?_, fun hvalues pad' pay' hcons hbad => ?_⟩⟩
    · exact exec_deser_of_error hs ((hcut pad pay rfl).trans (checkSections_of_not_sentence hsyntax))
    · exact exec_deser_of_error hs ((hcut pad pay rfl).trans (checkSections_of_bad_values htext hvalues))
    · exact exec_deser_of_error hs ((hcut pad' pay' hcons).trans (checkSections_of_bad_padding htext hvalues hbad))

end Sys2Proof.Machine
end

section
/-! PROOFS of the family 44_container.md, third part: SER and DESER are inverse to each other (R149), and what every command
answers at reset (R201, R140, R148). -/

namespace Sys2Proof.Machine

/-! ### DESER after SER (R149) -/

theorem codeOfStr_codestr (c : BitString) : codeOfStr (codestr c) = c := by
  rw [codeOfStr, codestr, List.map_map]
  exact (List.map_congr_left fun x _ => by cases x <;> rfl).trans (List.map_id c)

theorem length_codestr (c : BitString) : (codestr c).length = c.length := List.length_map ..

theorem undec_key_rawEntries {ct : SymTab BitString} {ord : List Byte} :
    (rawEntries ct ord).map (fun e => undec e.1) = ord.map BitVec.toNat := by
  rw [rawEntries, List.map_map]
  exact List.map_congr_left fun b _ => undec_dec b.toNat

theorem ordOf_rawEntries (ct : SymTab BitString) (ord : List Byte) : ordOf (rawEntries ct ord) = ord := by
  have hbyte : BitVec.ofNat 8 ∘ BitVec.toNat = (id : Byte → Byte) := funext fun b => BitVec.ofNat_toNat 8 b
  calc ordOf (rawEntries ct ord)
    _ = ((rawEntries ct ord).map fun e => undec e.1).map (BitVec.ofNat 8) := by rw [List.map_map]; rfl
    _ = ord := by rw [undec_key_rawEntries, List.map_map, hbyte, List.map_id]

/-- The entries of a table with R45 (b) and (c) pass the checks of R146. -/
theorem valuesOk_rawEntries {ct : SymTab BitString} {ord : List Byte} (h : TableOk ct ord) :
    ValuesOk (rawEntries ct ord) := by
  obtain ⟨hnodup, hpresent, hlen, hprefix⟩ := h
  refine ⟨List.forall_mem_map.mpr fun b hb => ⟨?_, ?_, ?_⟩, ?_, List.pairwise_map.mpr ?_⟩
  · exact Nat.le_trans (Nat.le_of_eq (undec_dec b.toNat)) (Nat.le_of_lt_succ b.isLt)
  · exact fun hnil => (hpresent b).mp hb (List.map_eq_nil_iff.mp hnil)
  · exact Nat.le_trans (Nat.le_of_eq (length_codestr _)) (hlen b)
  · rw [undec_key_rawEntries]
    exact List.pairwise_map.mpr (hnodup.imp fun hne heq => hne (BitVec.eq_of_toNat_eq heq))
  · refine hnodup.imp_of_mem fun {b c} hb hc hne => ?_
    simp only [codeOfStr_codestr]
    exact ⟨hprefix b hb c hc hne, hprefix c hc b hb hne.symm⟩

theorem tableOf_rawEntries {ct : SymTab BitString} {ord : List Byte} (h : TableOk ct ord) :
    tableOf (rawEntries ct ord) = ct := by
  have hvalues := valuesOk_rawEntries h
  obtain ⟨-, hpresent, -, -⟩ := h
  refine symTab_ext fun b => ?_
  by_cases hb : b ∈ ord
  · have hget := symGet_tableOf hvalues (List.mem_map_of_mem hb)
    rwa [undec_dec, BitVec.ofNat_toNat, BitVec.setWidth_eq, codeOfStr_codestr] at hget
  · have hempty : symGet ct b = [] := Decidable.byContradiction fun hne => hb ((hpresent b).mpr hne)
    rw [hempty]
    refine symGet_tableOf_of_no_entry hvalues (List.forall_mem_map.mpr fun c hc heq => hb ?_)
    rw [undec_dec] at heq
    exact BitVec.eq_of_toNat_eq heq ▸ hc

theorem padByte_ne_zero {pad : BitVec 3} (h : (pad.setWidth 8 : Byte) ≠ 0) : pad ≠ 0 := by
  rintro rfl
  exact h rfl

theorem padByte_toNat (pad : BitVec 3) : (pad.setWidth 8 : Byte).toNat = pad.toNat := by
  rw [BitVec.toNat_setWidth]
  exact Nat.mod_eq_of_lt (by omega)

theorem setWidth_padByte (pad : BitVec 3) : (pad.setWidth 8 : Byte).setWidth 3 = pad :=
  BitVec.eq_of_toNat_eq (by rw [BitVec.toNat_setWidth, padByte_toNat, Nat.mod_eq_of_lt pad.isLt])

/-- The container of a legal table and payload is taken apart into them. -/
theorem deserialise_containerOf {pad : BitVec 3} {pay : List Byte} {ct : SymTab BitString} {ord : List Byte}
    (htable : TableOk ct ord) (hpay : PayOk pad pay) :
    deserialise (containerOf pad pay ct ord) = .ok { pad := pad, pay := pay, ct := ct, ctOrd := ord } := by
  have htext := tableSentence_tableText ct ord
  rw [containerOf, deserialise_of_sentence htext (dec_ne_nil _) isDigit_of_mem_dec (undec_dec _),
    checkSections_of_good htext (valuesOk_rawEntries htable) (by rw [padByte_toNat]; omega)
      fun hne => hpay (padByte_ne_zero hne),
    setWidth_padByte, tableOf_rawEntries htable, ordOf_rawEntries]

/-! ### SER after DESER (R149) -/

theorem codestr_codeOfStr {b : List Byte} (h : ∀ x ∈ b, x = 0x30 ∨ x = 0x31) : codestr (codeOfStr b) = b := by
  rw [codestr, codeOfStr, List.map_map]
  refine (List.map_congr_left fun x hx => ?_).trans (List.map_id b)
  obtain rfl | rfl := h x hx <;> rfl

/-- An entry read from a text without leading zeros is written as it was read. -/
theorem tableEntry_entryValue {e : RawEntry} (he : RawEntryOk e) (hkey : undec e.1 ≤ 255) (hcanon : e.1 = dec (undec e.1)) :
    tableEntry (entryValue e).1 (entryValue e).2 = rawEntryText e := by
  obtain ⟨-, -, hcode⟩ := he
  rw [tableEntry, entryValue_toNat hkey, ← hcanon]
  simp only [entryValue, codestr_codeOfStr hcode, rawEntryText]

theorem tableText_tableOf {text : List Byte} {es : List RawEntry} (htext : TableSentence text es) (hvalues : ValuesOk es)
    (hcanon : ∀ e ∈ es, e.1 = dec (undec e.1)) : tableText (tableOf es) (ordOf es) = text := by
  obtain ⟨hes, rfl⟩ := htext
  rw [tableText, ordOf, List.map_map]
  congr 3
  refine List.map_congr_left fun e he => ?_
  rw [← tableEntry_entryValue (hes e he) (hvalues.1 e he).1 (hcanon e he)]
  exact congrArg (tableEntry _) (symGet_tableOf hvalues he)

theorem setWidth_padBits {pad : Byte} (h : pad.toNat ≤ 7) : ((pad.setWidth 3).setWidth 8 : Byte) = pad := by
  refine BitVec.eq_of_toNat_eq ?_
  rw [padByte_toNat, BitVec.toNat_setWidth]
  exact Nat.mod_eq_of_lt (by omega)

/-- What the checks that passed say of the sections, and what DESER commits then. -/
theorem checkSections_ok {pad : Byte} {pay text : List Byte} {es : List RawEntry} (htext : TableSentence text es)
    {d : Parts} (h : checkSections pad pay text = .ok d) :
    ValuesOk es ∧ pad.toNat ≤ 7 ∧ d = { pad := pad.setWidth 3, pay := pay, ct := tableOf es, ctOrd := ordOf es } := by
  by_cases hvalues : ValuesOk es
  case neg => rw [checkSections_of_bad_values htext hvalues] at h; cases h
  by_cases hbad : 7 < pad.toNat ∨ pad ≠ 0 ∧ pay = []
  case pos => rw [checkSections_of_bad_padding htext hvalues hbad] at h; cases h
  obtain ⟨hpad, hpay⟩ := not_or.mp hbad
  rw [checkSections_of_good htext hvalues (Nat.le_of_not_lt hpad) fun hne hnil => hpay ⟨hne, hnil⟩] at h
  cases h
  exact ⟨hvalues, Nat.le_of_not_lt hpad, rfl⟩

/-- What DESER has done when it raised no fault. -/
theorem exec_deser_ok {s t : State} (hs : s.fault = none) (h : exec .deser s = .next t) (ht : t.fault = none) :
    ∃ d, deserialise s.inBuf = .ok d ∧ t = ((s.setPay d.pad d.pay).setTable d.ct d.ctOrd).complete 0x51 := by
  cases hparts : deserialise s.inBuf with
  | error r =>
    cases h.symm.trans (exec_deser_of_error hs hparts)
    cases ht
  | ok d =>
    cases h.symm.trans (exec_deser_of_ok hs hparts)
    exact ⟨d, rfl, rfl⟩

/-- A container without leading zeros that is taken apart is the container of its parts. -/
theorem containerOf_parts {pad : Byte} {pay text : List Byte} {es : List RawEntry} (htext : TableSentence text es)
    (hcanon : ∀ e ∈ es, e.1 = dec (undec e.1)) {d : Parts}
    (h : deserialise ([pad] ++ pay ++ text ++ dec text.length) = .ok d) :
    containerOf d.pad d.pay d.ct d.ctOrd = [pad] ++ pay ++ text ++ dec text.length := by
  rw [deserialise_of_sentence htext (dec_ne_nil _) isDigit_of_mem_dec (undec_dec _)] at h
  obtain ⟨hvalues, hpad, rfl⟩ := checkSections_ok htext h
  rw [containerOf, tableText_tableOf htext hvalues hcanon, setWidth_padBits hpad]

/-- Settles O50: a legal table's container is taken apart into what it was made of, and the parts of a container without
leading zeros make that container again. -/
theorem deserInvertsSer : Obligations.DeserInvertsSer := by
  refine ⟨fun s t htable hpay hs hser ht => ?_, fun s t u pad pay text es hs hin htext hcanon hdeser ht hser hu => ?_⟩
  · obtain rfl := exec_ser_ok hs hser ht
    exact exec_deser_of_ok
      (s := { s with inBuf := containerOf s.pad s.pay s.ct s.ctOrd, out := containerOf s.pad s.pay s.ct s.ctOrd,
                     done := true, lastop := 0x50 }) hs (deserialise_containerOf htable hpay)
  · obtain ⟨d, hparts, rfl⟩ := exec_deser_ok hs hdeser ht
    obtain rfl := exec_ser_ok ht hser hu
    rw [hin] at hparts
    exact (containerOf_parts htext hcanon hparts).trans hin.symm

/-! ### The commands at reset (R201) -/

/-- The reset state of the parameters `p`. -/
def resetWith (p : Params) : State := { State.reset with cfg := p }

theorem freqBuild_nil (order : SymOrder) : freqBuild order [] = (Vector.replicate 256 0, []) := by
  cases order with
  | firstOccurrence => rfl
  | ascending =>
    have hnone : allSyms.filter (fun s => symGet (Vector.replicate 256 (0 : Word)) s != 0) = [] :=
      List.filter_eq_nil_iff.mpr fun s _ => by simp
    exact congrArg (Prod.mk _) hnone

theorem packBits_nil : packBits [] = (0, []) := by
  have hchunks : chunks8 (padded []) = [] := List.length_eq_zero_iff.mp (chunks8_length (padded []))
  rw [packBits, hchunks]
  rfl

theorem packStage_resetWith (p : Params) : packStage (resetWith p) = .ok (resetWith p) := by
  rw [packStage_eq, show (resetWith p).bits = [] from rfl, packBits_nil]
  rfl

theorem freqStage_resetWith (p : Params) : freqStage (resetWith p) = .ok (resetWith p) := by
  rw [freqStage_eq, show (resetWith p).inBuf = [] from rfl, freqBuild_nil]
  rfl

/-- The commands but SER, DESER, RST and the composites have nothing to do at reset. -/
theorem bodyOf_resetWith (p : Params) {i : Instr}
    (hi : i ∈ ([.nop, .inclr, .freq, .tinit, .tmerge, .tbuild, .assign, .apply, .decode, .pack, .unpack] : List Instr)) :
    bodyOf i (resetWith p) = .ok (resetWith p) := by
  cases i with
  | freq => exact freqStage_resetWith p
  | pack => exact packStage_resetWith p
  | rst | ser | deser | compress | decompress => simp at hi
  | _ => rfl

theorem serStage_resetWith {p : Params} (hp : p.wellFormed = true) :
    serStage (resetWith p) = .ok ((resetWith p).setOut [0x00, 0x7B, 0x7D, 0x32]) :=
  serStage_of_fits (Nat.le_trans (by decide : 4 ≤ 64) ((params_wellFormed_iff p).mp hp).1)

theorem deserStage_resetWith (p : Params) : deserStage (resetWith p) = .error (raiseMalformed 1) := by
  rw [deserStage, show (resetWith p).inBuf = [] from rfl,
    deserialise_of_lengthField_error (lengthField_of_no_brace List.not_mem_nil)]

theorem compressStage_resetWith {p : Params} (hp : p.wellFormed = true) :
    compressStage (resetWith p) = .ok ((resetWith p).setOut [0x00, 0x7B, 0x7D, 0x32]) :=
  andThen_ok.mpr ⟨_, freqStage_resetWith p, andThen_ok.mpr ⟨_, bodyOf_resetWith p (i := .tbuild) (by decide),
    andThen_ok.mpr ⟨_, bodyOf_resetWith p (i := .apply) (by decide),
      andThen_ok.mpr ⟨_, packStage_resetWith p, serStage_resetWith hp⟩⟩⟩⟩

theorem decompressStage_resetWith (p : Params) : decompressStage (resetWith p) = .error (raiseMalformed 1) :=
  andThen_error.mpr (.inl (deserStage_resetWith p))

/-- Settles O10: only SER and COMPRESS write something, the container of the empty input, and DESER and DECOMPRESS meet no
closing brace. -/
theorem everyCommandIsDefinedAtReset : Obligations.EveryCommandIsDefinedAtReset := by
  intro p hp
  refine ⟨?_, ?_, ?_, ?_, rfl, fun i hi => ?_⟩
  · exact exec_of_body (i := .compress) (s := resetWith p) nofun rfl (compressStage_resetWith hp)
  · exact exec_of_body_error (i := .decompress) (s := resetWith p) nofun rfl (decompressStage_resetWith p)
  · exact exec_of_body_error (i := .deser) (s := resetWith p) nofun rfl (deserStage_resetWith p)
  · exact exec_of_body (i := .ser) (s := resetWith p) nofun rfl (serStage_resetWith hp)
  · have hne : i ≠ .rst := by rintro rfl; simp at hi
    exact exec_of_body hne rfl (bodyOf_resetWith p hi)

end Sys2Proof.Machine
end

section
/-! PROOFS of the family 45_facade.md, first part: what COMPRESS leaves in every state (R158), that DECOMPRESS
recovers packed data (R159), and the round trip through the host port (R161, R162, R167). -/

namespace Sys2Proof.Machine

/-! ### DECOMPRESS on the container of packed codes (R159) -/

theorem TableOk.prefixFree {ct : SymTab BitString} {ord : List Byte} (h : TableOk ct ord) : PrefixFree ct := by
  obtain ⟨-, hpresent, -, hprefix⟩ := h
  exact fun b c hb hc hne => hprefix b ((hpresent b).mpr hb) c ((hpresent c).mpr hc) hne

theorem TableOk.length_le {ct : SymTab BitString} {ord : List Byte} (h : TableOk ct ord) (b : Byte) :
    (symGet ct b).length ≤ 255 := by
  obtain ⟨-, -, hlen, -⟩ := h
  exact hlen b

theorem deserStage_of_ok {s : State} {d : Parts} (h : deserialise s.inBuf = .ok d) :
    deserStage s = .ok ((s.setPay d.pad d.pay).setTable d.ct d.ctOrd) := by
  rw [deserStage, h]

theorem unpackStage_of_packed {s : State} {bits : BitString} (hpad : s.pad = (packBits bits).1)
    (hpay : s.pay = (packBits bits).2) : unpackStage s = .ok (s.setBits bits) := by
  rw [unpackStage_eq, hpad, hpay, unpackBits_packBits]

theorem decodeStage_of_ok {s : State} {o : List Byte} (h : decodeBits s.cfg.bufCap s.ct s.bits = .ok o) :
    decodeStage s = .ok (s.setOut o) := by
  rw [decodeStage, h]

/-- Settles O54: DESER restores what SER was given, UNPACK the codes, and DECODE finds the symbols in them. -/
theorem decompressRecoversPackedData : Obligations.DecompressRecoversPackedData := by
  intro s ct ord x htable hx hfit hs hin
  have hdeser := deserStage_of_ok (hin ▸ deserialise_containerOf htable (payOk_packBits (codesOf ct x)))
  have hsymbols := decodeBits_codesOf htable.prefixFree hx hfit
  exact exec_of_body (i := .decompress) nofun hs (andThen_ok.mpr ⟨_, hdeser,
    andThen_ok.mpr ⟨_, unpackStage_of_packed (bits := codesOf ct x) rfl rfl, decodeStage_of_ok hsymbols⟩⟩)

/-! ### COMPRESS: the table of the input (R158) -/

/-- TBUILD never faults, and writes the tree and its table (R108). -/
theorem tbuildStage_eq (s : State) : tbuildStage s = .ok (s.setTreeTable (builtTree s)) := by
  obtain ⟨hfin, -⟩ := finished_builtTree s
  exact andThen_ok.mpr ⟨_, tinitStage_eq s, andThen_ok.mpr
    ⟨_, mergeLoopStage_eq _, assignStage_of_treeDone (s := s.setTree _ _) hfin.treeDone_eq_true⟩⟩

/-- FREQ and ORD written, as FREQ does. -/
def State.afterFreq (s : State) : State :=
  s.setFreq (freqBuild s.cfg.symOrder s.inBuf).1 (freqBuild s.cfg.symOrder s.inBuf).2

/-- The state in which COMPRESS begins APPLY: FREQ and TBUILD are done. -/
def State.afterTbuild (s : State) : State := s.afterFreq.setTreeTable (builtTree s.afterFreq)

/-- The bits that COMPRESS packs. -/
def State.codes (s : State) : BitString := codesOf s.afterTbuild.ct s.inBuf

/-- The state in which COMPRESS begins SER. -/
def State.afterPack (s : State) : State :=
  (s.afterTbuild.setBits s.codes).setPay (packBits s.codes).1 (packBits s.codes).2

/-- The container that COMPRESS writes if it fits. -/
def State.container (s : State) : List Byte :=
  containerOf (packBits s.codes).1 (packBits s.codes).2 s.afterTbuild.ct s.afterTbuild.ctOrd

theorem compressStage_eq (s : State) :
    compressStage s = andThen applyStage (andThen packStage serStage) s.afterTbuild := by
  simp only [compressStage, andThen, freqStage_eq, tbuildStage_eq]
  rfl

theorem afterTbuild_ctOrd (s : State) : s.afterTbuild.ctOrd = (freqBuild s.cfg.symOrder s.inBuf).2 := by
  obtain ⟨hfin, hsyms⟩ := finished_builtTree s.afterFreq
  exact hfin.assignTable_snd hsyms

/-- The table depends on IN and the parameters alone. -/
theorem afterTbuild_ct_congr {s s' : State} (hin : s.inBuf = s'.inBuf) (hcfg : s.cfg = s'.cfg) :
    s.afterTbuild.ct = s'.afterTbuild.ct := by
  have hfreq : s.afterFreq.freq = s'.afterFreq.freq := by simp only [State.afterFreq, State.setFreq_freq, hin, hcfg]
  have hord : s.afterFreq.ord = s'.afterFreq.ord := by simp only [State.afterFreq, State.setFreq_ord, hin, hcfg]
  have htree : builtTree s.afterFreq = builtTree s'.afterFreq := by simp only [builtTree, treeAfter, hfreq, hord]
  exact congrArg (fun r : List Node × List Nat => (assignTable r.1 r.2).1) htree

section
variable {s : State} (hcfg : s.cfg.wellFormed = true) (hin : s.inBuf.length ≤ s.cfg.bufCap)
include hcfg hin

/-- The table of the input satisfies R45 (b) and (c) (R109). -/
theorem tableOk_afterTbuild : TableOk s.afterTbuild.ct s.afterTbuild.ctOrd := by
  obtain ⟨-, hcap⟩ := (params_wellFormed_iff s.cfg).mp hcfg
  obtain ⟨hfin, hsyms⟩ := finished_builtTree s.afterFreq
  obtain ⟨hnodup, -⟩ := freqOk_setFreq_freqBuild (Nat.lt_of_le_of_lt hcap (by decide)) hin s.cfg.symOrder
  exact hfin.tableOk hsyms hnodup

/-- Every byte of the input has a code, so APPLY meets no inconsistency (R121). -/
theorem code_ne_nil_of_mem_inBuf : ∀ b ∈ s.inBuf, symGet s.afterTbuild.ct b ≠ [] := by
  intro b hb
  obtain ⟨-, hcap⟩ := (params_wellFormed_iff s.cfg).mp hcfg
  obtain ⟨-, hpresent, -⟩ := tableOk_afterTbuild hcfg hin
  have hcounted := counted_freqBuild s.cfg.symOrder (data := s.inBuf) (by omega)
  exact (hpresent b).mp (afterTbuild_ctOrd s ▸ (hcounted.mem b).mpr hb)

end

/-! ### COMPRESS: its three outcomes (R158, R160) -/

theorem applyStage_of_ok {s : State} {b : BitString} (h : applyCodes s.cfg.bufCap s.ct s.inBuf = .ok b) :
    applyStage s = .ok (s.setBits b) := by
  rw [applyStage, h]

theorem applyStage_of_error {s : State} {r : Raise} (h : applyCodes s.cfg.bufCap s.ct s.inBuf = .error r) :
    applyStage s = .error r := by
  rw [applyStage, h]

theorem compressStage_of_apply_error {s : State} {r : Raise}
    (h : applyCodes s.cfg.bufCap s.afterTbuild.ct s.inBuf = .error r) : compressStage s = .error r := by
  rw [compressStage_eq]
  exact andThen_error.mpr (.inl (applyStage_of_error h))

/-- When the codes fit BITS, SER decides. -/
theorem compressStage_of_apply_ok {s : State} (h : applyCodes s.cfg.bufCap s.afterTbuild.ct s.inBuf = .ok s.codes) :
    compressStage s = serStage s.afterPack := by
  simp only [compressStage_eq, andThen, applyStage_of_ok (s := s.afterTbuild) h, packStage_eq]
  rfl

theorem compressStage_of_not_fits {s : State} (h : applyCodes s.cfg.bufCap s.afterTbuild.ct s.inBuf = .ok s.codes)
    (hover : s.cfg.bufCap < s.container.length) : compressStage s = .error (raiseCapacity 2) :=
  (compressStage_of_apply_ok h).trans (serStage_of_not_fits hover)

theorem compressStage_of_fits {s : State} (h : applyCodes s.cfg.bufCap s.afterTbuild.ct s.inBuf = .ok s.codes)
    (hfit : s.container.length ≤ s.cfg.bufCap) : compressStage s = .ok (s.afterPack.setOut s.container) :=
  (compressStage_of_apply_ok h).trans (serStage_of_fits hfit)

/-- COMPRESS faults in APPLY, faults in SER, or completes. -/
theorem compressStage_cases (s : State) :
    (∃ r, applyCodes s.cfg.bufCap s.afterTbuild.ct s.inBuf = .error r ∧ compressStage s = .error r) ∨
    (applyCodes s.cfg.bufCap s.afterTbuild.ct s.inBuf = .ok s.codes ∧
      (s.cfg.bufCap < s.container.length ∧ compressStage s = .error (raiseCapacity 2) ∨
        s.container.length ≤ s.cfg.bufCap ∧ compressStage s = .ok (s.afterPack.setOut s.container))) := by
  cases hcodes : applyCodes s.cfg.bufCap s.afterTbuild.ct s.inBuf with
  | error r => exact .inl ⟨r, rfl, compressStage_of_apply_error hcodes⟩
  | ok b =>
    obtain ⟨-, rfl⟩ := applyScan_ok hcodes
    refine .inr ⟨rfl, ?_⟩
    obtain hover | hfit := Nat.lt_or_ge s.cfg.bufCap s.container.length
    · exact .inl ⟨hover, compressStage_of_not_fits hcodes hover⟩
    · exact .inr ⟨hfit, compressStage_of_fits hcodes hfit⟩

/-- What COMPRESS has done when it raised no fault. -/
theorem exec_compress_ok {s t : State} (hs : s.fault = none) (h : exec .compress s = .next t) (ht : t.fault = none) :
    s.container.length ≤ s.cfg.bufCap ∧ t = (s.afterPack.setOut s.container).complete 0x60 := by
  obtain ⟨r, -, herror⟩ | ⟨-, ⟨-, herror⟩ | ⟨hfit, hok⟩⟩ := compressStage_cases s
  · cases h.symm.trans (exec_of_body_error (i := .compress) nofun hs herror)
    cases ht
  · cases h.symm.trans (exec_of_body_error (i := .compress) nofun hs herror)
    cases ht
  · cases h.symm.trans (exec_of_body (i := .compress) nofun hs hok)
    exact ⟨hfit, rfl⟩

/-! ### The round trip (R161) -/

/-- A run that is taken up where a shorter one ended. -/
theorem run_add {M : Host.Core} {m : Nat} (n : Nat) {s u : M.State} (h : M.run m s = .next u) :
    M.run (m + n) s = M.run n u := by
  induction m generalizing s with
  | zero =>
    cases h
    rw [Nat.zero_add]
  | succ m ih =>
    obtain ⟨v, hv, hrun⟩ := run_succ_eq_next h
    rw [Nat.succ_add, run_succ_of_step _ hv, ih hrun]

/-- The state after LOAD, with no host access left. -/
def State.afterLoad (s : State) (bs : List Byte) : State :=
  { s with inBuf := bs, done := true, lastop := 0x02, pending := [] }

/-- LOAD, then one command: the command runs on the bytes loaded (R61, R62, R76). -/
theorem run_load_command (i : Instr) {s : State} {bs : List Byte} (hs : s.fault = none)
    (hfit : bs.length ≤ s.cfg.bufCap) :
    Sys2Proof.core.run (bs.length + 2) { s with pending := scriptLoad bs ++ [scriptCmd i] } =
      exec i (s.afterLoad bs) := by
  have hload := loadPutsItsBytesIntoIn
    { s with pending := scriptLoad bs ++ [scriptCmd i] } bs [scriptCmd i] hs hfit rfl
  obtain ⟨t, ht⟩ := exec_next i (s.afterLoad bs)
  have hstep : step { s.afterLoad bs with pending := [scriptCmd i] } = .next t :=
    (stepRunsTheDecodedCommand _ _ [] i rfl (decode_encode i)).trans ht
  rw [ht]
  exact (run_add 1 hload).trans (run_succ_of_step (M := Sys2Proof.core) 0 hstep)

/-- Settles O55: the container COMPRESS leaves in OUT is that of the input's packed codes, and it fits IN. -/
theorem decompressInvertsCompress : Obligations.DecompressInvertsCompress := by
  intro s t b hcfg hs hfit hrun ht
  rw [run_load_command .compress hs hfit] at hrun
  obtain ⟨hlen, rfl⟩ := exec_compress_ok (s := s.afterLoad b) hs hrun ht
  have htable := tableOk_afterTbuild (s := s.afterLoad b) hcfg hfit
  have hpresent := code_ne_nil_of_mem_inBuf (s := s.afterLoad b) hcfg hfit
  refine ⟨_, (run_load_command .decompress ht hlen).trans
    (decompressRecoversPackedData _ _ _ b htable hpresent hfit hs rfl), hs, rfl, rfl⟩

/-! ### COMPRESS with room enough (R158) -/

theorem applyCodes_of_fits {cap : Nat} {ct : SymTab BitString} {data : List Byte}
    (hdata : ∀ b ∈ data, symGet ct b ≠ []) (hfit : (codesOf ct data).length ≤ 8 * cap) : applyCodes cap ct data = .ok (codesOf ct data) := by
  have hscan := applyCodes_append hdata hfit []
  rwa [List.append_nil] at hscan

theorem length_codesOf_le {ct : SymTab BitString} {k : Nat} (hct : ∀ b, (symGet ct b).length ≤ k) (data : List Byte) :
    (codesOf ct data).length ≤ k * data.length := by
  induction data with
  | nil => exact Nat.zero_le _
  | cons b data ih =>
    have hb := hct b
    rw [codesOf_cons, List.length_append, List.length_cons, Nat.mul_succ]
    omega

theorem length_decAux_le {fuel n k : Nat} (hn : n < 10 ^ (k + 1)) (acc : List Byte) :
    (decAux fuel n acc).length ≤ k + 1 + acc.length := by
  induction fuel generalizing n k acc with
  | zero => exact Nat.le_add_left _ _
  | succ fuel ih =>
    rw [decAux]
    split
    · rw [List.length_cons]
      omega
    next hten =>
    cases k with
    | zero => exact absurd hn hten
    | succ k =>
      have hdigits := ih (n := n / 10) (k := k) (Nat.div_lt_of_lt_mul (by rwa [Nat.pow_succ'] at hn))
        (digitByte (n % 10) :: acc)
      rw [List.length_cons] at hdigits
      omega

/-- A number below `10 ^ k` has at most `k` decimal digits, and 0 has one. -/
theorem length_dec_le {n k : Nat} (hn : n < 10 ^ (k + 1)) : (dec n).length ≤ k + 1 := length_decAux_le hn []

theorem length_containerOf_le {pad : BitVec 3} {pay : List Byte} {ct : SymTab BitString} {ord : List Byte}
    (htable : TableOk ct ord) : (containerOf pad pay ct ord).length ≤ pay.length + 67481 := by
  obtain ⟨-, hbound⟩ := serTableLengthIsBounded
  have htext := hbound ct ord htable
  have hdigits := length_dec_le (n := (tableText ct ord).length) (k := 4) (by omega)
  simp only [containerOf, List.length_append, List.length_singleton]
  omega

/-- Settles O52: a code has at most 255 bits, so the codes fit BITS and the payload takes at most 32 bytes an
input byte; the padding byte, the table and its length field take at most 67481. -/
theorem compressCompletesWithRoom : Obligations.CompressCompletesWithRoom := by
  intro s hcfg hs hroom
  have htable := tableOk_afterTbuild hcfg (by omega)
  have hpresent := code_ne_nil_of_mem_inBuf hcfg (by omega)
  have hcodes : s.codes.length ≤ 255 * s.inBuf.length := length_codesOf_le htable.length_le s.inBuf
  have hpay : (packBits s.codes).2.length ≤ 32 * s.inBuf.length := packBits_snd_length_le (by omega)
  have hcontainer : s.container.length ≤ s.cfg.bufCap := Nat.le_trans (length_containerOf_le htable) (by omega)
  have happly : applyCodes s.cfg.bufCap s.afterTbuild.ct s.inBuf = .ok s.codes :=
    applyCodes_of_fits hpresent (Nat.le_trans hcodes (by omega))
  exact ⟨_, exec_of_body (i := .compress) nofun hs (compressStage_of_fits happly hcontainer), hs, rfl, rfl, rfl, rfl,
    rfl⟩

/-! ### COMPRESS depends on IN alone (R162) -/

/-- Settles O56: the table, the codes and the container are the same in both states, so both runs take the same of the
three outcomes. -/
theorem compressDependsOnInputAlone : Obligations.CompressDependsOnInputAlone := by
  intro s s' t t' hin hcfg hs hs' hfinfo h h'
  have hct := afterTbuild_ct_congr hin hcfg
  have hcodes : s.codes = s'.codes := by rw [State.codes, State.codes, hct, hin]
  have hcontainer : s.container = s'.container := by
    rw [State.container, State.container, hcodes, hct, afterTbuild_ctOrd, afterTbuild_ctOrd, hin, hcfg]
  obtain ⟨r, happly, herror⟩ | ⟨happly, hser⟩ := compressStage_cases s
  · have herror' := compressStage_of_apply_error (s := s') (by rw [← hin, ← hcfg, ← hct, happly])
    cases h.symm.trans (exec_of_body_error (i := .compress) nofun hs herror)
    cases h'.symm.trans (exec_of_body_error (i := .compress) nofun hs' herror')
    exact ⟨rfl, rfl, rfl⟩
  · have happly' : applyCodes s'.cfg.bufCap s'.afterTbuild.ct s'.inBuf = .ok s'.codes := by
      rw [← hin, ← hcfg, ← hct, ← hcodes, happly]
    obtain ⟨hover, herror⟩ | ⟨hfit, hok⟩ := hser
    · have herror' := compressStage_of_not_fits happly' (hcfg ▸ hcontainer ▸ hover)
      cases h.symm.trans (exec_of_body_error (i := .compress) nofun hs herror)
      cases h'.symm.trans (exec_of_body_error (i := .compress) nofun hs' herror')
      exact ⟨rfl, rfl, rfl⟩
    · have hok' := compressStage_of_fits happly' (hcfg ▸ hcontainer ▸ hfit)
      cases h.symm.trans (exec_of_body (i := .compress) nofun hs hok)
      cases h'.symm.trans (exec_of_body (i := .compress) nofun hs' hok')
      exact ⟨hcontainer, hs.trans hs'.symm, hfinfo⟩

/-! ### The empty input (R167) -/

/-- From an empty IN, FREQ and TBUILD leave no tree and no code. -/
theorem afterTbuild_of_empty {s : State} (h : s.inBuf = []) :
    s.afterTbuild.node = [] ∧ s.afterTbuild.ct = Vector.replicate 256 [] ∧ s.afterTbuild.ctOrd = [] := by
  rw [State.afterTbuild, State.afterFreq, h, freqBuild_nil]
  exact ⟨rfl, rfl, rfl⟩

theorem codes_of_empty {s : State} (h : s.inBuf = []) : s.codes = [] := by
  rw [State.codes, h, codesOf_nil]

theorem container_of_empty {s : State} (h : s.inBuf = []) : s.container = [0x00, 0x7B, 0x7D, 0x32] := by
  obtain ⟨-, hct, hord⟩ := afterTbuild_of_empty h
  rw [State.container, codes_of_empty h, packBits_nil, hct, hord]
  rfl

/-- Settles O57: the empty input has no symbol, so its container holds the empty payload and the empty table, and that
container is taken apart as that of the empty code sequence. -/
theorem emptyInputRoundTrips : Obligations.EmptyInputRoundTrips := by
  intro s hcfg hs
  obtain ⟨hcap, -⟩ := (params_wellFormed_iff s.cfg).mp hcfg
  refine ⟨fun hin => ?_, fun hin => ?_⟩
  · obtain ⟨hnode, -, hord⟩ := afterTbuild_of_empty hin
    have hcodes := codes_of_empty hin
    have hcontainer := container_of_empty hin
    have happly : applyCodes s.cfg.bufCap s.afterTbuild.ct s.inBuf = .ok s.codes := by
      rw [hin, hcodes]
      rfl
    have hfit : s.container.length ≤ s.cfg.bufCap := by
      rw [hcontainer]
      exact Nat.le_trans (by decide) hcap
    have hpay : (packBits s.codes).2 = [] := by rw [hcodes, packBits_nil]
    exact ⟨_, exec_of_body (i := .compress) nofun hs (compressStage_of_fits happly hfit),
      hcontainer, hs, rfl, hord, hnode, hcodes, hpay⟩
  · have hpacked : s.inBuf = containerOf (packBits (codesOf (Vector.replicate 256 []) [])).1
        (packBits (codesOf (Vector.replicate 256 []) [])).2 (Vector.replicate 256 []) [] := by
      rw [hin, codesOf_nil, packBits_nil]
      rfl
    exact ⟨_, decompressRecoversPackedData s _ [] [] tableOk_empty nofun (Nat.zero_le _) hs hpacked, rfl, hs, rfl⟩

end Sys2Proof.Machine
end

section
/-! PROOFS of the family 45_facade.md, second part: COMPRESS and DECOMPRESS have the effect of their stages' commands
one after another (R158 to R160), and the housekeeping commands (R155 to R157). -/

namespace Sys2Proof.Machine

/-! ### Housekeeping (R155 to R157) -/

/-- A command but RST is ignored while a fault is recorded (R74, R184). -/
theorem exec_of_fault {i : Instr} (hi : i ≠ .rst) {s : State} (hs : s.fault ≠ none) : exec i s = .next s := by
  rw [exec_eq_runCommand hi, State.runCommand_of_fault hs]

/-- Settles O9: hardware reset and RST are the one operation `resetBlock`. -/
theorem rstIsHardwareReset : Obligations.RstIsHardwareReset :=
  fun s => ⟨exec_rst s, fun _ hpending => step_of_pending hpending⟩

/-- Settles O26: the body of NOP changes nothing. -/
theorem nopOnlyCompletes : Obligations.NopOnlyCompletes :=
  fun _ => ⟨fun hs => exec_of_body (i := .nop) nofun hs rfl, exec_of_fault (i := .nop) nofun⟩

/-- Settles O27: the body of INCLR writes IN alone. -/
theorem inclrEmptiesIn : Obligations.InclrEmptiesIn := fun _ => exec_inclr

/-! ### The stages do not look at the completion flags -/

/-- DONE and LASTOP written, as completing a command writes them. -/
def State.setFlags (s : State) (d : Bool) (op : Byte) : State := { s with done := d, lastop := op }

/-- What a stage does to the rest of the state is the same whatever DONE and LASTOP are, and it leaves both alone. -/
def IgnoresFlags (f : Stage) : Prop :=
  ∀ (s : State) (d : Bool) (op : Byte), f (s.setFlags d op) = (f s).map fun t => t.setFlags d op

theorem IgnoresFlags.andThen {f g : Stage} (hf : IgnoresFlags f) (hg : IgnoresFlags g) :
    IgnoresFlags (andThen f g) := by
  intro s d op
  rw [Machine.andThen, hf s, Machine.andThen]
  cases f s with
  | error r => rfl
  | ok t => exact hg t d op

theorem ignoresFlags_tbuild : IgnoresFlags tbuildStage := by
  intro s d op
  rw [tbuildStage_eq, tbuildStage_eq]
  rfl

theorem ignoresFlags_assign : IgnoresFlags assignStage := by
  intro s d op
  change (if treeDone s.node s.pq then _ else _) = (if treeDone s.node s.pq then _ else _ : Except Raise State).map _
  split <;> rfl

theorem ignoresFlags_apply : IgnoresFlags applyStage := by
  intro s d op
  cases h : applyCodes s.cfg.bufCap s.ct s.inBuf with
  | ok b =>
    rw [applyStage_of_ok h, applyStage_of_ok (s := s.setFlags d op) h]
    rfl
  | error r =>
    rw [applyStage_of_error h, applyStage_of_error (s := s.setFlags d op) h]
    rfl

theorem decodeStage_of_error {s : State} {r : Raise} (h : decodeBits s.cfg.bufCap s.ct s.bits = .error r) :
    decodeStage s = .error r := by
  rw [decodeStage, h]

theorem ignoresFlags_decode : IgnoresFlags decodeStage := by
  intro s d op
  cases h : decodeBits s.cfg.bufCap s.ct s.bits with
  | ok o =>
    rw [decodeStage_of_ok h, decodeStage_of_ok (s := s.setFlags d op) h]
    rfl
  | error r =>
    rw [decodeStage_of_error h, decodeStage_of_error (s := s.setFlags d op) h]
    rfl

theorem ignoresFlags_ser : IgnoresFlags serStage := by
  intro s d op
  obtain hover | hfit := Nat.lt_or_ge s.cfg.bufCap (containerOf s.pad s.pay s.ct s.ctOrd).length
  · rw [serStage_of_not_fits hover, serStage_of_not_fits (s := s.setFlags d op) hover]
    rfl
  · rw [serStage_of_fits hfit, serStage_of_fits (s := s.setFlags d op) hfit]
    rfl

theorem deserStage_of_error {s : State} {r : Raise} (h : deserialise s.inBuf = .error r) : deserStage s = .error r := by
  rw [deserStage, h]

theorem ignoresFlags_deser : IgnoresFlags deserStage := by
  intro s d op
  cases h : deserialise s.inBuf with
  | ok parts =>
    rw [deserStage_of_ok h, deserStage_of_ok (s := s.setFlags d op) h]
    rfl
  | error r =>
    rw [deserStage_of_error h, deserStage_of_error (s := s.setFlags d op) h]
    rfl

theorem ignoresFlags_freq : IgnoresFlags freqStage := fun _ _ _ => rfl
theorem ignoresFlags_pack : IgnoresFlags packStage := fun _ _ _ => rfl
theorem ignoresFlags_unpack : IgnoresFlags unpackStage := fun _ _ _ => rfl

theorem ignoresFlags_bodyOf (i : Instr) : IgnoresFlags (bodyOf i) := by
  cases i with
  | nop | rst | inclr | tinit | tmerge => exact fun _ _ _ => rfl
  | freq => exact ignoresFlags_freq
  | tbuild => exact ignoresFlags_tbuild
  | assign => exact ignoresFlags_assign
  | apply => exact ignoresFlags_apply
  | decode => exact ignoresFlags_decode
  | pack => exact ignoresFlags_pack
  | unpack => exact ignoresFlags_unpack
  | ser => exact ignoresFlags_ser
  | deser => exact ignoresFlags_deser
  | compress =>
    exact ignoresFlags_freq.andThen (ignoresFlags_tbuild.andThen (ignoresFlags_apply.andThen
      (ignoresFlags_pack.andThen ignoresFlags_ser)))
  | decompress => exact ignoresFlags_deser.andThen (ignoresFlags_unpack.andThen ignoresFlags_decode)

/-! ### Commands one after another, and their bodies as one stage (R160) -/

/-- The bodies of a list of commands, `i` the first, as one stage. -/
def stagesFrom (i : Instr) : List Instr → Stage
  | [] => bodyOf i
  | j :: is => andThen (bodyOf i) (stagesFrom j is)

theorem execSeq_of_fault {is : List Instr} (his : .rst ∉ is) {s : State} (hs : s.fault ≠ none) :
    execSeq is s = some s := by
  induction is with
  | nil => rfl
  | cons i is ih =>
    obtain ⟨hi, his⟩ := List.ne_and_not_mem_of_not_mem_cons his
    rw [execSeq_cons (exec_of_fault hi.symm hs), ih his]

section
variable {i : Instr} {is : List Instr} (hrst : .rst ∉ i :: is) {s : State} (hs : s.fault = none)
include hrst hs

theorem execSeq_cons_of_body {t : State} (h : bodyOf i s = .ok t) (d : Bool) (op : Byte) :
    execSeq (i :: is) (s.setFlags d op) = execSeq is (t.complete (opcode i)) := by
  obtain ⟨hi, -⟩ := List.ne_and_not_mem_of_not_mem_cons hrst
  have hbody : bodyOf i (s.setFlags d op) = .ok (t.setFlags d op) := by rw [ignoresFlags_bodyOf i s d op, h]; rfl
  exact execSeq_cons (exec_of_body (s := s.setFlags d op) hi.symm hs hbody) is

/-- After the first fault every command is ignored. -/
theorem execSeq_cons_of_body_error {r : Raise} (h : bodyOf i s = .error r) (d : Bool) (op : Byte) :
    execSeq (i :: is) (s.setFlags d op) = some ((s.setFlags d op).raise r) := by
  obtain ⟨hi, his⟩ := List.ne_and_not_mem_of_not_mem_cons hrst
  have hbody : bodyOf i (s.setFlags d op) = .error r := by rw [ignoresFlags_bodyOf i s d op, h]; rfl
  rw [execSeq_cons (exec_of_body_error (s := s.setFlags d op) hi.symm hs hbody),
    execSeq_of_fault his (Option.some_ne_none r.cause)]

end

/-- When every stage succeeds, every command completes, and they leave what the stages leave. -/
theorem execSeq_of_stages_ok {i : Instr} {is : List Instr} (hrst : .rst ∉ i :: is) {s t : State} (hs : s.fault = none)
    (h : stagesFrom i is s = .ok t) (d : Bool) (op : Byte) :
    ∃ op', execSeq (i :: is) (s.setFlags d op) = some (t.complete op') := by
  induction is generalizing i s d op with
  | nil => exact ⟨opcode i, execSeq_cons_of_body hrst hs h d op⟩
  | cons j is ih =>
    obtain ⟨u, hu, hrest⟩ := andThen_ok.mp h
    obtain ⟨hfault, -⟩ := keepsFault_bodyOf i hu
    rw [execSeq_cons_of_body hrst hs hu]
    exact ih (List.not_mem_of_not_mem_cons hrst) (hfault.trans hs) hrest true (opcode i)

/-- When a stage faults, its command records the same fault, and the commands after it are ignored. -/
theorem execSeq_of_stages_error {i : Instr} {is : List Instr} (hrst : .rst ∉ i :: is) {s : State} {r : Raise}
    (hs : s.fault = none) (h : stagesFrom i is s = .error r) (d : Bool) (op : Byte) :
    ∃ u : State, execSeq (i :: is) (s.setFlags d op) = some (u.raise r) := by
  induction is generalizing i s d op with
  | nil => exact ⟨_, execSeq_cons_of_body_error hrst hs h d op⟩
  | cons j is ih =>
    obtain hbody | ⟨u, hu, hrest⟩ := andThen_error.mp h
    · exact ⟨_, execSeq_cons_of_body_error hrst hs hbody d op⟩
    · obtain ⟨hfault, -⟩ := keepsFault_bodyOf i hu
      rw [execSeq_cons_of_body hrst hs hu]
      exact ih (List.not_mem_of_not_mem_cons hrst) (hfault.trans hs) hrest true (opcode i)

/-- A composite command has the effect of its stages' commands, or only the fault that one of them records (R160). -/
theorem exec_composite {c i : Instr} {is : List Instr} (hc : c ≠ .rst) (hrst : .rst ∉ i :: is)
    (hstages : bodyOf c = stagesFrom i is) {s t : State} (hs : s.fault = none) (h : execSeq (i :: is) s = some t) :
    (t.fault = none → exec c s = .next { t with lastop := opcode c }) ∧
      (t.fault ≠ none → exec c s = .next { s with fault := t.fault, finfo := t.finfo, done := false, out := [] }) := by
  cases hbody : bodyOf c s with
  | ok u =>
    obtain ⟨op', hseq⟩ := execSeq_of_stages_ok hrst hs (hstages ▸ hbody) s.done s.lastop
    obtain ⟨hfault, -⟩ := keepsFault_bodyOf c hbody
    cases h.symm.trans hseq
    exact ⟨fun _ => (exec_of_body hc hs hbody :), fun hne => absurd (hfault.trans hs) hne⟩
  | error r =>
    obtain ⟨u, hseq⟩ := execSeq_of_stages_error hrst hs (hstages ▸ hbody) s.done s.lastop
    cases h.symm.trans hseq
    exact ⟨nofun, fun _ => exec_of_body_error hc hs hbody⟩

/-- Settles O51: the body of COMPRESS is the bodies of its five stages in order. -/
theorem compressIsItsStages : Obligations.CompressIsItsStages :=
  fun _ _ hs h => exec_composite (c := .compress) nofun (by decide) rfl hs h

/-- Settles O53: the body of DECOMPRESS is the bodies of its three stages in order. -/
theorem decompressIsItsStages : Obligations.DecompressIsItsStages :=
  fun _ _ hs h => exec_composite (c := .decompress) nofun (by decide) rfl hs h

end Sys2Proof.Machine
end

section
/-! PROOFS of the family 45_facade.md, third part: the summary table of R168, which faults each command raises and which
elements it leaves untouched, and what the host then reads in the windows. -/

namespace Sys2Proof.Machine

/-! ### The faults each stage raises (R168, R175 to R181) -/

/-- A fault of APPLY is a byte without a code, or a code that does not fit (R120). -/
theorem applyScan_error {cap : Nat} {ct : SymTab BitString} {data : List Byte} {i : Nat} {b : BitString} {r : Raise}
    (h : applyScan cap ct i data b = .error r) :
    (∃ k, r = raiseLookup k ∧ ∃ c ∈ data, symGet ct c = []) ∨ r = raiseCapacity 1 := by
  induction data generalizing i b with
  | nil => cases h
  | cons s rest ih =>
    rw [applyScan] at h
    split at h
    · next hs =>
      cases h
      exact .inl ⟨i, rfl, s, List.mem_cons_self, List.length_eq_zero_iff.mp hs⟩
    split at h
    · cases h
      exact .inr rfl
    · exact (ih h).imp_left fun ⟨k, hr, c, hc, hnil⟩ => ⟨k, hr, c, List.mem_cons_of_mem s hc, hnil⟩

/-- A fault of DECODE is a tail without a code, or a symbol that does not fit (R122). -/
theorem decodeScan_error {cap : Nat} {ct : SymTab BitString} {bits acc : BitString} {k start : Nat} {o : List Byte}
    {r : Raise} (h : decodeScan cap ct bits k o acc start = .error r) :
    (∃ j, r = raiseLookup j) ∨ r = raiseCapacity 2 := by
  induction bits generalizing k o acc start with
  | nil =>
    rw [decodeScan] at h
    split at h
    · cases h
      exact .inl ⟨start, rfl⟩
    · cases h
  | cons b rest ih =>
    rw [decodeScan] at h
    split at h
    · split at h
      · cases h
        exact .inr rfl
      · exact ih h
    · exact ih h

theorem applyStage_error {s : State} {r : Raise} (h : applyStage s = .error r) :
    applyCodes s.cfg.bufCap s.ct s.inBuf = .error r := by
  cases hcodes : applyCodes s.cfg.bufCap s.ct s.inBuf with
  | ok b => cases (applyStage_of_ok hcodes).symm.trans h
  | error e =>
    cases (applyStage_of_error hcodes).symm.trans h
    rfl

theorem decodeStage_error {s : State} {r : Raise} (h : decodeStage s = .error r) :
    (∃ j, r = raiseLookup j) ∨ r = raiseCapacity 2 := by
  cases hsyms : decodeBits s.cfg.bufCap s.ct s.bits with
  | ok o => cases (decodeStage_of_ok hsyms).symm.trans h
  | error e =>
    cases (decodeStage_of_error hsyms).symm.trans h
    exact decodeScan_error hsyms

theorem serStage_error {s : State} {r : Raise} (h : serStage s = .error r) : r = raiseCapacity 2 := by
  obtain hover | hfit := Nat.lt_or_ge s.cfg.bufCap (containerOf s.pad s.pay s.ct s.ctOrd).length
  · cases (serStage_of_not_fits hover).symm.trans h
    rfl
  · cases (serStage_of_fits hfit).symm.trans h

/-- `MalformedContainer(k)` for one of the sub-causes 1 to 7 (R177). -/
def IsMalformed (r : Raise) : Prop := ∃ k, 1 ≤ k ∧ k ≤ 7 ∧ r = raiseMalformed k

theorem isMalformed_raise {k : Nat} (hlo : 1 ≤ k := by decide) (hhi : k ≤ 7 := by decide) :
    IsMalformed (raiseMalformed k) :=
  ⟨k, hlo, hhi, rfl⟩

theorem lengthField_error {c : List Byte} {r : Raise} (h : lengthField c = .error r) : IsMalformed r := by
  unfold lengthField at h
  split at h
  · cases h
    exact isMalformed_raise
  dsimp only at h
  split at h
  · cases h
    exact isMalformed_raise
  split at h
  · cases h
  · cases h
    exact isMalformed_raise

theorem checkSections_error {pad : Byte} {pay text : List Byte} {r : Raise}
    (h : checkSections pad pay text = .error r) : IsMalformed r := by
  by_cases hsentence : ∃ es, TableSentence text es
  case neg =>
    cases (checkSections_of_not_sentence (not_exists.mp hsentence)).symm.trans h
    exact isMalformed_raise
  obtain ⟨es, htext⟩ := hsentence
  by_cases hvalues : ValuesOk es
  case neg =>
    cases (checkSections_of_bad_values htext hvalues).symm.trans h
    exact isMalformed_raise
  by_cases hpad : 7 < pad.toNat ∨ pad ≠ 0 ∧ pay = []
  case pos =>
    cases (checkSections_of_bad_padding htext hvalues hpad).symm.trans h
    exact isMalformed_raise
  obtain ⟨hle, hpay⟩ := not_or.mp hpad
  cases (checkSections_of_good htext hvalues (Nat.le_of_not_lt hle) fun hne hnil => hpay ⟨hne, hnil⟩).symm.trans h

/-- Every refusal of DESER is one of the seven of R177. -/
theorem deserialise_error {c : List Byte} {r : Raise} (h : deserialise c = .error r) : IsMalformed r := by
  cases hfield : lengthField c with
  | error e =>
    cases (deserialise_of_lengthField_error hfield).symm.trans h
    exact lengthField_error hfield
  | ok field =>
    by_cases hrange : field.2 < 2 ∨ field.2 > field.1
    · cases (deserialise_of_tableStart_error hfield (if_pos hrange)).symm.trans h
      exact isMalformed_raise
    · exact checkSections_error ((deserialise_of_tableStart hfield (if_neg hrange)).symm.trans h)

theorem deserStage_error {s : State} {r : Raise} (h : deserStage s = .error r) : IsMalformed r := by
  cases hparts : deserialise s.inBuf with
  | ok d => cases (deserStage_of_ok hparts).symm.trans h
  | error e =>
    cases (deserStage_of_error hparts).symm.trans h
    exact deserialise_error hparts

theorem assignStage_error {s : State} {r : Raise} (h : assignStage s = .error r) :
    r = { cause := .sequence, info := 0x23 } := by
  obtain ⟨-, hok⟩ | ⟨-, herror⟩ := assignStage_cases s
  · cases hok.symm.trans h
  · cases herror.symm.trans h
    rfl

/-- The table is that of the input, so COMPRESS meets no inconsistency (R121). -/
theorem compressStage_error {s : State} (hcfg : s.cfg.wellFormed = true) (hin : s.inBuf.length ≤ s.cfg.bufCap)
    {r : Raise} (h : compressStage s = .error r) : r = raiseCapacity 1 ∨ r = raiseCapacity 2 := by
  obtain ⟨e, happly, herror⟩ | ⟨-, ⟨-, herror⟩ | ⟨-, hok⟩⟩ := compressStage_cases s
  · cases herror.symm.trans h
    obtain ⟨-, -, b, hb, hnil⟩ | hcap := applyScan_error happly
    · exact absurd hnil (code_ne_nil_of_mem_inBuf hcfg hin b hb)
    · exact .inl hcap
  · cases herror.symm.trans h
    exact .inr rfl
  · cases hok.symm.trans h

theorem decompressStage_error {s : State} {r : Raise} (h : decompressStage s = .error r) :
    IsMalformed r ∨ (∃ j, r = raiseLookup j) ∨ r = raiseCapacity 2 := by
  obtain hdeser | ⟨t, -, h⟩ := andThen_error.mp h
  · exact .inl (deserStage_error hdeser)
  obtain hunpack | ⟨u, -, hdecode⟩ := andThen_error.mp h
  · cases hunpack
  · exact .inr (decodeStage_error hdecode)

/-- A fault that a command records is one that its body raised. -/
theorem exec_faulted {i : Instr} {s t : State} (hs : s.fault = none) (h : exec i s = .next t) (ht : t.fault ≠ none) :
    ∃ r, bodyOf i s = .error r ∧ t = s.raise r := by
  by_cases hi : i = .rst
  · subst hi
    cases h
    exact absurd rfl ht
  cases hbody : bodyOf i s with
  | ok u =>
    cases (exec_of_body hi hs hbody).symm.trans h
    exact absurd ((keepsFault_bodyOf i hbody).1.trans hs) ht
  | error r =>
    cases (exec_of_body_error hi hs hbody).symm.trans h
    exact ⟨r, rfl, rfl⟩

/-- FINFO shows the sub-cause. -/
theorem IsMalformed.cause_info {r : Raise} (h : IsMalformed r) :
    r.cause = .malformedContainer ∧ 1 ≤ r.info.toNat ∧ r.info.toNat ≤ 7 := by
  obtain ⟨k, hlo, hhi, rfl⟩ := h
  have hk : (raiseMalformed k).info.toNat = k := toNat_countWord (by omega)
  exact ⟨rfl, hk.symm ▸ hlo, hk.symm ▸ hhi⟩

theorem lookup_or_capacity {r : Raise} {n : Nat} (h : (∃ k, r = raiseLookup k) ∨ r = raiseCapacity n) :
    r.cause = .lookupInconsistency ∨ r.cause = .capacity ∧ r.info = infoOfNat n := by
  obtain ⟨k, rfl⟩ | rfl := h
  · exact .inl rfl
  · exact .inr ⟨rfl, rfl⟩

/-- Settles O13: the fault is one that the command's body can raise; the table COMPRESS builds rules out the
inconsistency that APPLY alone can meet. -/
theorem eachCommandRaisesOnlyItsFaults : Obligations.EachCommandRaisesOnlyItsFaults := by
  intro i s t c hinv hs h ht
  obtain ⟨r, hbody, rfl⟩ := exec_faulted hs h (ht ▸ Option.some_ne_none c)
  obtain rfl : r.cause = c := Option.some.inj ht
  rw [State.raise_finfo]
  cases i with
  | nop | rst | inclr | freq | tinit | tmerge | pack | unpack => cases hbody
  | tbuild => cases (tbuildStage_eq s).symm.trans hbody
  | assign =>
    obtain rfl := assignStage_error hbody
    exact .inl ⟨rfl, rfl, rfl⟩
  | apply =>
    have hr : (∃ k, r = raiseLookup k) ∨ r = raiseCapacity 1 :=
      (applyScan_error (applyStage_error hbody)).imp_left fun ⟨k, hk, _⟩ => ⟨k, hk⟩
    exact .inr (.inl ⟨rfl, lookup_or_capacity hr⟩)
  | decode => exact .inr (.inr (.inl ⟨rfl, lookup_or_capacity (decodeStage_error hbody)⟩))
  | ser =>
    obtain rfl := serStage_error hbody
    exact .inr (.inr (.inr (.inl ⟨rfl, rfl, rfl⟩)))
  | deser => exact .inr (.inr (.inr (.inr (.inl ⟨rfl, (deserStage_error hbody).cause_info⟩))))
  | compress =>
    obtain ⟨hin, -⟩ := hinv.buffers
    obtain rfl | rfl := compressStage_error hinv.cfg_wellFormed hin hbody
    · exact .inr (.inr (.inr (.inr (.inr (.inl ⟨rfl, rfl, .inl rfl⟩)))))
    · exact .inr (.inr (.inr (.inr (.inr (.inl ⟨rfl, rfl, .inr rfl⟩)))))
  | decompress =>
    have hr := (decompressStage_error hbody).imp IsMalformed.cause_info lookup_or_capacity
    exact .inr (.inr (.inr (.inr (.inr (.inr ⟨rfl, hr⟩)))))

/-! ### The elements each command leaves untouched (R168) -/

/-- `t` has every element of `s` that `i` does not write (R168). -/
structure LeavesOthers (i : Instr) (s t : State) : Prop where
  inBuf : i ∉ ([.rst, .inclr] : List Instr) → t.inBuf = s.inBuf
  counts : i ∉ ([.rst, .freq, .compress] : List Instr) → t.freq = s.freq ∧ t.ord = s.ord
  tree : i ∉ ([.rst, .tinit, .tmerge, .tbuild, .compress] : List Instr) → t.node = s.node ∧ t.pq = s.pq
  table : i ∉ ([.rst, .tbuild, .assign, .deser, .compress, .decompress] : List Instr) → t.ct = s.ct ∧ t.ctOrd = s.ctOrd
  bits : i ∉ ([.rst, .apply, .unpack, .compress, .decompress] : List Instr) → t.bits = s.bits
  payload : i ∉ ([.rst, .pack, .deser, .compress, .decompress] : List Instr) → t.pad = s.pad ∧ t.pay = s.pay
  out : i ∉ ([.rst, .decode, .ser, .compress, .decompress] : List Instr) → t.out = s.out
  host : t.cfg = s.cfg ∧ t.pending = s.pending ∧ t.rdata = s.rdata

theorem leavesOthers_bodyOf {i : Instr} {s t : State} (h : bodyOf i s = .ok t) : LeavesOthers i s t := by
  cases i with
  | nop | rst | inclr | freq | tinit | tmerge | pack | unpack =>
    cases h
    constructor <;> simp
  | tbuild =>
    obtain ⟨n, q, c, o, rfl⟩ := tbuildStage_ok h
    constructor <;> simp
  | assign =>
    obtain ⟨-, hok⟩ | ⟨-, herror⟩ := assignStage_cases s
    · cases hok.symm.trans h
      constructor <;> simp
    · cases herror.symm.trans h
  | apply =>
    obtain ⟨b, -, rfl⟩ := applyStage_ok h
    constructor <;> simp
  | decode =>
    obtain ⟨o, -, rfl⟩ := decodeStage_ok h
    constructor <;> simp
  | ser =>
    obtain ⟨-, rfl⟩ := serStage_ok h
    constructor <;> simp
  | deser =>
    obtain ⟨d, -, rfl⟩ := deserStage_ok h
    constructor <;> simp
  | compress =>
    obtain ⟨r, -, herror⟩ | ⟨-, ⟨-, herror⟩ | ⟨-, hok⟩⟩ := compressStage_cases s
    · cases herror.symm.trans h
    · cases herror.symm.trans h
    · cases hok.symm.trans h
      constructor <;> simp [State.afterPack, State.afterTbuild, State.setTreeTable, State.afterFreq]
  | decompress =>
    obtain ⟨u, hdeser, h⟩ := andThen_ok.mp h
    obtain ⟨v, hunpack, hdecode⟩ := andThen_ok.mp h
    obtain ⟨d, -, rfl⟩ := deserStage_ok hdeser
    cases hunpack
    obtain ⟨o, -, rfl⟩ := decodeStage_ok hdecode
    constructor <;> simp

/-- Settles O14: RST is excepted in every clause but the last; a command ignored or faulted keeps all but the fault's
own elements, and a completed one all but what its stages write. -/
theorem commandsLeaveOtherElementsUntouched : Obligations.CommandsLeaveOtherElementsUntouched := by
  intro i s t h
  by_cases hi : i = .rst
  · subst hi
    cases h
    simp
  rw [exec_eq_runCommand hi] at h
  cases h
  obtain ⟨-, hrun⟩ | ⟨u, -, hbody, hrun⟩ | ⟨r, hs, -, hrun⟩ := s.runCommand_cases (opcode i) (bodyOf i) <;> rw [hrun]
  · simp
  · obtain ⟨hin, hcounts, htree, htable, hbits, hpay, hout, hhost⟩ := leavesOthers_bodyOf hbody
    exact ⟨hin, hcounts, htree, htable, hbits, hpay, fun hnot _ => hout hnot, fun _ _ => (keepsFault_bodyOf i hbody).2,
      hhost⟩
  · simp [hs]

/-! ### The windows (R59, R168) -/

/-- Above the registers, the host port reads FREQ, ORD, NODE, PQ, CT, CT_ORD, OUT and PAY alone. -/
theorem readPort_congr {s t : State} (hcounts : t.freq = s.freq ∧ t.ord = s.ord) (htree : t.node = s.node ∧ t.pq = s.pq)
    (htable : t.ct = s.ct ∧ t.ctOrd = s.ctOrd) (hpay : t.pay = s.pay) (hout : t.out = s.out) {a : Offset}
    (ha : 0x10 ≤ a.toNat) : t.readPort a = s.readPort a := by
  obtain ⟨hfreq, hord⟩ := hcounts
  obtain ⟨hnode, hpq⟩ := htree
  obtain ⟨hct, hctOrd⟩ := htable
  simp only [State.readPort, if_neg (Nat.not_lt.mpr ha), hfreq, hord, hnode, hpq, hct, hctOrd, hpay, hout]

/-- Settles O15: the four commands leave every element that has a window. -/
theorem untouchedWindowsReadAsBefore : Obligations.UntouchedWindowsReadAsBefore := by
  intro i s t hi h hfault a ha
  obtain ⟨-, hcounts, htree, htable, -, hpay, hout, -⟩ := commandsLeaveOtherElementsUntouched i s t h
  have hnot (l : List Instr) (hl : ∀ j ∈ ([.nop, .inclr, .apply, .unpack] : List Instr), j ∉ l) : i ∉ l := hl i hi
  exact readPort_congr (hcounts (hnot _ (by decide))) (htree (hnot _ (by decide))) (htable (hnot _ (by decide)))
    (hpay (hnot _ (by decide))).2 (hout (hnot _ (by decide)) hfault) ha

end Sys2Proof.Machine
end

section
/-! PROOFS of the family 60_exceptions.md: a word that is no command (R179), what a fault discards (R183), and what is
ignored while one is recorded (R184). -/

namespace Sys2Proof.Machine

/-! ### CMD writes of a word that is no command (R73, R179) -/

theorem decode_of_no_command {w : Word} (hw : ∀ i, w ≠ encode i) : ∃ e, decode w = .error e := by
  cases h : decode w with
  | ok i => exact absurd ((decodeAcceptsExactlyTheEncodings w i).mp h) (hw i)
  | error e => exact ⟨e, rfl⟩

theorem State.writeCmd_of_no_command {s : State} {w : Word} (hw : ∀ i, w ≠ encode i) (hs : s.fault = none) :
    s.writeCmd w = .next (s.raise { cause := .illegalCommand, info := w }) := by
  obtain ⟨e, he⟩ := decode_of_no_command hw
  rw [State.writeCmd, he, hs]

theorem State.writeCmd_of_no_command_of_fault {s : State} {w : Word} (hw : ∀ i, w ≠ encode i) (hs : s.fault ≠ none) :
    s.writeCmd w = .next s := by
  obtain ⟨e, he⟩ := decode_of_no_command hw
  obtain ⟨c, hc⟩ := Option.ne_none_iff_exists'.mp hs
  rw [State.writeCmd, he, hc]

/-- Settles O5: the access is taken from `pending`, and a word that does not decode goes straight to the fault. -/
theorem illegalWordRaisesIllegalCommand : Obligations.IllegalWordRaisesIllegalCommand :=
  fun s _ rest hpending hs hw =>
    (step_of_pending hpending).trans (State.writeCmd_of_no_command (s := { s with pending := rest }) hw hs)

/-! ### While a fault is recorded (R184) -/

/-- A word other than RST's is either another command or none; both are ignored. -/
theorem State.writeCmd_of_fault {s : State} {w : Word} (hs : s.fault ≠ none) (hw : w ≠ encode .rst) :
    s.writeCmd w = .next s := by
  by_cases hcommand : ∃ i, w = encode i
  · obtain ⟨i, rfl⟩ := hcommand
    rw [State.writeCmd_of_decode (decode_encode i), exec_of_fault (ne_of_apply_ne encode hw) hs]
  · exact State.writeCmd_of_no_command_of_fault (not_exists.mp hcommand) hs

/-- Settles O6: the access is taken from `pending`; then a CMD write, an IN_DATA write, a read and a reset each do what
they do in the faulted state. -/
theorem faultedBlockIgnoresAllButReset : Obligations.FaultedBlockIgnoresAllButReset := by
  intro s rest hs
  refine ⟨fun i hi => exec_of_fault hi hs, fun w hw hpending => ?_, fun w hpending => ?_, fun a => step_of_pending, ?_⟩
  · exact (step_of_pending hpending).trans (State.writeCmd_of_fault (s := { s with pending := rest }) hs hw)
  · rw [step_of_inData hpending, State.writeInData_of_fault (s := { s with pending := rest }) hs]
  · rintro (hrst | hreset)
    · exact (stepRunsTheDecodedCommand s _ rest .rst hrst (decode_encode .rst)).trans (exec_rst _)
    · exact step_of_pending hreset

/-! ### What a fault discards (R183) -/

section
variable {s t : State} (hs : s.fault = none)
include hs

/-- A CMD write that ends faulted has only raised a fault: the command's, or IllegalCommand. -/
theorem State.writeCmd_faulted {w : Word} (h : s.writeCmd w = .next t) (ht : t.fault ≠ none) : ∃ r, t = s.raise r := by
  by_cases hcommand : ∃ i, w = encode i
  · obtain ⟨i, rfl⟩ := hcommand
    rw [State.writeCmd_of_decode (decode_encode i)] at h
    obtain ⟨r, -, rfl⟩ := exec_faulted hs h ht
    exact ⟨r, rfl⟩
  · cases (State.writeCmd_of_no_command (not_exists.mp hcommand) hs).symm.trans h
    exact ⟨_, rfl⟩

/-- An IN_DATA write that ends faulted met a word that is no byte, or a full IN. -/
theorem State.writeInData_faulted {w : Word} (ht : (s.writeInData w).fault ≠ none) :
    ∃ r, s.writeInData w = s.raise r := by
  obtain hbyte | hbyte := Nat.lt_or_ge w.toNat 256
  · rw [State.writeInData_of_byte hs hbyte] at ht ⊢
    split at ht
    · next hfull => exact ⟨_, if_pos hfull⟩
    · exact absurd hs ht
  · exact ⟨_, State.writeInData_of_not_byte hs hbyte⟩

theorem State.writePort_faulted {a : Offset} {w : Word} (h : s.writePort a w = .next t) (ht : t.fault ≠ none) :
    ∃ r, t = s.raise r := by
  unfold State.writePort at h
  split at h
  · exact State.writeCmd_faulted hs h ht
  split at h
  · cases h
    exact State.writeInData_faulted hs ht
  · cases h
    exact absurd hs ht

/-- A host access that ends faulted has only raised a fault in the state it found; a read and a reset end unfaulted. -/
theorem hostStep_faulted {op : HostOp} (h : hostStep op s = .next t) (ht : t.fault ≠ none) : ∃ r, t = s.raise r := by
  cases op with
  | write a w => exact State.writePort_faulted hs h ht
  | read a =>
    cases h
    exact absurd hs ht
  | reset =>
    cases h
    exact absurd rfl ht

/-- The access performed is gone from `pending`, whether or not it faulted. -/
theorem step_faulted (h : step s = .next t) (ht : t.fault ≠ none) :
    ∃ r, t = State.raise { s with pending := s.pending.tail } r := by
  cases hpending : s.pending with
  | nil =>
    cases (step_of_idle hpending).symm.trans h
    exact absurd hs ht
  | cons op rest =>
    rw [step_of_pending hpending] at h
    exact hostStep_faulted (s := { s with pending := rest }) hs h ht

end

/-- Settles O11: a command or an access that ends faulted is a `raise` in the state it found. -/
theorem faultDiscardsEveryChange : Obligations.FaultDiscardsEveryChange := by
  refine ⟨fun i s t hs h ht => ?_, fun s t hs h ht => ?_⟩
  · obtain ⟨r, -, rfl⟩ := exec_faulted hs h ht
    rfl
  · obtain ⟨r, rfl⟩ := step_faulted hs h ht
    rfl

end Sys2Proof.Machine
end
